-- ==== Sys2Proof/Word.lean ====
section
/-! DEFINITION. The word types of HCB: the 32-bit bus and register word, the byte of DMEM, and the bit string of
`00_scope.md` R9. -/

namespace Sys2Proof

/-- A register or bus word (`10_state.md` R29). -/
abbrev Word := BitVec 32

/-- A byte of DMEM, which is also a symbol (`00_scope.md` R7, R13). -/
abbrev Byte := BitVec 8

/-- A code or a logical bit sequence: a finite list of bits, first bit first (`00_scope.md` R9). -/
abbrev Bits := List Bool

end Sys2Proof
end

