-- ==== Sys2Proof/Machine/Bits.lean ====
section
/-! DEFINITION. Bit strings and bytes (`00_scope.md` R9, R10; `20_memory.md` R66): MSB first inside every byte. -/

namespace Sys2Proof.Machine

/-- `ceil8(n)` (`00_scope.md` R10). -/
def ceil8 (n : Nat) : Nat := (n + 7) / 8

/-- `zeros(n)` (`00_scope.md` R9). -/
def zeros (n : Nat) : Bits := List.replicate n false

/-- The number whose bits are the string, most significant first. -/
def bitsToNat (b : Bits) : Nat := b.foldl (fun acc x => 2 * acc + x.toNat) 0

/-- The eight bits of a byte, most significant first (`20_memory.md` R66). -/
def byteBits (b : Byte) : Bits :=
  [b.getMsbD 0, b.getMsbD 1, b.getMsbD 2, b.getMsbD 3, b.getMsbD 4, b.getMsbD 5, b.getMsbD 6, b.getMsbD 7]

/-- `bytes_to_bits(B, L)` (`00_scope.md` R10). -/
def bytesToBits (bs : List Byte) (len : Nat) : Bits := (bs.flatMap byteBits).take len

/-- The byte whose bits are the eight given ones, most significant first. -/
def byteOfBits (b : Bits) : Byte := BitVec.ofNat 8 (bitsToNat b)

/-- `bits_to_bytes(s)`, for a string whose length is a multiple of 8 (`00_scope.md` R10). -/
def bitsToBytes : Bits → List Byte
  | b0 :: b1 :: b2 :: b3 :: b4 :: b5 :: b6 :: b7 :: rest =>
    byteOfBits [b0, b1, b2, b3, b4, b5, b6, b7] :: bitsToBytes rest
  | _ => []

/-- The word whose bit 31 - t is bit t of the string, a missing bit reading 0 (`10_state.md` R38). -/
def wordOfBits (b : Bits) : Word := BitVec.ofNat 32 (bitsToNat ((b ++ zeros 32).take 32))

end Sys2Proof.Machine
end

