-- ==== Sys2Proof/Syntax.lean ====
section
/-! DEFINITION. The commands of HCB, one constructor per row of the opcode table (`30_encoding.md` R90), and the fields of
the one format C (R80). A command has no operand field (R82), so no constructor has an argument. -/

namespace Sys2Proof

/-- The nine commands (`30_encoding.md` R90). -/
inductive Instr where
  | fclr
  | fcnt
  | build
  | cgen
  | enc
  | dec
  | pack
  | unpk
  | comp
  deriving DecidableEq, Repr

/-- The two fields of a command word in format C (`30_encoding.md` R80). -/
structure FormatC where
  /-- Bits 7:0, the opcode. -/
  opc : Byte
  /-- Bits 31:8, which must be 0. -/
  rsv : BitVec 24
  deriving DecidableEq, Repr

end Sys2Proof
end

