-- ==== Sys2Proof/WellFormed.lean ====
section
/-! DEFINITION. What makes a command word legal (`30_encoding.md` R80, R92): its RSV field is zero and its opcode is one of
the nine. A term of `Instr` has no operand, so every `Instr` is well formed; the checks are on the word's fields. -/

namespace Sys2Proof

/-- RSV must be 0 (`30_encoding.md` R80). -/
def FormatC.rsvZero (f : FormatC) : Bool := f.rsv == 0#24

/-- OPC is an opcode of the map: 0x01..0x09 (`30_encoding.md` R90, R92). -/
def FormatC.opcListed (f : FormatC) : Bool := 1 ≤ f.opc.toNat && f.opc.toNat ≤ 9

/-- A command word that names a command (`30_encoding.md` R92). -/
def FormatC.wf (f : FormatC) : Bool := f.rsvZero && f.opcListed

end Sys2Proof
end

