-- ==== Sys2Proof/Decode.lean ====
section
/-! DEFINITION. The decoder, total on every 32-bit word (`30_encoding.md` R81), and after it the encoder (R90). -/

namespace Sys2Proof

/-- The fields of a command word: OPC is bits 7:0 and RSV bits 31:8 (`30_encoding.md` R80). -/
def FormatC.ofWord (w : Word) : FormatC :=
  { opc := w.extractLsb' 0 8, rsv := w.extractLsb' 8 24 }

/-- The command word with the given fields (`30_encoding.md` R80). -/
def FormatC.toWord (f : FormatC) : Word := f.rsv ++ f.opc

/-- Why a word names no command (`30_encoding.md` R92). -/
inductive BadWord where
  /-- RSV is not 0. -/
  | rsvNonzero
  /-- OPC is 0x00 or 0x0A..0xFF. -/
  | reservedOpcode
  deriving DecidableEq, Repr

/-- The verdict of the decoder on a command word (`30_encoding.md` R81). -/
inductive Decoded where
  | cmd (i : Instr)
  | badCmd (why : BadWord)
  deriving DecidableEq, Repr

/-- The opcode map (`30_encoding.md` R90). -/
def opcodeInstr (opc : Byte) : Option Instr :=
  match opc.toNat with
  | 0x01 => some .fclr
  | 0x02 => some .fcnt
  | 0x03 => some .build
  | 0x04 => some .cgen
  | 0x05 => some .enc
  | 0x06 => some .dec
  | 0x07 => some .pack
  | 0x08 => some .unpk
  | 0x09 => some .comp
  | _ => none

/-- Decoding of an accepted command word, in the order of `30_encoding.md` R81: RSV first, then the opcode. -/
def decode (w : Word) : Decoded :=
  let f := FormatC.ofWord w
  if f.rsv ≠ 0#24 then .badCmd .rsvNonzero
  else
    match opcodeInstr f.opc with
    | some i => .cmd i
    | none => .badCmd .reservedOpcode

/-- The word on the bus whose byte lanes are the given bytes, lane 0 first (`20_memory.md` R65). -/
def wordOfLanes (b0 b1 b2 b3 : Byte) : Word := b3 ++ b2 ++ b1 ++ b0

/-- Byte lane i of a bus word (`20_memory.md` R65). -/
def laneOf (w : Word) (i : Nat) : Byte := w.extractLsb' (8 * i) 8

/-- Reading one command from bytes laid out in lane order: one 32-bit word, or nothing when fewer than four bytes stand
there (`30_encoding.md` R93: the length of every command is one 32-bit word). -/
def decodeBytes : List Byte → Option (Decoded × List Byte)
  | b0 :: b1 :: b2 :: b3 :: rest => some (decode (wordOfLanes b0 b1 b2 b3), rest)
  | _ => none

/-- The opcode of a command (`30_encoding.md` R90). -/
def Instr.opcode : Instr → Byte
  | .fclr => 0x01
  | .fcnt => 0x02
  | .build => 0x03
  | .cgen => 0x04
  | .enc => 0x05
  | .dec => 0x06
  | .pack => 0x07
  | .unpk => 0x08
  | .comp => 0x09

/-- The command word of a command (`30_encoding.md` R80, R90). -/
def encode (i : Instr) : Word := FormatC.toWord { opc := i.opcode, rsv := 0#24 }

/-- The command word given by the low `nbits` bits of `w`, every higher bit 0 (log 18). -/
def tableWord (nbits w : Nat) : Word := BitVec.ofNat 32 (w % 2 ^ nbits)

/-- The bytes of a word in lane order, lane 0 first (`20_memory.md` R65). -/
def lanesOf (w : Word) : List Byte := [laneOf w 0, laneOf w 1, laneOf w 2, laneOf w 3]

/-- What the decoder reads from the word whose low `nbits` bits are `w`, laid out in bytes as the bus has them (log 18). -/
def decodeTableWord (nbits w : Nat) : Option Instr :=
  match decodeBytes (lanesOf (tableWord nbits w)) with
  | some (.cmd i, _) => some i
  | _ => none

end Sys2Proof
end

