-- ==== Sys2Proof/Config.lean ====
section
/-! DEFINITION. What is fixed for one HCB (`00_scope.md` R7) and the values the spec leaves open. The open values are
opaque constants with no body: nothing can be proved about them, so a claim holds whatever they are (logs 3, 8, 12). -/

namespace Sys2Proof.Config

/-- ID, the constant of `10_state.md` R22. -/
def idValue : Word := 0x48554646

/-- VERSION, the constant of `10_state.md` R23. -/
def versionValue : Word := 0x00010000

/-- What DMEM reads as at an offset the memory list does not hold. DESIGN CHOICE (log 2), unsafe: the spec leaves the
contents after a hard reset open (`70_reset_and_hazards.md` R190). -/
def unwrittenByte : Byte := 0

/-- HCB_BASE, the platform's address of the window: a parameter the spec leaves open (`20_memory.md` R79). -/
opaque hcbBase : Nat

/-- HCB_IRQ, the platform line that `irq` is wired to: a parameter the spec leaves open (`60_exceptions.md` R176). -/
opaque hcbIrq : Nat

/-- A DMEM byte left unspecified by the draw event numbered first, at the DMEM offset given second
(`20_memory.md` R68, `70_reset_and_hazards.md` R191, R193). -/
opaque freeByte : Nat → Nat → Byte

/-- A FREQ word left unspecified by the draw event numbered first, at the symbol given second. -/
opaque freeFreq : Nat → Nat → Word

/-- The control word of a NODE entry left unspecified by a draw event, at the index given second. -/
opaque freeNodeCtl : Nat → Nat → Word

/-- The frequency word of a NODE entry left unspecified by a draw event, at the index given second. -/
opaque freeNodeFreq : Nat → Nat → Word

/-- The code string of a CODE entry left unspecified by a draw event, before its length is bounded by 255. -/
opaque freeCode : Nat → Nat → Bits

/-- The control word read at a node index that has no arena entry (511): no rule gives it (log 8). -/
opaque absentNodeCtl : Word

/-- The frequency word read at a node index that has no arena entry (511): no rule gives it (log 8). -/
opaque absentNodeFreq : Word

end Sys2Proof.Config
end

