-- ==== Sys2Proof/Machine/State.lean ====
section
/-! DEFINITION. The state of HCB as plain data (`10_state.md` R20), the state right after reset
(`70_reset_and_hazards.md` R190), and the reasons a step can stop. -/

namespace Sys2Proof.Machine

/-- The error codes of `60_exceptions.md` R170, 0 to 12 in order. Codes 13..15 are never reported and have no name here. -/
inductive ErrCode where
  | none
  | badCmd
  | badRegion
  | emptyInput
  | emptyTable
  | sumOvf
  | freqOvf
  | badTree
  | noTree
  | noTable
  | noCode
  | malformed
  | outOvf
  deriving DecidableEq, Repr

/-- The stored bits of CTRL (`10_state.md` R25). SRST stores nothing. -/
structure Ctrl where
  ieDone : Bool
  ieErr : Bool
  padMode : Bool
  emptyPol : Bool
  deriving DecidableEq, Repr

/-- The stored bits of STATUS (`10_state.md` R26). BUSY is the engine phase (R45) and is not stored twice. -/
structure Status where
  done : Bool
  err : Bool
  errcode : ErrCode
  treeValid : Bool
  ctValid : Bool
  accErr : Bool
  cmdOvr : Bool
  deriving DecidableEq, Repr

/-- One entry of the node arena (`10_state.md` R41): the non-reserved bits of NODE_CTL and the word NODE_FREQ. -/
structure Node where
  left : BitVec 9
  right : BitVec 9
  sym : Byte
  internal : Bool
  freq : Word
  deriving DecidableEq, Repr

/-- One entry of CODE: LEN is the length of the string and BITS the string itself (`10_state.md` R43, log 14). -/
abbrev Code := Bits

/-- DMEM as a list of (offset, byte), offsets strictly rising, no entry equal to what an unlisted offset reads as. -/
abbrev Memory := List Host.Cell

/-- What the engine latches at acceptance (`20_memory.md` R70). -/
structure Latched where
  word : Word
  srcAddr : Word
  srcLen : Word
  dstAddr : Word
  dstCap : Word
  padMode : Bool
  emptyPol : Bool
  deriving DecidableEq, Repr

/-- A register of the window (`10_state.md` R22 to R38). -/
inductive Reg where
  | id
  | version
  | dmemsz
  | ctrl
  | status
  | cmd
  | srcAddr
  | srcLen
  | dstAddr
  | dstCap
  | resLen
  | resBits
  | errPos
  | nodeCount
  | root
  | symCount
  | ctSel
  | ctLen
  | ctBits (w : Fin 8)
  deriving DecidableEq, Repr

/-- A word location of the window other than DMEM (`20_memory.md` R61). -/
inductive Loc where
  | reg (r : Reg)
  | freq (s : Fin 256)
  | nodeCtl (i : Fin 511)
  | nodeFreq (i : Fin 511)
  deriving DecidableEq, Repr

/-- What a window address selects (`20_memory.md` R61). `dmem a` is the DMEM word at offsets a .. a + 3. -/
inductive Target where
  | loc (l : Loc)
  | dmem (a : Nat)
  | reserved
  deriving DecidableEq, Repr

/-- One event from outside the machine, or the clock edge at which the engine moves (log 1). -/
inductive Input where
  /-- A host read at a byte address of the window (`20_memory.md` R60). -/
  | read (addr : BitVec 17)
  /-- A host write with its byte strobes (`20_memory.md` R60, R64). -/
  | write (addr : BitVec 17) (strb : BitVec 4) (data : Word)
  /-- The clock edge at which a busy engine completes its command (`70_reset_and_hazards.md` R200). -/
  | engine
  /-- The hard-reset pin `rst_n` takes this level (`70_reset_and_hazards.md` R191). -/
  | rstn (level : Bool)
  deriving DecidableEq, Repr

/-- The state of HCB. The last two fields are the model's own (logs 1, 3). -/
structure State where
  /-- DMEM_SIZE = 2^(8 + dmemExp), fixed for a machine (`00_scope.md` R7, `10_state.md` R24). -/
  dmemExp : Fin 9
  ctrl : Ctrl
  status : Status
  srcAddr : Word
  srcLen : Word
  dstAddr : Word
  dstCap : Word
  resLen : Word
  resBits : Word
  errPos : Word
  nodeCount : BitVec 10
  root : BitVec 9
  symCount : BitVec 9
  ctSel : BitVec 8
  freq : Vector Word 256
  node : Vector Node 511
  code : Vector Code 256
  dmem : Memory
  /-- The engine phase and its latched command (`10_state.md` R45): `none` is IDLE. -/
  engine : Option Latched
  /-- `rst_n` = 0 (`20_memory.md` R60). -/
  inReset : Bool
  /-- The word the last host read returned (`20_memory.md` R60, log 6). -/
  prdata : Word
  /-- What the outside world does next, oldest first (log 1). -/
  inputs : List Input
  /-- How many draw events have happened: the argument of the free values (log 3). -/
  draws : Nat
  deriving DecidableEq, Repr

/-- Why a step stops with a fault. HCB has none: every word and every access has a defined outcome
(`30_encoding.md` R81, `20_memory.md` R60, R63, `60_exceptions.md` R172), so no constructor raises one. Safe. -/
inductive Fault where
  deriving DecidableEq, Repr

/-- Why a step has no meaning. -/
inductive Refusal where
  /-- Raised by an arm of `exec` whose instruction has no meaning yet, and by nothing else. Safe. No arm raises it. -/
  | notModelled (mnemonic : String)
  deriving DecidableEq, Repr

/-- CTRL after reset (`70_reset_and_hazards.md` R190). -/
def Ctrl.reset : Ctrl := { ieDone := false, ieErr := false, padMode := false, emptyPol := false }

/-- STATUS after reset (`70_reset_and_hazards.md` R190). -/
def Status.reset : Status :=
  { done := false, err := false, errcode := .none, treeValid := false, ctValid := false, accErr := false, cmdOvr := false }

/-- The arena entry that every NODE of `State.reset` holds. DESIGN CHOICE (log 2), unsafe. -/
def Node.zero : Node := { left := 0, right := 0, sym := 0, internal := false, freq := 0 }

/-- The machine right after a hard reset (`70_reset_and_hazards.md` R190): the registers as the table gives them, the
engine IDLE. FREQ, NODE, CODE and DMEM, which the spec leaves open there, hold zero. DESIGN CHOICE (log 2), unsafe. -/
def State.reset : State :=
  { dmemExp := 8
    ctrl := Ctrl.reset
    status := Status.reset
    srcAddr := 0
    srcLen := 0
    dstAddr := 0
    dstCap := 0
    resLen := 0
    resBits := 0
    errPos := 0
    nodeCount := 0
    root := 0
    symCount := 0
    ctSel := 0
    freq := Vector.replicate 256 0
    node := Vector.replicate 511 Node.zero
    code := Vector.replicate 256 []
    dmem := []
    engine := Option.none
    inReset := false
    prdata := 0
    inputs := []
    draws := 0 }

end Sys2Proof.Machine
end

