-- ==== Sys2Proof/Machine/Ops.lean ====
section
/-! DEFINITION. The shared operations over memory and registers: DMEM, acceptance of a command, its completion without and
with an error (HCB's taking of an exception), and the draws the spec leaves open. -/

namespace Sys2Proof.Machine

/-! ### DMEM (`20_memory.md` R62, `00_scope.md` R10) -/

/-- The byte at a DMEM offset; an unlisted offset reads as `Config.unwrittenByte` (log 2). -/
def Memory.read : Memory → Nat → Byte
  | [], _ => Config.unwrittenByte
  | (k, v) :: m, a => if k = a then v else Memory.read m a

/-- Put a listed byte in front unless it is what an unlisted offset reads as. -/
def Memory.cons (a : Nat) (v : Byte) (m : Memory) : Memory :=
  if v = Config.unwrittenByte then m else (a, v) :: m

/-- Store a byte, keeping the list in its canonical form. -/
def Memory.write : Memory → Nat → Byte → Memory
  | [], a, v => Memory.cons a v []
  | (k, x) :: m, a, v =>
    if a < k then Memory.cons a v ((k, x) :: m)
    else if a = k then Memory.cons a v m
    else (k, x) :: Memory.write m a v

/-- `MemRead(a, n)` (`00_scope.md` R10): n bytes, lowest offset first. -/
def Memory.readBytes (m : Memory) (a n : Nat) : List Byte := (List.range n).map (fun i => m.read (a + i))

/-- `MemWrite(a, n, v)` (`00_scope.md` R10), n being the length of v. -/
def Memory.writeBytes (m : Memory) (a : Nat) : List Byte → Memory
  | [] => m
  | v :: vs => Memory.writeBytes (m.write a v) (a + 1) vs

/-- The n bytes at a are left unspecified by the draw event `e`: each takes its free value (log 3). -/
def Memory.drawBytes (m : Memory) (e a n : Nat) : Memory :=
  m.writeBytes a ((List.range n).map (fun i => Config.freeByte e (a + i)))

/-- The canonical form: offsets strictly rising, no entry equal to what an unlisted offset reads as. -/
abbrev Memory.wf (m : Memory) : Prop :=
  m.Pairwise (fun c d => c.1 < d.1) ∧ ∀ c ∈ m, c.2 ≠ Config.unwrittenByte

/-- DMEM_SIZE of this machine (`00_scope.md` R7): one of 256, 512, .., 65536. -/
def State.dmemSize (s : State) : Nat := 2 ^ (8 + s.dmemExp.val)

/-! ### The engine phase and the latched operands (`10_state.md` R45) -/

/-- STATUS.BUSY: the engine phase (`10_state.md` R26, R45). -/
def State.busy (s : State) : Bool := s.engine.isSome

/-- The command word and the current operand registers and CTRL fields, as acceptance samples them (`20_memory.md` R70). -/
def State.sample (w : Word) (s : State) : Latched :=
  { word := w
    srcAddr := s.srcAddr
    srcLen := s.srcLen
    dstAddr := s.dstAddr
    dstCap := s.dstCap
    padMode := s.ctrl.padMode
    emptyPol := s.ctrl.emptyPol }

/-- Acceptance of a command word, in one step (`20_memory.md` R70). -/
def State.accept (w : Word) (s : State) : State :=
  { s with
    engine := some (s.sample w)
    status := { s.status with done := false, err := false, errcode := .none } }

/-! ### Completion (`60_exceptions.md` R171, R172) -/

/-- Completion without error (`60_exceptions.md` R171), with the RES_LEN and RES_BITS the command set. -/
def State.finish (resLen resBits : Nat) (s : State) : State :=
  { s with
    engine := Option.none
    status := { s.status with done := true, err := false, errcode := .none }
    errPos := 0
    resLen := BitVec.ofNat 32 resLen
    resBits := BitVec.ofNat 32 resBits }

/-- `raise E(p)`, completion with an error (`60_exceptions.md` R172). This is the one way HCB takes an exception (R177):
it records the code and the position, and saves and changes nothing else. -/
def State.raise (e : ErrCode) (pos : Nat) (s : State) : State :=
  { s with
    engine := Option.none
    status := { s.status with done := true, err := true, errcode := e }
    errPos := BitVec.ofNat 32 pos
    resLen := 0
    resBits := 0 }

/-- The host's acknowledge (`60_exceptions.md` R178): a STATUS write clears the W1C bits written as 1 and nothing else
(`10_state.md` R26, `20_memory.md` R76). -/
def State.ackStatus (d : Word) (s : State) : State :=
  { s with
    status :=
      { s.status with
        done := s.status.done && !d.getLsbD 1
        err := s.status.err && !d.getLsbD 2
        accErr := s.status.accErr && !d.getLsbD 24
        cmdOvr := s.status.cmdOvr && !d.getLsbD 25 } }

/-! ### Unspecified bytes and words (log 3) -/

/-- Every existing byte of the destination region of a command takes an unspecified value (`20_memory.md` R68,
`70_reset_and_hazards.md` R193). The part of the region outside DMEM does not exist (log 10). -/
def State.drawDst (o : Latched) (s : State) : State :=
  { s with
    dmem := s.dmem.drawBytes s.draws o.dstAddr.toNat (min o.dstCap.toNat (s.dmemSize - o.dstAddr.toNat))
    draws := s.draws + 1 }

/-- A data-phase error: the destination region is left unspecified, then `raise` (`60_exceptions.md` R173). -/
def State.raiseData (o : Latched) (e : ErrCode) (pos : Nat) (s : State) : State :=
  (s.drawDst o).raise e pos

/-- The arena entry with the given words (`10_state.md` R41); reserved bits are not stored. -/
def Node.ofWords (ctl freq : Word) : Node :=
  { left := ctl.extractLsb' 0 9
    right := ctl.extractLsb' 9 9
    sym := ctl.extractLsb' 18 8
    internal := ctl.getLsbD 31
    freq := freq }

/-- FREQ left unspecified by draw event `e`. -/
def drawnFreq (e : Nat) : Vector Word 256 := Vector.ofFn (fun i => Config.freeFreq e i.val)

/-- NODE left unspecified by draw event `e`. -/
def drawnNode (e : Nat) : Vector Node 511 :=
  Vector.ofFn (fun i => Node.ofWords (Config.freeNodeCtl e i.val) (Config.freeNodeFreq e i.val))

/-- CODE left unspecified by draw event `e`: any string of at most 255 bits (`10_state.md` R43). -/
def drawnCode (e : Nat) : Vector Code 256 := Vector.ofFn (fun i => (Config.freeCode e i.val).take 255)

/-! ### Reading the internal memories -/

/-- `CODE[b]` (`10_state.md` R43). -/
def codeAt (t : Vector Code 256) (b : Byte) : Code := t[b.toNat]'(b.isLt)

/-- `FREQ[b]` (`10_state.md` R40). -/
def freqAt (f : Vector Word 256) (b : Byte) : Word := f[b.toNat]'(b.isLt)

/-- `NODE[n]` (`10_state.md` R41). An index with no arena entry reads a free value (log 8). -/
def nodeAt (t : Vector Node 511) (n : Nat) : Node :=
  if h : n < 511 then t[n] else Node.ofWords Config.absentNodeCtl Config.absentNodeFreq

/-- The values of `xs` in front, and `old` from there on: entries past the end of `xs` are unchanged. -/
def overlayList {α : Type} : List α → List α → List α
  | x :: xs, _ :: old => x :: overlayList xs old
  | [], old => old
  | _ :: _, [] => []

theorem overlayList_length {α : Type} : ∀ (xs old : List α), (overlayList xs old).length = old.length
  | x :: xs, o :: old => by simp [overlayList, overlayList_length xs old]
  | [], old => by simp [overlayList]
  | _ :: _, [] => by simp [overlayList]

/-- Write the entries of `xs` to the front of a table (`41_tree_builder.md` R120: entries next..510 unchanged). -/
def overlay {α : Type} {n : Nat} (xs : List α) (v : Vector α n) : Vector α n :=
  ⟨(overlayList xs v.toList).toArray, by simp [overlayList_length]⟩

end Sys2Proof.Machine
end

