-- ==== Sys2Proof/Machine/Operands.lean ====
section
/-! DEFINITION. The operands of a command (`30_encoding.md` R82, R91) and the region check (`20_memory.md` R67). -/

namespace Sys2Proof.Machine

/-- The operands of the running command: the latched ones. When no command is latched, the ones acceptance would latch now:
`step` never asks in that case (log 7). -/
def State.operands (s : State) : Latched :=
  match s.engine with
  | some l => l
  | Option.none => s.sample 0

/-- The source length in bytes of every command but PACK: SRC_LEN (`20_memory.md` R67). -/
def Latched.srcBytes (o : Latched) : Nat := o.srcLen.toNat

/-- The source length in bytes of PACK: ceil8(SRC_LEN) (`20_memory.md` R67, `30_encoding.md` R82). -/
def Latched.packSrcBytes (o : Latched) : Nat := ceil8 o.srcLen.toNat

/-- Do two regions [a, a + n) and [b, b + m) overlap? Empty regions do not (`20_memory.md` R67). -/
def regionsOverlap (a n b m : Nat) : Bool := 0 < n && 0 < m && a < b + m && b < a + n

/-- The check of a command that reads a source region only (`20_memory.md` R67, first test). -/
def badSrcRegion (size : Nat) (o : Latched) (nSrc : Nat) : Option Nat :=
  if o.srcAddr.toNat + nSrc > size then some 1 else none

/-- The check of a command that also writes a destination region: BAD_REGION(p) for the first failing test
(`20_memory.md` R67). The sums do not wrap. -/
def badRegion (size : Nat) (o : Latched) (nSrc : Nat) : Option Nat :=
  if o.srcAddr.toNat + nSrc > size then some 1
  else if o.dstAddr.toNat + o.dstCap.toNat > size then some 2
  else if regionsOverlap o.srcAddr.toNat nSrc o.dstAddr.toNat o.dstCap.toNat then some 3
  else none

/-- The source region's first n bytes (`00_scope.md` R10). -/
def State.source (s : State) (o : Latched) (n : Nat) : List Byte := s.dmem.readBytes o.srcAddr.toNat n

/-- Write the output if it fits DST_CAP and complete, else OUT_OVF with the required size (`43_bit_packer.md` R143, R144,
`44_encoder.md` R151, R152). -/
def State.deliver (o : Latched) (out : List Byte) (resBits : Nat) (s : State) : State :=
  if out.length > o.dstCap.toNat then s.raiseData o .outOvf out.length
  else State.finish out.length resBits { s with dmem := s.dmem.writeBytes o.dstAddr.toNat out }

end Sys2Proof.Machine
end

