-- ==== Sys2Proof/Machine/Packer.lean ====
section
/-! DEFINITION. The bit-packer and unpacker: the shared functions (`43_bit_packer.md` R140 to R142), PACK (R143) and UNPK
(R144). -/

namespace Sys2Proof.Machine

/-- The padding count (`43_bit_packer.md` R140): mode 0 minimal, mode 1 reference. -/
def padCount (len : Nat) (mode : Bool) : Nat :=
  if mode then 8 - len % 8 else (8 - len % 8) % 8

/-- `pack(b, m)` (`43_bit_packer.md` R141): header byte, then the padded payload. -/
def packBits (b : Bits) (mode : Bool) : List Byte :=
  let h := padCount b.length mode
  BitVec.ofNat 8 h :: bitsToBytes (b ++ zeros h)

/-- `unpack(S)` (`43_bit_packer.md` R142): `.error p` is MALFORMED(p). -/
def unpackBytes : List Byte → Except Nat Bits
  | [] => .error 0
  | hdr :: payload =>
    let h := hdr.toNat
    let total := 8 * payload.length
    if h > 8 then .error 0
    else if h > total then .error 0
    else
      let p := bytesToBits payload total
      match (p.drop (total - h)).findIdx? (fun x => x) with
      | some k => .error (8 + (total - h) + k)
      | none => .ok (p.take (total - h))

/-- PACK: pack a raw bit sequence into a PaddedBitstream (`43_bit_packer.md` R143). -/
def runPack (o : Latched) (s : State) : State :=
  match badRegion s.dmemSize o o.packSrcBytes with
  | some p => s.raise .badRegion p
  | none =>
    let len := o.srcLen.toNat
    let bits := bytesToBits (s.source o o.packSrcBytes) len
    s.deliver o (packBits bits o.padMode) len

/-- PACK (`43_bit_packer.md` R143). -/
def execPack (s : State) : Host.Outcome State Fault Refusal := .next (runPack s.operands s)

/-- The raw bytes of a bit sequence, the unused low bits 0 (`43_bit_packer.md` R144, `30_encoding.md` R89). -/
def rawBytes (b : Bits) : List Byte := bitsToBytes (b ++ zeros (8 * ceil8 b.length - b.length))

/-- UNPK: unpack a PaddedBitstream into a raw bit sequence (`43_bit_packer.md` R144). -/
def runUnpk (o : Latched) (s : State) : State :=
  match badRegion s.dmemSize o o.srcBytes with
  | some p => s.raise .badRegion p
  | none =>
    match unpackBytes (s.source o o.srcBytes) with
    | .error p => s.raiseData o .malformed p
    | .ok bits => s.deliver o (rawBytes bits) bits.length

/-- UNPK (`43_bit_packer.md` R144). -/
def execUnpk (s : State) : Host.Outcome State Fault Refusal := .next (runUnpk s.operands s)

end Sys2Proof.Machine
end

