-- ==== Sys2Proof/Machine/Decoder.lean ====
section
/-! DEFINITION. The Huffman decoder engine: DEC (`45_decoder.md` R160, R161). -/

namespace Sys2Proof.Machine

/-- Put a decoded symbol in front of what the rest of the walk decodes. -/
def emitByte (sym : Byte) (rest : Except (ErrCode × Nat) (List Byte)) : Except (ErrCode × Nat) (List Byte) :=
  match rest with
  | .ok bs => .ok (sym :: bs)
  | .error e => .error e

/-- The walk under a single-leaf root (`45_decoder.md` R161, R163): `i` is the index of the next logical bit and `room` is
DST_CAP less the bytes already emitted. -/
def walkSingle (sym : Byte) : Nat → Nat → Bits → Except (ErrCode × Nat) (List Byte)
  | _, _, [] => .ok []
  | room, i, b :: bs =>
    if b then .error (.malformed, 8 + i)
    else
      match room with
      | 0 => .error (.outOvf, 8 + i)
      | room' + 1 => emitByte sym (walkSingle sym room' (i + 1) bs)

/-- The walk under an internal root r (`45_decoder.md` R161), from current node n. -/
def walkFrom (node : Vector Node 511) (r : Nat) : Nat → Nat → Nat → Bits → Except (ErrCode × Nat) (List Byte)
  | n, _, i, [] => if n ≠ r then .error (.malformed, 8 + i) else .ok []
  | n, room, i, b :: bs =>
    let x := nodeAt node n
    let m := if b then x.right.toNat else x.left.toNat
    let y := nodeAt node m
    if y.internal then walkFrom node r m room (i + 1) bs
    else
      match room with
      | 0 => .error (.outOvf, 8 + i)
      | room' + 1 => emitByte y.sym (walkFrom node r r room' (i + 1) bs)

/-- `walk_decode(bits)` with DST_CAP = cap (`45_decoder.md` R161). -/
def walkDecode (node : Vector Node 511) (r cap : Nat) (bits : Bits) : Except (ErrCode × Nat) (List Byte) :=
  let root := nodeAt node r
  if root.internal then walkFrom node r r cap 0 bits else walkSingle root.sym cap 0 bits

/-- DEC: decode a PaddedBitstream with the current tree (`45_decoder.md` R160). -/
def runDec (o : Latched) (s : State) : State :=
  match badRegion s.dmemSize o o.srcBytes with
  | some p => s.raise .badRegion p
  | none =>
    match unpackBytes (s.source o o.srcBytes) with
    | .error p => s.raiseData o .malformed p
    | .ok bits =>
      if bits.length = 0 then s.finish 0 0
      else if !s.status.treeValid then s.raise .noTree 0
      else
        match walkDecode s.node s.root.toNat o.dstCap.toNat bits with
        | .error (e, p) => s.raiseData o e p
        | .ok out => s.deliver o out bits.length

/-- DEC (`45_decoder.md` R160). -/
def execDec (s : State) : Host.Outcome State Fault Refusal := .next (runDec s.operands s)

end Sys2Proof.Machine
end

