-- ==== Sys2Proof/Machine/Flags.lean ====
section
/-! DEFINITION. The status flags (`10_state.md` R26, R27, R44), the words the host reads from the packed registers, and the
interrupt output (`60_exceptions.md` R176). -/

namespace Sys2Proof.Machine

/-- The number of an error code (`60_exceptions.md` R170). -/
def ErrCode.toBits : ErrCode → BitVec 4
  | .none => 0
  | .badCmd => 1
  | .badRegion => 2
  | .emptyInput => 3
  | .emptyTable => 4
  | .sumOvf => 5
  | .freqOvf => 6
  | .badTree => 7
  | .noTree => 8
  | .noTable => 9
  | .noCode => 10
  | .malformed => 11
  | .outOvf => 12

/-- The three classes of `60_exceptions.md` R170 and R173: a data-phase error leaves the destination region unspecified. -/
def ErrCode.dataPhase : ErrCode → Bool
  | .noCode => true
  | .malformed => true
  | .outOvf => true
  | .none => false
  | .badCmd => false
  | .badRegion => false
  | .emptyInput => false
  | .emptyTable => false
  | .sumOvf => false
  | .freqOvf => false
  | .badTree => false
  | .noTree => false
  | .noTable => false

/-- The STATUS word (`10_state.md` R26), bit 31 first. -/
def statusWord (busy : Bool) (t : Status) : Word :=
  0#6 ++ BitVec.ofBool t.cmdOvr ++ BitVec.ofBool t.accErr ++ 0#6 ++ BitVec.ofBool t.ctValid ++ BitVec.ofBool t.treeValid ++
    0#4 ++ t.errcode.toBits ++ 0#5 ++ BitVec.ofBool t.err ++ BitVec.ofBool t.done ++ BitVec.ofBool busy

/-- The STATUS word the host reads. -/
def State.statusReg (s : State) : Word := statusWord s.busy s.status

/-- The CTRL word (`10_state.md` R25): SRST reads 0. -/
def Ctrl.toWord (c : Ctrl) : Word :=
  0#28 ++ BitVec.ofBool c.emptyPol ++ BitVec.ofBool c.padMode ++ BitVec.ofBool c.ieErr ++ BitVec.ofBool c.ieDone

/-- The stored bits of a word written to CTRL (`10_state.md` R25). -/
def Ctrl.ofWord (w : Word) : Ctrl :=
  { ieDone := w.getLsbD 0, ieErr := w.getLsbD 1, padMode := w.getLsbD 2, emptyPol := w.getLsbD 3 }

/-- The NODE_CTL word of an arena entry (`10_state.md` R41); reserved bits read 0. -/
def Node.ctl (n : Node) : Word := BitVec.ofBool n.internal ++ 0#5 ++ n.sym ++ n.right ++ n.left

/-- CT_LEN (`10_state.md` R38). -/
def ctLenWord (c : Code) : Word := BitVec.setWidth 32 (BitVec.ofNat 8 c.length)

/-- CT_BITSw (`10_state.md` R38): bit 31 - t is bit 32w + t of the code, 0 past its end. -/
def ctBitsWord (c : Code) (w : Nat) : Word := wordOfBits (c.drop (32 * w))

/-- ACCERR, set by a refused access (`20_memory.md` R64, R72). -/
def State.accessError (s : State) : State := { s with status := { s.status with accErr := true } }

/-- CMDOVR, set by a CMD write while busy (`20_memory.md` R73). -/
def State.commandOverrun (s : State) : State := { s with status := { s.status with cmdOvr := true } }

/-- The validity bits take these values (`10_state.md` R27). -/
def State.setValid (tree ct : Bool) (s : State) : State :=
  { s with status := { s.status with treeValid := tree, ctValid := ct } }

/-- The interrupt output, a level recomputed from the state (`60_exceptions.md` R176). -/
def State.irq (s : State) : Bool := (s.status.done && s.ctrl.ieDone) || (s.status.err && s.ctrl.ieErr)

/-- The platform line that carries `irq` and its level (`60_exceptions.md` R176). -/
def State.platformIrq (s : State) : Nat × Bool := (Config.hcbIrq, s.irq)

/-- `pready`, tied to 1 (`20_memory.md` R60). -/
def pready : Bool := true

/-- `pslverr`, tied to 0 (`20_memory.md` R60). -/
def pslverr : Bool := false

end Sys2Proof.Machine
end

