-- ==== Sys2Proof/Machine/CodeTable.lean ====
section
/-! DEFINITION. The prefix-code-table generator: CGEN (`42_code_table.md` R130 to R136). -/

namespace Sys2Proof.Machine

/-- The working state of the walk (`42_code_table.md` R130, R131): visited nodes, seen symbols, leaves and the working copy
of CODE. -/
structure Walk where
  visited : List Nat
  seen : List Byte
  leaves : Nat
  code : Vector Code 256
  deriving DecidableEq, Repr

/-- CODE with every entry LEN = 0 (`42_code_table.md` R130, R136). -/
def clearedCode : Vector Code 256 := Vector.replicate 256 []

/-- The start of the walk (`42_code_table.md` R130). -/
def Walk.start : Walk := { visited := [], seen := [], leaves := 0, code := clearedCode }

/-- A reached leaf (`42_code_table.md` R131, R133): its symbol must be new, and its code is the path, or "0" at the root. -/
def Walk.leaf (n : Nat) (sym : Byte) (path : Bits) (k : Walk) : Except Nat Walk :=
  if sym ∈ k.seen then .error n
  else
    .ok
      { visited := n :: k.visited
        seen := sym :: k.seen
        leaves := k.leaves + 1
        code := k.code.set sym.toNat (if path = [] then [false] else path) sym.isLt }

/-- `walk(n, path)` (`42_code_table.md` R131). `room` is 256 - len(path): with no room left the path is longer than 255, and
then all three tests at the head of the walk, whichever fires, fail with n. `.error p` is `fail(p)`. -/
def walkTree (node : Vector Node 511) (nodeCount : Nat) : Nat → Nat → Bits → Walk → Except Nat Walk
  | 0, n, _, _ => .error n
  | room + 1, n, path, k =>
    if n ≥ nodeCount then .error n
    else if n ∈ k.visited then .error n
    else
      let x := nodeAt node n
      if x.internal then
        match walkTree node nodeCount room x.left.toNat (path ++ [false]) { k with visited := n :: k.visited } with
        | .error p => .error p
        | .ok k' => walkTree node nodeCount room x.right.toNat (path ++ [true]) k'
      else k.leaf n x.sym path

/-- The whole walk of CGEN (`42_code_table.md` R130): `.error p` is BAD_TREE(p). -/
def deriveCodes (node : Vector Node 511) (nodeCount : BitVec 10) (root : BitVec 9) : Except Nat Walk :=
  if nodeCount.toNat > 511 then .error nodeCount.toNat
  else walkTree node nodeCount.toNat 256 root.toNat [] Walk.start

/-- The body of CGEN (`42_code_table.md` R130), or its error completion (R136). -/
def generateCodes (s : State) : Except State State :=
  match deriveCodes s.node s.nodeCount s.root with
  | .ok k => .ok (State.setValid true true { s with code := k.code, symCount := BitVec.ofNat 9 k.leaves })
  | .error p => .error (State.raise .badTree p (State.setValid false false { s with code := clearedCode }))

/-- CGEN: derive the code table from the tree and validate the tree (`42_code_table.md` R130). -/
def runCgen (s : State) : State :=
  match generateCodes s with
  | .ok s' => s'.finish 0 0
  | .error s' => s'

/-- CGEN (`42_code_table.md` R130). -/
def execCgen (s : State) : Host.Outcome State Fault Refusal := .next (runCgen s)

end Sys2Proof.Machine
end

