-- ==== Sys2Proof/Machine/Frequency.lean ====
section
/-! DEFINITION. The frequency counter: FCLR (`40_frequency.md` R110) and FCNT (R111). -/

namespace Sys2Proof.Machine

/-- FREQ with every entry 0 (`40_frequency.md` R110). -/
def clearedFreq : Vector Word 256 := Vector.replicate 256 0

/-- The counting loop of `40_frequency.md` R111 from source index i on: the counted table, or the index at which a counter
would pass 2^32 - 1 with the table of the bytes before it. -/
def countBytes : List Byte → Nat → Vector Word 256 → Except (Nat × Vector Word 256) (Vector Word 256)
  | [], _, f => .ok f
  | b :: bs, i, f =>
    if freqAt f b = 0xFFFFFFFF#32 then .error (i, f)
    else countBytes bs (i + 1) (f.set b.toNat (freqAt f b + 1) b.isLt)

/-- FCLR: clear the frequency table (`40_frequency.md` R110). -/
def clearFreq (s : State) : State := { s with freq := clearedFreq }

/-- FCLR (`40_frequency.md` R110). -/
def execFclr (s : State) : Host.Outcome State Fault Refusal := .next ((clearFreq s).finish 0 0)

/-- FCNT's effect on FREQ (`40_frequency.md` R111), or its error completion. -/
def countSource (o : Latched) (s : State) : Except State State :=
  match countBytes (s.source o o.srcBytes) 0 s.freq with
  | .ok f => .ok { s with freq := f }
  | .error (i, f) => .error (State.raise .freqOvf i { s with freq := f })

/-- FCNT: count the bytes of the source region into FREQ (`40_frequency.md` R111). -/
def runFcnt (o : Latched) (s : State) : State :=
  match badSrcRegion s.dmemSize o o.srcBytes with
  | some p => s.raise .badRegion p
  | none =>
    match countSource o s with
    | .ok s' => s'.finish 0 0
    | .error s' => s'

/-- FCNT (`40_frequency.md` R111). -/
def execFcnt (s : State) : Host.Outcome State Fault Refusal := .next (runFcnt s.operands s)

end Sys2Proof.Machine
end

