-- ==== Sys2Proof/Machine/Tree.lean ====
section
/-! DEFINITION. The tree builder: BUILD (`41_tree_builder.md` R120 to R123). -/

namespace Sys2Proof.Machine

/-- `Leaf(s, f)` (`10_state.md` R42). -/
def Node.leaf (s : Byte) (f : Word) : Node := { left := 0, right := 0, sym := s, internal := false, freq := f }

/-- `Internal(f, l, r)` (`10_state.md` R42). -/
def Node.inner (f : Word) (l r : Nat) : Node :=
  { left := BitVec.ofNat 9 l, right := BitVec.ofNat 9 r, sym := 0, internal := true, freq := f }

/-- The present symbols with their frequencies, in ascending order (`41_tree_builder.md` R120). -/
def present (f : Vector Word 256) : List (Byte × Word) :=
  (f.toList.zipIdx.filter (fun p => p.1 ≠ 0)).map (fun p => (BitVec.ofNat 8 p.2, p.1))

/-- The symbol at which the running total first exceeds 2^32 - 1 (`41_tree_builder.md` R120). -/
def sumOverflow : List (Byte × Word) → Nat → Option Byte
  | [], _ => none
  | (s, f) :: rest, acc =>
    if acc + f.toNat > 0xFFFFFFFF then some s else sumOverflow rest (acc + f.toNat)

/-- The frequency of entry q of the working arena (`41_tree_builder.md` R121). -/
def arenaFreq (arena : List Node) (q : Nat) : Nat :=
  match arena[q]? with
  | some n => n.freq.toNat
  | none => 0

/-- `key(p) < key(q)`: frequency first, then node index (`41_tree_builder.md` R121, R122). -/
def keyLess (arena : List Node) (p q : Nat) : Bool :=
  arenaFreq arena p < arenaFreq arena q || (arenaFreq arena p == arenaFreq arena q && p < q)

/-- The element with the least key among q and the list (`41_tree_builder.md` R121). -/
def leastKey (arena : List Node) : Nat → List Nat → Nat
  | q, [] => q
  | q, r :: rest => leastKey arena (if keyLess arena r q then r else q) rest

/-- Extract the element with the least key (`41_tree_builder.md` R121). -/
def extractLeast (arena : List Node) : List Nat → Option (Nat × List Nat)
  | [] => none
  | q :: rest =>
    let x := leastKey arena q rest
    some (x, (q :: rest).erase x)

/-- The merge loop of `41_tree_builder.md` R121. Each turn leaves the collection one smaller, so a collection of n + 1
takes n turns. It ends with the arena and the collection. -/
def mergeLoop : Nat → List Node → List Nat → List Node × List Nat
  | 0, arena, q => (arena, q)
  | n + 1, arena, q =>
    match extractLeast arena q with
    | none => (arena, q)
    | some (x, q1) =>
      match extractLeast arena q1 with
      | none => (arena, q)
      | some (y, q2) =>
        let f := BitVec.ofNat 32 (arenaFreq arena x + arenaFreq arena y)
        mergeLoop n (arena ++ [Node.inner f x y]) (q2 ++ [arena.length])

/-- `merge(present)` (`41_tree_builder.md` R121): the arena and the root. The leaves take indices 0..k-1. -/
def merge (ps : List (Byte × Word)) : List Node × Nat :=
  let leaves := ps.map (fun p => Node.leaf p.1 p.2)
  let (arena, q) := mergeLoop (ps.length - 1) leaves (List.range ps.length)
  (arena, q.headD 0)

/-- The tree BUILD writes for the present symbols (`41_tree_builder.md` R120, after both checks have passed). -/
def writeTree (ps : List (Byte × Word)) (s : State) : State :=
  let (arena, root) := merge ps
  State.setValid true false
    { s with
      node := overlay arena s.node
      nodeCount := BitVec.ofNat 10 arena.length
      root := BitVec.ofNat 9 root
      symCount := BitVec.ofNat 9 ps.length }

/-- The body of BUILD (`41_tree_builder.md` R120), or its error completion. -/
def buildTree (s : State) : Except State State :=
  let ps := present s.freq
  if ps.isEmpty then .error (s.raise .emptyTable 0)
  else
    match sumOverflow ps 0 with
    | some sym => .error (s.raise .sumOvf sym.toNat)
    | none => .ok (writeTree ps s)

/-- BUILD: build the Huffman tree from FREQ (`41_tree_builder.md` R120). -/
def runBuild (s : State) : State :=
  match buildTree s with
  | .ok s' => s'.finish 0 0
  | .error s' => s'

/-- BUILD (`41_tree_builder.md` R120). -/
def execBuild (s : State) : Host.Outcome State Fault Refusal := .next (runBuild s)

end Sys2Proof.Machine
end

