-- ==== Sys2Proof/Machine/Encoder.lean ====
section
/-! DEFINITION. The encoder: ENC (`44_encoder.md` R151) and the whole compress pipeline COMP (R152). -/

namespace Sys2Proof.Machine

/-- The logical bit sequence of the bytes from source index i on (`44_encoder.md` R151): `.error i` is NO_CODE(i). -/
def encodeBytes (code : Vector Code 256) : List Byte → Nat → Except Nat Bits
  | [], _ => .ok []
  | b :: bs, i =>
    if (codeAt code b).length = 0 then .error i
    else
      match encodeBytes code bs (i + 1) with
      | .ok rest => .ok (codeAt code b ++ rest)
      | .error j => .error j

/-- Encode the source with the current table, pack and deliver (the tail of ENC and COMP, `44_encoder.md` R151, R152). -/
def encodeSource (o : Latched) (s : State) : State :=
  match encodeBytes s.code (s.source o o.srcBytes) 0 with
  | .error i => s.raiseData o .noCode i
  | .ok bits => s.deliver o (packBits bits o.padMode) bits.length

/-- ENC: encode the source bytes with the current code table (`44_encoder.md` R151). -/
def runEnc (o : Latched) (s : State) : State :=
  match badRegion s.dmemSize o o.srcBytes with
  | some p => s.raise .badRegion p
  | none =>
    if o.srcBytes = 0 then
      if o.emptyPol then s.raise .emptyInput 0 else s.deliver o (packBits [] o.padMode) 0
    else if !s.status.ctValid then s.raise .noTable 0
    else encodeSource o s

/-- ENC (`44_encoder.md` R151). -/
def execEnc (s : State) : Host.Outcome State Fault Refusal := .next (runEnc s.operands s)

/-- The state COMP's empty path leaves before it packs (`44_encoder.md` R152). -/
def clearForEmpty (s : State) : State :=
  State.setValid false false { s with freq := clearedFreq, code := clearedCode, symCount := 0 }

/-- The counting, tree and code-table stages of COMP (`44_encoder.md` R152), in order; an error of a stage ends the command
with that error (log 9: R152 derives that none arises). -/
def compStages (o : Latched) (s : State) : Except State State :=
  match countSource o (clearFreq s) with
  | .error e => .error e
  | .ok s1 =>
    match buildTree s1 with
    | .error e => .error e
    | .ok s2 => generateCodes s2

/-- COMP: the whole compress pipeline (`44_encoder.md` R152). -/
def runComp (o : Latched) (s : State) : State :=
  match badRegion s.dmemSize o o.srcBytes with
  | some p => s.raise .badRegion p
  | none =>
    if o.srcBytes = 0 then
      if o.emptyPol then s.raise .emptyInput 0
      else (clearForEmpty s).deliver o (packBits [] o.padMode) 0
    else
      match compStages o s with
      | .error s' => s'
      | .ok s' => encodeSource o s'

/-- COMP (`44_encoder.md` R152). -/
def execComp (s : State) : Host.Outcome State Fault Refusal := .next (runComp s.operands s)

end Sys2Proof.Machine
end

