-- ==== Sys2Proof/Machine/Dispatch.lean ====
section
/-! DEFINITION. One arm per command: the completion step of the command (`20_memory.md` R71). -/

namespace Sys2Proof.Machine

def exec (i : Instr) (s : State) : Host.Outcome State Fault Refusal :=
  match i with
  | .fclr => Sys2Proof.Machine.execFclr s
  | .fcnt => Sys2Proof.Machine.execFcnt s
  | .build => Sys2Proof.Machine.execBuild s
  | .cgen => Sys2Proof.Machine.execCgen s
  | .enc => Sys2Proof.Machine.execEnc s
  | .dec => Sys2Proof.Machine.execDec s
  | .pack => Sys2Proof.Machine.execPack s
  | .unpk => Sys2Proof.Machine.execUnpk s
  | .comp => Sys2Proof.Machine.execComp s

end Sys2Proof.Machine
end

