-- ==== Sys2Proof/Machine/Reset.lean ====
section
/-! DEFINITION. Hard reset (`70_reset_and_hazards.md` R190, R191), soft reset (R192), and the write set of an abandoned
command (`30_encoding.md` R91, R193). -/

namespace Sys2Proof.Machine

/-- The memories a command may write (`30_encoding.md` R91, the "may write" column, restricted to memories as R193 says). -/
structure WriteSet where
  freq : Bool
  node : Bool
  code : Bool
  dst : Bool
  deriving DecidableEq, Repr

/-- The write set of each command (`30_encoding.md` R91). -/
def writeSet : Instr → WriteSet
  | .fclr => { freq := true, node := false, code := false, dst := false }
  | .fcnt => { freq := true, node := false, code := false, dst := false }
  | .build => { freq := false, node := true, code := false, dst := false }
  | .cgen => { freq := false, node := false, code := true, dst := false }
  | .enc => { freq := false, node := false, code := false, dst := true }
  | .dec => { freq := false, node := false, code := false, dst := true }
  | .pack => { freq := false, node := false, code := false, dst := true }
  | .unpk => { freq := false, node := false, code := false, dst := true }
  | .comp => { freq := true, node := true, code := true, dst := true }

/-- The write set of a latched command word; it is empty for BAD_CMD (`70_reset_and_hazards.md` R193). -/
def wordWriteSet (w : Word) : WriteSet :=
  match decode w with
  | .cmd i => writeSet i
  | .badCmd _ => { freq := false, node := false, code := false, dst := false }

/-- Every word and byte of the write set holds a draw (`70_reset_and_hazards.md` R193). -/
def State.drawWriteSet (ws : WriteSet) (o : Latched) (s : State) : State :=
  { s with
    freq := if ws.freq then drawnFreq s.draws else s.freq
    node := if ws.node then drawnNode s.draws else s.node
    code := if ws.code then drawnCode s.draws else s.code
    dmem := if ws.dst then (s.drawDst o).dmem else s.dmem
    draws := s.draws + 1 }

/-- Every register at its reset value and the engine IDLE (`70_reset_and_hazards.md` R190). The memories are kept. -/
def State.resetRegisters (s : State) : State :=
  { s with
    ctrl := Ctrl.reset
    status := Status.reset
    srcAddr := 0
    srcLen := 0
    dstAddr := 0
    dstCap := 0
    resLen := 0
    resBits := 0
    errPos := 0
    nodeCount := 0
    root := 0
    symCount := 0
    ctSel := 0
    engine := Option.none }

/-- A running command is abandoned, leaving its write set unspecified (`70_reset_and_hazards.md` R192, R193). -/
def State.abandon (s : State) : State :=
  match s.engine with
  | some l => s.drawWriteSet (wordWriteSet l.word) l
  | Option.none => s

/-- Soft reset (`70_reset_and_hazards.md` R192). -/
def State.softReset (s : State) : State := s.abandon.resetRegisters

/-- Every word of FREQ, NODE and CODE and every byte of DMEM holds a draw (`70_reset_and_hazards.md` R191). -/
def State.drawMemories (s : State) : State :=
  { s with
    freq := drawnFreq s.draws
    node := drawnNode s.draws
    code := drawnCode s.draws
    dmem := Memory.drawBytes [] s.draws 0 s.dmemSize
    draws := s.draws + 1 }

/-- The state of the "after hard reset" column (`70_reset_and_hazards.md` R190, R191). -/
def State.hardReset (s : State) : State := { s.drawMemories.resetRegisters with prdata := 0 }

/-- The level of `rst_n` changes (`70_reset_and_hazards.md` R191). Assertion abandons any command and holds the machine in
reset; release leaves the state after hard reset, its memories drawn (log 4). -/
def State.setRstn (level : Bool) (s : State) : State :=
  if level then
    if s.inReset then { s.hardReset with inReset := false } else s
  else { s.hardReset with inReset := true }

end Sys2Proof.Machine
end

