-- ==== Sys2Proof/Machine/Bus.lean ====
section
/-! DEFINITION. The host's transactions: address decode (`20_memory.md` R61), locking (R72), access widths (R64), reads
(R77) and writes with the side effects of the register's access code (`10_state.md` R25 to R41). -/

namespace Sys2Proof.Machine

/-! ### Address decode (`20_memory.md` R61) -/

/-- The register at word index n of the register block (`10_state.md` R22 to R38). -/
def Reg.ofIndex (n : Nat) : Option Reg :=
  match n with
  | 0 => some .id
  | 1 => some .version
  | 2 => some .dmemsz
  | 3 => some .ctrl
  | 4 => some .status
  | 5 => some .cmd
  | 6 => some .srcAddr
  | 7 => some .srcLen
  | 8 => some .dstAddr
  | 9 => some .dstCap
  | 10 => some .resLen
  | 11 => some .resBits
  | 12 => some .errPos
  | 13 => some .nodeCount
  | 14 => some .root
  | 15 => some .symCount
  | 16 => some .ctSel
  | 17 => some .ctLen
  | 18 => some (.ctBits 0)
  | 19 => some (.ctBits 1)
  | 20 => some (.ctBits 2)
  | 21 => some (.ctBits 3)
  | 22 => some (.ctBits 4)
  | 23 => some (.ctBits 5)
  | 24 => some (.ctBits 6)
  | 25 => some (.ctBits 7)
  | _ => none

/-- The window offset of a register (`10_state.md` R22 to R38). -/
def Reg.off : Reg → Nat
  | .id => 0x000
  | .version => 0x004
  | .dmemsz => 0x008
  | .ctrl => 0x00C
  | .status => 0x010
  | .cmd => 0x014
  | .srcAddr => 0x018
  | .srcLen => 0x01C
  | .dstAddr => 0x020
  | .dstCap => 0x024
  | .resLen => 0x028
  | .resBits => 0x02C
  | .errPos => 0x030
  | .nodeCount => 0x034
  | .root => 0x038
  | .symCount => 0x03C
  | .ctSel => 0x040
  | .ctLen => 0x044
  | .ctBits w => 0x048 + 4 * w.val

/-- The window offset of a location (`20_memory.md` R61, `30_encoding.md` R84). -/
def Loc.off : Loc → Nat
  | .reg r => r.off
  | .freq s => 0x400 + 4 * s.val
  | .nodeCtl i => 0x800 + 8 * i.val
  | .nodeFreq i => 0x804 + 8 * i.val

/-- The word offset a byte address selects: `a & 0x1FFFC` (`20_memory.md` R61). -/
def wordOffset (a : BitVec 17) : Nat := (a &&& 0x1FFFC#17).toNat

/-- What a word offset selects, with DMEM_SIZE = size (`20_memory.md` R61, R63). -/
def targetAt (size off : Nat) : Target :=
  if off < 0x400 then
    match Reg.ofIndex (off / 4) with
    | some r => .loc (.reg r)
    | none => .reserved
  else if h : off < 0x800 then .loc (.freq ⟨(off - 0x400) / 4, by omega⟩)
  else if h : off < 0x17F8 then
    if (off - 0x800) % 8 = 0 then .loc (.nodeCtl ⟨(off - 0x800) / 8, by omega⟩)
    else .loc (.nodeFreq ⟨(off - 0x800) / 8, by omega⟩)
  else if off < 0x10000 then .reserved
  else if off < 0x10000 + size then .dmem (off - 0x10000)
  else .reserved

/-- The target of a transaction at a byte address of the window (`20_memory.md` R61). -/
def State.target (a : BitVec 17) (s : State) : Target := targetAt s.dmemSize (wordOffset a)

/-! ### Locking (`20_memory.md` R72) -/

/-- The locked registers are NODE_COUNT, ROOT, CT_LEN and CT_BITS (`20_memory.md` R72). -/
def Reg.locked : Reg → Bool
  | .nodeCount => true
  | .root => true
  | .ctLen => true
  | .ctBits _ => true
  | .id => false
  | .version => false
  | .dmemsz => false
  | .ctrl => false
  | .status => false
  | .cmd => false
  | .srcAddr => false
  | .srcLen => false
  | .dstAddr => false
  | .dstCap => false
  | .resLen => false
  | .resBits => false
  | .errPos => false
  | .symCount => false
  | .ctSel => false

/-- Whether a location is locked while a command runs (`20_memory.md` R72). -/
def Loc.locked : Loc → Bool
  | .reg r => r.locked
  | .freq _ => true
  | .nodeCtl _ => true
  | .nodeFreq _ => true

/-- Whether a target is locked while a command runs (`20_memory.md` R72). -/
def Target.locked : Target → Bool
  | .loc l => l.locked
  | .dmem _ => true
  | .reserved => false

/-! ### Reads (`20_memory.md` R64, R65, R77) -/

/-- The word a register reads as (`10_state.md` R22 to R38). -/
def readReg (r : Reg) (s : State) : Word :=
  match r with
  | .id => Config.idValue
  | .version => Config.versionValue
  | .dmemsz => BitVec.ofNat 32 s.dmemSize
  | .ctrl => s.ctrl.toWord
  | .status => s.statusReg
  | .cmd => 0
  | .srcAddr => s.srcAddr
  | .srcLen => s.srcLen
  | .dstAddr => s.dstAddr
  | .dstCap => s.dstCap
  | .resLen => s.resLen
  | .resBits => s.resBits
  | .errPos => s.errPos
  | .nodeCount => BitVec.setWidth 32 s.nodeCount
  | .root => BitVec.setWidth 32 s.root
  | .symCount => BitVec.setWidth 32 s.symCount
  | .ctSel => BitVec.setWidth 32 s.ctSel
  | .ctLen => ctLenWord (codeAt s.code s.ctSel)
  | .ctBits w => ctBitsWord (codeAt s.code s.ctSel) w.val

/-- The word a location reads as (`10_state.md` R40, R41). -/
def readLoc (l : Loc) (s : State) : Word :=
  match l with
  | .reg r => readReg r s
  | .freq i => s.freq[i]
  | .nodeCtl i => s.node[i].ctl
  | .nodeFreq i => s.node[i].freq

/-- The DMEM word at offsets a .. a + 3, byte a in lane 0 (`20_memory.md` R65). -/
def Memory.readWord (m : Memory) (a : Nat) : Word :=
  wordOfLanes (m.read a) (m.read (a + 1)) (m.read (a + 2)) (m.read (a + 3))

/-- The word an unlocked target reads as; a reserved offset reads 0 (`20_memory.md` R63). -/
def readTarget (t : Target) (s : State) : Word :=
  match t with
  | .loc l => readLoc l s
  | .dmem a => s.dmem.readWord a
  | .reserved => 0

/-- A host read (`20_memory.md` R60, R72, R77): a locked target reads 0 and sets ACCERR, and nothing else has a side effect. -/
def State.hostRead (a : BitVec 17) (s : State) : State :=
  let t := s.target a
  if s.busy && t.locked then { s.accessError with prdata := 0 }
  else { s with prdata := readTarget t s }

/-! ### Writes (`20_memory.md` R64, R72, R73) -/

/-- A CTRL write with all strobes: soft reset if bit 31 is set (`70_reset_and_hazards.md` R192), else the stored bits
(`10_state.md` R25). -/
def State.writeCtrl (d : Word) (s : State) : State :=
  if d.getLsbD 31 then s.softReset else { s with ctrl := Ctrl.ofWord d }

/-- A CMD write with all strobes: accepted when idle (`20_memory.md` R70), dropped with CMDOVR when busy (R73). -/
def State.writeCmd (d : Word) (s : State) : State :=
  if s.busy then s.commandOverrun else s.accept d

/-- An accepted write to a register (`10_state.md` R22 to R38): a read-only register ignores it. -/
def writeReg (r : Reg) (d : Word) (s : State) : State :=
  match r with
  | .id => s
  | .version => s
  | .dmemsz => s
  | .ctrl => s.writeCtrl d
  | .status => s.ackStatus d
  | .cmd => s.writeCmd d
  | .srcAddr => { s with srcAddr := d }
  | .srcLen => { s with srcLen := d }
  | .dstAddr => { s with dstAddr := d }
  | .dstCap => { s with dstCap := d }
  | .resLen => s
  | .resBits => s
  | .errPos => s
  | .nodeCount => State.setValid false false { s with nodeCount := d.extractLsb' 0 10 }
  | .root => State.setValid false false { s with root := d.extractLsb' 0 9 }
  | .symCount => s
  | .ctSel => { s with ctSel := d.extractLsb' 0 8 }
  | .ctLen => s
  | .ctBits _ => s

/-- An accepted write to a location (`10_state.md` R40, R41): a NODE write clears both validity bits (R27). -/
def writeLoc (l : Loc) (d : Word) (s : State) : State :=
  match l with
  | .reg r => writeReg r d s
  | .freq i => { s with freq := s.freq.set i d }
  | .nodeCtl i => State.setValid false false { s with node := s.node.set i (Node.ofWords d s.node[i].freq) }
  | .nodeFreq i => State.setValid false false { s with node := s.node.set i { s.node[i] with freq := d } }

/-- The byte lanes whose strobe is 1 are stored (`20_memory.md` R64, R65). -/
def Memory.writeLanes (m : Memory) (a : Nat) (strb : BitVec 4) (d : Word) : Memory :=
  (List.range 4).foldl (fun m i => if strb.getLsbD i then m.write (a + i) (laneOf d i) else m) m

/-- A host write to DMEM: while busy it is dropped and sets ACCERR, whatever its strobes (`20_memory.md` R72,
`70_reset_and_hazards.md` R195). DEDUCED for a write with no strobe, where R64 reads otherwise (log 5). While idle it stores
the strobed lanes (`20_memory.md` R64), and with no strobe nothing. -/
def State.writeDmem (a : Nat) (strb : BitVec 4) (d : Word) (s : State) : State :=
  if s.busy then s.accessError
  else { s with dmem := s.dmem.writeLanes a strb d }

/-- A host write (`20_memory.md` R63, R64, R72, R73). -/
def State.hostWrite (a : BitVec 17) (strb : BitVec 4) (d : Word) (s : State) : State :=
  match s.target a with
  | .reserved => s
  | .dmem w => s.writeDmem w strb d
  | .loc l =>
    if strb ≠ 0xF#4 then s.accessError
    else if s.busy && l.locked then s.accessError
    else writeLoc l d s

/-! ### One event from outside (`20_memory.md` R74) -/

/-- A transaction while `rst_n` is low: a read returns 0 and a write has no effect (`70_reset_and_hazards.md` R191). -/
def State.ignoredInput (e : Input) (s : State) : State :=
  match e with
  | .read _ => { s with prdata := 0 }
  | .write _ _ _ => s
  | .engine => s
  | .rstn level => s.setRstn level

/-- What an event from outside does. An engine edge with no command running does nothing. -/
def State.applyInput (e : Input) (s : State) : State :=
  if s.inReset then s.ignoredInput e
  else
    match e with
    | .read a => s.hostRead a
    | .write a strb d => s.hostWrite a strb d
    | .engine => s
    | .rstn level => s.setRstn level

/-- What the next event does when it is not the completion of a command; with no event left nothing happens (log 11). -/
def State.nextEvent (s : State) : State :=
  match s.inputs with
  | [] => s
  | e :: rest => { s with inputs := rest }.applyInput e

end Sys2Proof.Machine
end

