-- ==== Sys2Proof/Machine/Schedule.lean ====
section
/-! DEFINITION. Which agent moves (`00_scope.md` R12, `70_reset_and_hazards.md` R200), the completion of a word that names no
command (`60_exceptions.md` R175), and how a command is put in front of the engine. -/

namespace Sys2Proof.Machine

/-- The next event is the engine's edge, or there is no event left: a busy engine then completes (weak fairness, R200). -/
def engineTurn : List Input → Bool
  | [] => true
  | .engine :: _ => true
  | .read _ :: _ => false
  | .write _ _ _ :: _ => false
  | .rstn _ :: _ => false

/-- The command word whose completion is the next event, if it is (`20_memory.md` R71, log 1). -/
def State.dueCommand (s : State) : Option Word :=
  if !s.inReset && engineTurn s.inputs then s.engine.map Latched.word else none

/-- The state with the event that is being taken removed from the list of what is to come. -/
def State.popInput (s : State) : State := { s with inputs := s.inputs.tail }

/-- BAD_CMD: the verdict for a word that names no command, with ERR_POS the whole word (`60_exceptions.md` R175). -/
def badCommand (w : Word) (s : State) : State := s.raise .badCmd w.toNat

/-- A command word accepted by an engine that is out of reset, with its completion the next event (log 11). -/
def State.issue (w : Word) (s : State) : State :=
  State.accept w { s with inReset := false, inputs := .engine :: s.inputs }

end Sys2Proof.Machine
end

