-- ==== Sys2Proof/Machine/Step.lean ====
section
/-! DEFINITION. One step of HCB: the completion of the running command, or one event from outside (`20_memory.md` R74). -/

namespace Sys2Proof.Machine

/-- One event in the total order of host transactions, acceptances and completions (`20_memory.md` R74). A completion runs
the latched command (R71): a word that names no command ends in BAD_CMD (`30_encoding.md` R81). -/
def step (s : State) : Host.Outcome State Fault Refusal :=
  match s.dueCommand with
  | some w =>
    match decode w with
    | .cmd i => exec i s.popInput
    | .badCmd _ => .next (badCommand w s.popInput)
  | none => .next s.nextEvent

/-- The state with the command word given by its low `nbits` bits accepted, so that the next step completes it (log 11). -/
def State.withFetchWord (s : State) (nbits w : Nat) : State := s.issue (tableWord nbits w)

end Sys2Proof.Machine
end

