-- ==== Sys2Proof/Machine/Assembly.lean ====
section
/-! DEFINITION. The host notation of `30_encoding.md` R94 to R97: statements and their expansion into transactions at platform
addresses, and how the platform hands a transaction to the window (R84). -/

namespace Sys2Proof.Machine

/-- A bus transaction at a platform address (`30_encoding.md` R94). -/
inductive BusTxn where
  | read (addr : Nat)
  | write (addr : Nat) (strb : BitVec 4) (data : Word)
  deriving DecidableEq, Repr

/-- A statement of the host notation (`30_encoding.md` R94, R96). `wait n` is the poll that reads BUSY = 1 n times and then
BUSY = 0: how often it repeats is the host's run, not HCB's (log 15). -/
inductive Stmt where
  | wr (l : Loc) (imm : Word)
  | rd (l : Loc)
  | wrm (a : Nat) (imm : Word) (strb : BitVec 4)
  | rdm (a : Nat)
  | cmd (i : Instr)
  | wait (n : Nat)
  | run (i : Instr) (n : Nat)
  | ack
  | bytes (a : Nat) (bs : List Byte)
  | wrLeaf (i : Fin 511) (s : Byte) (f : Word)
  | wrInner (i : Fin 511) (f : Word) (l r : BitVec 9)
  deriving DecidableEq, Repr

/-- `wrm` and `rdm` take a DMEM offset that is a multiple of 4 (`30_encoding.md` R94). -/
def Stmt.wf : Stmt → Bool
  | .wrm a _ _ => a % 4 == 0
  | .rdm a => a % 4 == 0
  | .wr _ _ => true
  | .rd _ => true
  | .cmd _ => true
  | .wait _ => true
  | .run _ _ => true
  | .ack => true
  | .bytes _ _ => true
  | .wrLeaf _ _ _ => true
  | .wrInner _ _ _ _ => true

/-- `wr REG, imm` (`30_encoding.md` R94). -/
def wrTxn (base : Nat) (l : Loc) (imm : Word) : BusTxn := .write (base + l.off) 0xF imm

/-- `rd REG` (`30_encoding.md` R94). -/
def rdTxn (base : Nat) (l : Loc) : BusTxn := .read (base + l.off)

/-- Whether DMEM offset x lies in [a, a + n). -/
def inBytes (a n x : Nat) : Bool := a ≤ x && x < a + n

/-- The byte that `bytes a, bs` puts at DMEM offset x, 0 outside (`30_encoding.md` R96). -/
def byteFor (a : Nat) (bs : List Byte) (x : Nat) : Byte := if inBytes a bs.length x then bs.getD (x - a) 0 else 0

/-- One `wrm` of `bytes` at aligned offset w (`30_encoding.md` R96). -/
def bytesTxn (base a : Nat) (bs : List Byte) (w : Nat) : BusTxn :=
  .write (base + 0x10000 + w)
    (BitVec.ofBool (inBytes a bs.length (w + 3)) ++ BitVec.ofBool (inBytes a bs.length (w + 2)) ++
      BitVec.ofBool (inBytes a bs.length (w + 1)) ++ BitVec.ofBool (inBytes a bs.length w))
    (wordOfLanes (byteFor a bs w) (byteFor a bs (w + 1)) (byteFor a bs (w + 2)) (byteFor a bs (w + 3)))

/-- The aligned word offsets touched by [a, a + n), rising (`30_encoding.md` R96). -/
def touchedWords (a n : Nat) : List Nat :=
  if n = 0 then [] else (List.range ((a + n - 1) / 4 - a / 4 + 1)).map (fun j => 4 * (a / 4 + j))

/-- `cmd M` (`30_encoding.md` R96). -/
def cmdTxn (base : Nat) (i : Instr) : BusTxn := wrTxn base (.reg .cmd) (encode i)

/-- `wait`, reading BUSY = 1 n times and then BUSY = 0 (`30_encoding.md` R96, log 15). -/
def waitTxns (base n : Nat) : List BusTxn := List.replicate (n + 1) (rdTxn base (.reg .status))

/-- The transactions of a statement, in order (`30_encoding.md` R94, R96). -/
def Stmt.expand (base : Nat) : Stmt → List BusTxn
  | .wr l imm => [wrTxn base l imm]
  | .rd l => [rdTxn base l]
  | .wrm a imm strb => [.write (base + 0x10000 + a) strb imm]
  | .rdm a => [.read (base + 0x10000 + a)]
  | .cmd i => [cmdTxn base i]
  | .wait n => waitTxns base n
  | .run i n => cmdTxn base i :: waitTxns base n
  | .ack => [wrTxn base (.reg .status) 0x03000006]
  | .bytes a bs => (touchedWords a bs.length).map (bytesTxn base a bs)
  | .wrLeaf i s f =>
    [wrTxn base (.nodeCtl i) (BitVec.setWidth 32 s <<< 18), wrTxn base (.nodeFreq i) f]
  | .wrInner i f l r =>
    [wrTxn base (.nodeCtl i) (0x80000000 ||| (BitVec.setWidth 32 r <<< 9) ||| BitVec.setWidth 32 l), wrTxn base (.nodeFreq i) f]

/-- The encoding of a program: its transactions in order (`30_encoding.md` R97). -/
def expandAll (base : Nat) (p : List Stmt) : List BusTxn := p.flatMap (Stmt.expand base)

/-- The port event of a platform transaction, if its address lies in the 128 KiB window at HCB_BASE = base
(`30_encoding.md` R84, `20_memory.md` R79). -/
def BusTxn.toInput (base : Nat) (t : BusTxn) : Option Input :=
  match t with
  | .read a => if base ≤ a ∧ a < base + 0x20000 then some (.read (BitVec.ofNat 17 (a - base))) else none
  | .write a strb d =>
    if base ≤ a ∧ a < base + 0x20000 then some (.write (BitVec.ofNat 17 (a - base)) strb d) else none

end Sys2Proof.Machine
end

