-- ==== Sys2Proof/Safety.lean ====
section
/-! DEFINITION. What counts as a safe run of HCB and the terms claims are stated in: how a command completes, what it keeps,
the invariants of the state, and a tree's validity said without the walk that checks it. -/

namespace Sys2Proof.Machine

/-! ### Completion (`60_exceptions.md` R171, R172) -/

/-- The completion fields after `finish()` (`60_exceptions.md` R171). -/
structure CompletedOk (t : State) (resLen resBits : Nat) : Prop where
  busy : t.engine = Option.none
  done : t.status.done = true
  err : t.status.err = false
  errcode : t.status.errcode = ErrCode.none
  errPos : t.errPos = 0#32
  resLen : t.resLen = BitVec.ofNat 32 resLen
  resBits : t.resBits = BitVec.ofNat 32 resBits

/-- The completion fields after `raise E(p)` (`60_exceptions.md` R172). -/
structure CompletedErr (t : State) (e : ErrCode) (pos : Nat) : Prop where
  busy : t.engine = Option.none
  done : t.status.done = true
  err : t.status.err = true
  errcode : t.status.errcode = e
  errPos : t.errPos = BitVec.ofNat 32 pos
  resLen : t.resLen = 0#32
  resBits : t.resBits = 0#32

/-! ### Frames (`30_encoding.md` R91) -/

/-- What no command changes: the parameter, CTRL, the operand registers, CT_SEL, the access flags of STATUS, the ports and
the inputs still to come (`30_encoding.md` R84, R91, `10_state.md` R44). -/
structure HostSideKept (s t : State) : Prop where
  dmemExp : t.dmemExp = s.dmemExp
  ctrl : t.ctrl = s.ctrl
  srcAddr : t.srcAddr = s.srcAddr
  srcLen : t.srcLen = s.srcLen
  dstAddr : t.dstAddr = s.dstAddr
  dstCap : t.dstCap = s.dstCap
  ctSel : t.ctSel = s.ctSel
  accErr : t.status.accErr = s.status.accErr
  cmdOvr : t.status.cmdOvr = s.status.cmdOvr
  inReset : t.inReset = s.inReset
  prdata : t.prdata = s.prdata
  inputs : t.inputs = s.inputs

/-- The tree registers, the arena, the code table and both validity bits are as before. -/
structure TreeKept (s t : State) : Prop where
  node : t.node = s.node
  nodeCount : t.nodeCount = s.nodeCount
  root : t.root = s.root
  symCount : t.symCount = s.symCount
  code : t.code = s.code
  treeValid : t.status.treeValid = s.status.treeValid
  ctValid : t.status.ctValid = s.status.ctValid

/-- Every DMEM byte reads as before. -/
def DmemKept (s t : State) : Prop := ∀ a, t.dmem.read a = s.dmem.read a

/-- Every DMEM byte outside [a, a + n) reads as before (`20_memory.md` R68). -/
def DmemKeptOutside (a n : Nat) (s t : State) : Prop := ∀ x, x < a ∨ a + n ≤ x → t.dmem.read x = s.dmem.read x

/-- The result registers of the last command are as before (`20_memory.md` R72). -/
structure ResultsKept (s t : State) : Prop where
  resLen : t.resLen = s.resLen
  resBits : t.resBits = s.resBits
  errPos : t.errPos = s.errPos

/-! ### The region rule (`20_memory.md` R67) -/

/-- The source and destination regions lie inside DMEM and do not overlap (`20_memory.md` R67). -/
structure RegionsOk (size : Nat) (o : Latched) (nSrc : Nat) : Prop where
  src : o.srcAddr.toNat + nSrc ≤ size
  dst : o.dstAddr.toNat + o.dstCap.toNat ≤ size
  apart : nSrc = 0 ∨ o.dstCap.toNat = 0 ∨ o.srcAddr.toNat + nSrc ≤ o.dstAddr.toNat ∨ o.dstAddr.toNat + o.dstCap.toNat ≤ o.srcAddr.toNat

/-! ### The tree, without the walk (`42_code_table.md` R132) -/

/-- The node reached from n along a path, 0 left and 1 right (`42_code_table.md` R131). -/
def followPath (node : Vector Node 511) : Nat → Bits → Option Nat
  | n, [] => some n
  | n, b :: bs =>
    if (nodeAt node n).internal then
      followPath node (if b then (nodeAt node n).right.toNat else (nodeAt node n).left.toNat) bs
    else none

/-- The path leads from the root to a leaf that carries the symbol. -/
def LeafPath (node : Vector Node 511) (root : Nat) (p : Bits) (b : Byte) : Prop :=
  ∃ n, followPath node root p = some n ∧ (nodeAt node n).internal = false ∧ (nodeAt node n).sym = b

/-- The five conditions of `42_code_table.md` R132. -/
structure ValidTree (node : Vector Node 511) (count root : Nat) : Prop where
  bounded : count ≤ 511
  inside : ∀ p n, followPath node root p = some n → n < count
  once : ∀ p q n, followPath node root p = some n → followPath node root q = some n → p = q
  symbols : ∀ p q b, LeafPath node root p b → LeafPath node root q b → p = q
  depth : ∀ p n, followPath node root p = some n → p.length ≤ 255

/-- The code of a leaf at the end of a path (`42_code_table.md` R131, R133). -/
def pathCode (p : Bits) : Bits := if p = [] then [false] else p

/-- The table holds the code of every reached leaf, and LEN = 0 for every other symbol (`42_code_table.md` R130, R135). -/
structure TableOfTree (node : Vector Node 511) (root : Nat) (code : Vector Code 256) : Prop where
  leaf : ∀ p b, LeafPath node root p b → codeAt code b = pathCode p
  absent : ∀ b, (∀ p, ¬ LeafPath node root p b) → codeAt code b = []

/-! ### Where the walk of a tree fails (`42_code_table.md` R131, R132) -/

/-- The walk is at path p before it is at path q: depth first in preorder, left (0) before right (1). -/
def WalkedBefore (p q : Bits) : Prop :=
  (∃ x, x ≠ [] ∧ q = p ++ x) ∨ ∃ r x y, p = r ++ false :: x ∧ q = r ++ true :: y

/-- A test of R131 fires at node n, reached along path q: the index is outside the tree, the node was reached before, the path
is too long, or n is a leaf whose symbol a leaf reached before carries. -/
def FailsAt (node : Vector Node 511) (count root : Nat) (q : Bits) (n : Nat) : Prop :=
  followPath node root q = some n ∧
    (count ≤ n ∨
      (∃ p, WalkedBefore p q ∧ followPath node root p = some n) ∨
      255 < q.length ∨
      ((nodeAt node n).internal = false ∧ ∃ p, WalkedBefore p q ∧ LeafPath node root p (nodeAt node n).sym))

/-- The first failing test in walk order fires at node n (`42_code_table.md` R132). -/
def FirstFailure (node : Vector Node 511) (count root n : Nat) : Prop :=
  ∃ q, FailsAt node count root q n ∧ ∀ p m, WalkedBefore p q → ¬ FailsAt node count root p m

/-! ### The frequency table (`41_tree_builder.md` R120) -/

/-- The total of the counts of the symbols 0 .. n - 1. -/
def freqSumBelow (f : Vector Word 256) (n : Nat) : Nat :=
  ((List.range n).map (fun j => (freqAt f (BitVec.ofNat 8 j)).toNat)).sum

/-- The total of a frequency table. -/
def freqTotal (f : Vector Word 256) : Nat := freqSumBelow f 256

/-! ### Invariants -/

/-- What every step keeps: the canonical form of DMEM and its range, the code length bound (`10_state.md` R43), the idle
engine in reset (`70_reset_and_hazards.md` R191), and the relations of the STATUS bits and result registers
(`10_state.md` R26, R27, `60_exceptions.md` R171, R172). -/
structure State.Inv (s : State) : Prop where
  dmemWf : s.dmem.wf
  dmemRange : ∀ c ∈ s.dmem, c.1 < s.dmemSize
  codeLen : ∀ b, (codeAt s.code b).length ≤ 255
  resetIdle : s.inReset = true → s.engine = Option.none
  busyClear : s.busy = true → s.status.done = false ∧ s.status.err = false ∧ s.status.errcode = ErrCode.none
  errCoded : s.status.err = true → s.status.errcode ≠ ErrCode.none
  errResults : s.status.errcode ≠ ErrCode.none → s.resLen = 0#32 ∧ s.resBits = 0#32
  okPos : s.busy = false → s.status.errcode = ErrCode.none → s.errPos = 0#32
  tableHasTree : s.status.ctValid = true → s.status.treeValid = true

/-- CT_VALID = 1 means that CODE is the table CGEN derives from the tree, and SYM_COUNT the number of its leaves
(`10_state.md` R27). -/
def State.TableSound (s : State) : Prop :=
  s.status.ctValid = true →
    ∃ k, deriveCodes s.node s.nodeCount s.root = .ok k ∧ s.code = k.code ∧ s.symCount = BitVec.ofNat 9 k.leaves

/-- TREE_VALID = 1 means that the arena, NODE_COUNT and ROOT hold a valid tree (`10_state.md` R27, `42_code_table.md` R132). -/
def State.TreeSound (s : State) : Prop :=
  s.status.treeValid = true → ValidTree s.node s.nodeCount.toNat s.root.toNat

/-- A safe step: the machine goes on. -/
def StepsOn (s : State) : Prop := ∃ t, step s = .next t

end Sys2Proof.Machine
end

