-- ==== Sys2Proof/Certificates/Slice0/Obligations.lean ====
section
/-! DEFINITION. The statements about HCB, each from the rules of spec/ its docstring names. -/

open Sys2Proof Sys2Proof.Machine

/-! ### Encoding (`30_encoding.md`) -/

/-- The nine command words of the opcode map decode to their commands (`30_encoding.md` R90). -/
def Obligations.CommandWordsDecode : Prop :=
  decode 0x00000001#32 = .cmd .fclr ∧
  decode 0x00000002#32 = .cmd .fcnt ∧
  decode 0x00000003#32 = .cmd .build ∧
  decode 0x00000004#32 = .cmd .cgen ∧
  decode 0x00000005#32 = .cmd .enc ∧
  decode 0x00000006#32 = .cmd .dec ∧
  decode 0x00000007#32 = .cmd .pack ∧
  decode 0x00000008#32 = .cmd .unpk ∧
  decode 0x00000009#32 = .cmd .comp

/-- Decoding of any 32-bit word (`30_encoding.md` R81, R92): RSV first, then the opcode map, and every other word is
BAD_CMD. So exactly the nine encoder words name a command. -/
def Obligations.EveryWordIsACommandOrBadCmd : Prop :=
  ∀ w : Word,
    (∀ i, decode w = .cmd i ↔ w = encode i) ∧
    ((∃ why, decode w = .badCmd why) ↔
      w.extractLsb' 8 24 ≠ 0#24 ∨ w.extractLsb' 0 8 = 0#8 ∨ 0x0A ≤ (w.extractLsb' 0 8).toNat)

/-- Decoding what the encoder writes gives the command back, as a word (`30_encoding.md` R80, R90) and as bytes in lane order.
That a command has a byte form at all is the model's choice (log 18): HCB has no instruction memory. -/
def Obligations.DecodeOfEncodeIsTheCommand : Prop :=
  ∀ i : Instr, decode (encode i) = .cmd i ∧ decodeTableWord 32 (encode i).toNat = some i

/-! ### A step, acceptance and BAD_CMD (`20_memory.md` section 4, `60_exceptions.md`) -/

/-- When the engine is busy and its edge is the next event (or no event is left), the step is the latched command's meaning
at the state with that event taken off the list (`20_memory.md` R71). The choice of the agent by the list of inputs is the
model's (log 1). -/
def Obligations.StepRunsTheDecodedCommand : Prop :=
  ∀ (s : State) (l : Latched) (i : Instr),
    s.inReset = false → s.engine = some l → s.inputs.head? = Option.none ∨ s.inputs.head? = some .engine →
    decode l.word = .cmd i →
    step s = exec i { s with inputs := s.inputs.tail }

/-- The step of a latched word that names no command completes with BAD_CMD and the whole word in ERR_POS, and changes
nothing else: no memory, no tree register, no validity bit (`60_exceptions.md` R175, `30_encoding.md` R92). That the
completion is this step, with the engine's edge next or no event left, is the model's choice (log 1). -/
def Obligations.BadCommandReportsTheWord : Prop :=
  ∀ (s : State) (l : Latched),
    s.inReset = false → s.engine = some l → s.inputs.head? = Option.none ∨ s.inputs.head? = some .engine →
    l.word.extractLsb' 8 24 ≠ 0#24 ∨ l.word.extractLsb' 0 8 = 0#8 ∨ 0x0A ≤ (l.word.extractLsb' 0 8).toNat →
    ∃ t, step s = .next t ∧ CompletedErr t .badCmd l.word.toNat ∧ t.errPos = l.word ∧
      HostSideKept { s with inputs := s.inputs.tail } t ∧ TreeKept s t ∧ t.freq = s.freq ∧ t.dmem = s.dmem

/-- A CMD write with all strobes: while idle it latches the word, the operand registers and the two CTRL fields, sets BUSY
and clears DONE, ERR and ERRCODE, in one step; while busy it only sets CMDOVR (`20_memory.md` R70, R73). -/
def Obligations.CmdWriteIsAcceptedOrDropped : Prop :=
  ∀ (s : State) (a : BitVec 17) (w : Word) (rest : List Input),
    s.inReset = false → s.inputs = .write a 0xF#4 w :: rest → a &&& 0x1FFFC#17 = 0x14#17 →
    (s.engine = Option.none →
      step s = .next
        { s with
          inputs := rest
          engine := some
            { word := w, srcAddr := s.srcAddr, srcLen := s.srcLen, dstAddr := s.dstAddr, dstCap := s.dstCap,
              padMode := s.ctrl.padMode, emptyPol := s.ctrl.emptyPol }
          status := { s.status with done := false, err := false, errcode := ErrCode.none } }) ∧
    (s.engine ≠ Option.none →
      step s = .next { s with inputs := rest, status := { s.status with cmdOvr := true } })

/-- Every command at every state completes in one step: BUSY is 0 and DONE is 1, and either ERR = 0 with ERRCODE NONE and
ERR_POS 0, or ERR = 1 with an error code and RES_LEN = RES_BITS = 0 (`60_exceptions.md` R171, R172, R174). No command writes
the host's side of the state (`30_encoding.md` R84, R91). -/
def Obligations.EveryCommandCompletes : Prop :=
  ∀ (i : Instr) (s : State), ∃ t, exec i s = .next t ∧ HostSideKept s t ∧
    ((∃ n b, CompletedOk t n b) ∨ (∃ e p, e ≠ ErrCode.none ∧ CompletedErr t e p))

/-! ### Host accesses (`20_memory.md`) -/

/-- The window map (`20_memory.md` R61, `10_state.md` R22 to R41): every register is found at the offset its rule gives, every
FREQ, NODE_CTL and NODE_FREQ word at its own, which are the offsets the host notation uses (`30_encoding.md` R94), every aligned
DMEM word at 0x10000 + its offset, and address bits 1:0 do not matter. -/
def Obligations.WindowMapFindsEveryLocation : Prop :=
  ∀ s : State,
    (s.target 0x00000#17 = .loc (.reg .id) ∧ s.target 0x00004#17 = .loc (.reg .version) ∧
      s.target 0x00008#17 = .loc (.reg .dmemsz) ∧ s.target 0x0000C#17 = .loc (.reg .ctrl) ∧
      s.target 0x00010#17 = .loc (.reg .status) ∧ s.target 0x00014#17 = .loc (.reg .cmd) ∧
      s.target 0x00018#17 = .loc (.reg .srcAddr) ∧ s.target 0x0001C#17 = .loc (.reg .srcLen) ∧
      s.target 0x00020#17 = .loc (.reg .dstAddr) ∧ s.target 0x00024#17 = .loc (.reg .dstCap) ∧
      s.target 0x00028#17 = .loc (.reg .resLen) ∧ s.target 0x0002C#17 = .loc (.reg .resBits) ∧
      s.target 0x00030#17 = .loc (.reg .errPos) ∧ s.target 0x00034#17 = .loc (.reg .nodeCount) ∧
      s.target 0x00038#17 = .loc (.reg .root) ∧ s.target 0x0003C#17 = .loc (.reg .symCount) ∧
      s.target 0x00040#17 = .loc (.reg .ctSel) ∧ s.target 0x00044#17 = .loc (.reg .ctLen)) ∧
    (∀ w : Fin 8, s.target (BitVec.ofNat 17 (0x048 + 4 * w.val)) = .loc (.reg (.ctBits w))) ∧
    (∀ i : Fin 256, s.target (BitVec.ofNat 17 (0x400 + 4 * i.val)) = .loc (.freq i)) ∧
    (∀ i : Fin 511, s.target (BitVec.ofNat 17 (0x800 + 8 * i.val)) = .loc (.nodeCtl i) ∧
      s.target (BitVec.ofNat 17 (0x804 + 8 * i.val)) = .loc (.nodeFreq i)) ∧
    (∀ l : Loc, s.target (BitVec.ofNat 17 l.off) = .loc l) ∧
    (∀ a, 4 * a < s.dmemSize → s.target (BitVec.ofNat 17 (0x10000 + 4 * a)) = .dmem (4 * a)) ∧
    (∀ (a : BitVec 15) (low : BitVec 2), s.target (a ++ low) = s.target (a ++ 0#2))

/-- Reserved offsets 0x068..0x3FC, 0x17F8..0xFFFF and 0x10000 + DMEM_SIZE .. 0x1FFFF: a read returns 0, a write is ignored,
and nothing else changes (`20_memory.md` R63). -/
def Obligations.ReservedOffsetsAreInert : Prop :=
  ∀ (s : State) (a : BitVec 17) (rest : List Input),
    s.inReset = false →
    (let off := (a &&& 0x1FFFC#17).toNat
     (0x68 ≤ off ∧ off < 0x400) ∨ (0x17F8 ≤ off ∧ off < 0x10000) ∨ 0x10000 + s.dmemSize ≤ off) →
    (s.inputs = .read a :: rest → step s = .next { s with inputs := rest, prdata := 0#32 }) ∧
    (∀ strb d, s.inputs = .write a strb d :: rest → step s = .next { s with inputs := rest })

/-- Host reads and locking (`20_memory.md` R72, R77). The locked targets are DMEM, FREQ, NODE, NODE_COUNT, ROOT, CT_LEN and
CT_BITS. While busy, a read of one returns 0 and sets ACCERR, and a write to one, with any strobes, is dropped and sets ACCERR
(`70_reset_and_hazards.md` R195); that a DMEM write with no strobe sets it too is the model's reading (log 5). Every other read
changes nothing but the word it returns; the registers that are not locked read their values while busy. -/
def Obligations.LockedTargetsRefuseAccess : Prop :=
  (∀ t : Target, t.locked = true ↔
    (∃ a, t = .dmem a) ∨ (∃ i, t = .loc (.freq i)) ∨ (∃ i, t = .loc (.nodeCtl i)) ∨ (∃ i, t = .loc (.nodeFreq i)) ∨
    t = .loc (.reg .nodeCount) ∨ t = .loc (.reg .root) ∨ t = .loc (.reg .ctLen) ∨ (∃ w, t = .loc (.reg (.ctBits w)))) ∧
  (∀ (s : State) (a : BitVec 17) (rest : List Input), s.inReset = false → s.inputs = .read a :: rest →
    (s.busy = true → (s.target a).locked = true →
      step s = .next { s with inputs := rest, prdata := 0#32, status := { s.status with accErr := true } }) ∧
    (s.busy = false ∨ (s.target a).locked = false →
      step s = .next { s with inputs := rest, prdata := readTarget (s.target a) s })) ∧
  (∀ (s : State) (a : BitVec 17) (strb : BitVec 4) (d : Word) (rest : List Input),
    s.inReset = false → s.inputs = .write a strb d :: rest → s.busy = true → (s.target a).locked = true →
    step s = .next { s with inputs := rest, status := { s.status with accErr := true } })

/-- A register, FREQ or NODE write whose strobes are not all set is ignored and sets ACCERR, idle or busy, CMD and STATUS
included (`20_memory.md` R64). -/
def Obligations.PartialRegisterWriteIsRefused : Prop :=
  ∀ (s : State) (l : Loc) (a : BitVec 17) (strb : BitVec 4) (d : Word) (rest : List Input),
    s.inReset = false → s.inputs = .write a strb d :: rest → s.target a = .loc l → strb ≠ 0xF#4 →
    step s = .next { s with inputs := rest, status := { s.status with accErr := true } }

/-- A DMEM write while idle stores exactly the strobed byte lanes, lane i at offset a + i, every other byte reads as before,
and nothing else changes; a DMEM read while idle returns the four bytes with byte a in lane 0 (`20_memory.md` R64, R65). -/
def Obligations.DmemWordAccessIsLittleEndian : Prop :=
  ∀ (s : State) (a : BitVec 17) (w : Nat) (rest : List Input),
    s.inReset = false → s.busy = false → s.dmem.wf → s.target a = .dmem w →
    (∀ (strb : BitVec 4) (d : Word), s.inputs = .write a strb d :: rest →
      ∃ t, step s = .next t ∧
        (∀ i, i < 4 → t.dmem.read (w + i) = if strb.getLsbD i then d.extractLsb' (8 * i) 8 else s.dmem.read (w + i)) ∧
        DmemKeptOutside w 4 s t ∧ t = { s with inputs := rest, dmem := t.dmem }) ∧
    (s.inputs = .read a :: rest →
      ∃ t, step s = .next t ∧ (∀ i, i < 4 → t.prdata.extractLsb' (8 * i) 8 = s.dmem.read (w + i)) ∧
        t = { s with inputs := rest, prdata := t.prdata })

/-- The step of a host write with all strobes to a register or memory word that is not locked, or of any such write while idle:
the word as the host then reads it has every field of the data written, reserved bits 0, and a read-only register keeps its
value; nothing else of the state changes but the validity bits, which a write to a NODE word, NODE_COUNT or ROOT clears
(`10_state.md` R22 to R41, `30_encoding.md` R95, `70_reset_and_hazards.md` R197). The effect of a CMD write, the value a STATUS
write leaves and a CTRL write with SRST set, which is the soft reset, have statements of their own. -/
def Obligations.WrittenWordsReadBackTheirFields : Prop :=
  ∀ (s : State) (a : BitVec 17) (d : Word) (l : Loc) (rest : List Input),
    s.inReset = false → s.inputs = .write a 0xF#4 d :: rest → s.target a = .loc l →
    s.busy = false ∨ l.locked = false →
    ∃ t, step s = .next t ∧
      let r := readLoc l t
      let kept := { s with inputs := rest }
      let cleared : Status := { s.status with treeValid := false, ctValid := false }
      match l with
      | .reg .ctrl => d.getLsbD 31 = false → r = d &&& 0x0000000F#32 ∧ t = { kept with ctrl := t.ctrl }
      | .reg .srcAddr => r = d ∧ t = { kept with srcAddr := t.srcAddr }
      | .reg .srcLen => r = d ∧ t = { kept with srcLen := t.srcLen }
      | .reg .dstAddr => r = d ∧ t = { kept with dstAddr := t.dstAddr }
      | .reg .dstCap => r = d ∧ t = { kept with dstCap := t.dstCap }
      | .reg .nodeCount => r = d &&& 0x000003FF#32 ∧ t = { kept with nodeCount := t.nodeCount, status := cleared }
      | .reg .root => r = d &&& 0x000001FF#32 ∧ t = { kept with root := t.root, status := cleared }
      | .reg .ctSel => r = d &&& 0x000000FF#32 ∧ t = { kept with ctSel := t.ctSel }
      | .freq i => r = d ∧ t = { kept with freq := t.freq } ∧ ∀ j, j ≠ i → readLoc (.freq j) t = readLoc (.freq j) s
      | .nodeCtl i =>
        r = d &&& 0x83FFFFFF#32 ∧ t = { kept with node := t.node, status := cleared } ∧
          (∀ j, j ≠ i → readLoc (.nodeCtl j) t = readLoc (.nodeCtl j) s) ∧
          ∀ j, readLoc (.nodeFreq j) t = readLoc (.nodeFreq j) s
      | .nodeFreq i =>
        r = d ∧ t = { kept with node := t.node, status := cleared } ∧
          (∀ j, j ≠ i → readLoc (.nodeFreq j) t = readLoc (.nodeFreq j) s) ∧
          ∀ j, readLoc (.nodeCtl j) t = readLoc (.nodeCtl j) s
      | .reg .status => t = { kept with status := t.status }
      | .reg .cmd => r = 0#32
      | .reg .id => r = 0x48554646#32 ∧ t = kept
      | .reg .version => r = 0x00010000#32 ∧ t = kept
      | .reg .dmemsz => r = BitVec.ofNat 32 s.dmemSize ∧ t = kept
      | .reg .resLen => r = s.resLen ∧ t = kept
      | .reg .resBits => r = s.resBits ∧ t = kept
      | .reg .errPos => r = s.errPos ∧ t = kept
      | .reg .symCount => r = readLoc l s ∧ t = kept
      | .reg .ctLen => r = readLoc l s ∧ t = kept
      | .reg (.ctBits _) => r = readLoc l s ∧ t = kept

/-- The STATUS word (`10_state.md` R26): each bit the host reads, the reserved bits 0, the number of each error code
(`60_exceptions.md` R170), and the acknowledge: a STATUS write with all strobes
clears exactly the W1C bits written as 1, whether or not a command runs, and leaves ERRCODE (`60_exceptions.md` R178,
`20_memory.md` R76). -/
def Obligations.StatusWriteClearsTheBitsWritten : Prop :=
  ∀ (s : State) (a : BitVec 17) (d : Word) (rest : List Input),
    s.inReset = false → s.inputs = .write a 0xF#4 d :: rest → a &&& 0x1FFFC#17 = 0x10#17 →
    ∃ t, step s = .next t ∧ t = { s with inputs := rest, status := t.status } ∧
      t.statusReg = s.statusReg &&& ~~~(d &&& 0x03000006#32) ∧
      (s.statusReg.getLsbD 0 = s.engine.isSome ∧ s.statusReg.getLsbD 1 = s.status.done ∧
        s.statusReg.getLsbD 2 = s.status.err ∧ s.statusReg.extractLsb' 8 4 = s.status.errcode.toBits ∧
        s.statusReg.getLsbD 16 = s.status.treeValid ∧ s.statusReg.getLsbD 17 = s.status.ctValid ∧
        s.statusReg.getLsbD 24 = s.status.accErr ∧ s.statusReg.getLsbD 25 = s.status.cmdOvr ∧
        s.statusReg &&& 0xFCFCF0F8#32 = 0#32) ∧
      (ErrCode.toBits .none = 0#4 ∧ ErrCode.toBits .badCmd = 1#4 ∧ ErrCode.toBits .badRegion = 2#4 ∧
        ErrCode.toBits .emptyInput = 3#4 ∧ ErrCode.toBits .emptyTable = 4#4 ∧ ErrCode.toBits .sumOvf = 5#4 ∧
        ErrCode.toBits .freqOvf = 6#4 ∧ ErrCode.toBits .badTree = 7#4 ∧ ErrCode.toBits .noTree = 8#4 ∧
        ErrCode.toBits .noTable = 9#4 ∧ ErrCode.toBits .noCode = 10#4 ∧ ErrCode.toBits .malformed = 11#4 ∧
        ErrCode.toBits .outOvf = 12#4)

/-- The code-table port (`10_state.md` R38): CT_LEN is the length of the selected code, and bit 31 - t of CT_BITSw is its bit
32w + t, 0 past the end. -/
def Obligations.CodePortShowsTheSelectedCode : Prop :=
  ∀ (s : State), (codeAt s.code s.ctSel).length ≤ 255 →
    (readReg .ctLen s).toNat = (codeAt s.code s.ctSel).length ∧
    ∀ (w : Fin 8) (t : Nat), t < 32 →
      (readReg (.ctBits w) s).getLsbD (31 - t) = (codeAt s.code s.ctSel).getD (32 * w.val + t) false

/-- The interrupt line (`60_exceptions.md` R176): a level, the OR of the two enabled conditions; a completion with IE_DONE
raises it, and the acceptance of a command, or an acknowledge of DONE and ERR, drops it. ACCERR and CMDOVR do not drive it. -/
def Obligations.IrqFollowsDoneAndErr : Prop :=
  (∀ s : State, s.irq = true ↔
    (s.status.done = true ∧ s.ctrl.ieDone = true) ∨ (s.status.err = true ∧ s.ctrl.ieErr = true)) ∧
  (∀ (i : Instr) (s t : State), exec i s = .next t → t.irq = (s.ctrl.ieDone || (t.status.err && s.ctrl.ieErr))) ∧
  (∀ (s : State) (w : Word), (s.accept w).irq = false ∧ (s.ackStatus 0x00000006#32).irq = false) ∧
  (∀ s : State, s.accessError.irq = s.irq ∧ s.commandOverrun.irq = s.irq)

/-! ### Validity bits, atomicity and liveness -/

/-- The validity bits change by the events of `10_state.md` R27 and by no other: BUILD without error (1, 0), CGEN without
error (1, 1), BAD_TREE (0, 0), COMP past its stages (1, 1), COMP's empty path (0, 0), an accepted write to a NODE word,
NODE_COUNT or ROOT (0, 0), a soft or hard reset (0, 0). A FREQ write leaves them. -/
def Obligations.ValidityFollowsItsEvents : Prop :=
  (∀ s t : State, exec .build s = .next t → t.status.err = false → t.status.treeValid = true ∧ t.status.ctValid = false) ∧
  (∀ s t : State, exec .cgen s = .next t →
    t.status.treeValid = !t.status.err ∧ t.status.ctValid = !t.status.err) ∧
  (∀ s t : State, exec .comp s = .next t → t.status.errcode = .none ∨ t.status.errcode = .outOvf →
    t.status.treeValid = decide (0 < s.operands.srcLen.toNat) ∧ t.status.ctValid = decide (0 < s.operands.srcLen.toNat)) ∧
  (∀ (s : State) (a : BitVec 17) (d : Word) (l : Loc) (rest : List Input),
    s.inReset = false → s.busy = false → s.inputs = .write a 0xF#4 d :: rest → s.target a = .loc l →
    ((∃ i, l = .nodeCtl i) ∨ (∃ i, l = .nodeFreq i) ∨ l = .reg .nodeCount ∨ l = .reg .root →
      ∃ t, step s = .next t ∧ t.status = { s.status with treeValid := false, ctValid := false } ∧ t.freq = s.freq ∧
        t.code = s.code ∧ t.dmem = s.dmem) ∧
    (∀ i, l = .freq i → step s = .next { s with inputs := rest, freq := s.freq.set i d })) ∧
  (∀ s t : State, step s = .next t →
    t.status.treeValid ≠ s.status.treeValid ∨ t.status.ctValid ≠ s.status.ctValid →
    (∃ w i, s.dueCommand = some w ∧ decode w = .cmd i ∧ (i = .build ∨ i = .cgen ∨ i = .comp)) ∨
    (t.status.treeValid = false ∧ t.status.ctValid = false ∧ s.dueCommand = Option.none ∧
      ((∃ a d l, s.inputs.head? = some (.write a 0xF#4 d) ∧ s.target a = .loc l ∧
          ((∃ i, l = .nodeCtl i) ∨ (∃ i, l = .nodeFreq i) ∨ l = .reg .nodeCount ∨ l = .reg .root ∨
            (l = .reg .ctrl ∧ d.getLsbD 31 = true))) ∨
        ∃ level, s.inputs.head? = some (.rstn level))))

/-- No partial effect is visible: a step that begins and ends with BUSY = 1 leaves every memory, the tree registers and the
result registers as they were, and the latched command too, so a host write to an operand register or CTRL does not reach the
running command (`20_memory.md` R71, R72, R74, `70_reset_and_hazards.md` R195, R197). -/
def Obligations.RunningCommandShowsNoPartialEffect : Prop :=
  ∀ s t : State, step s = .next t → s.busy = true → t.busy = true →
    t.freq = s.freq ∧ t.dmem = s.dmem ∧ TreeKept s t ∧ ResultsKept s t ∧ t.engine = s.engine

/-- Every command completes (`70_reset_and_hazards.md` R200): whatever the host still does, once its events are used up one
more step leaves the engine IDLE. The premise is the invariant that the engine is idle while `rst_n` is low. That a busy
engine moves when no event is left is the model's form of the spec's fairness assumption (log 1). -/
def Obligations.EngineIsIdleWhenEventsRunOut : Prop :=
  ∀ s : State, (s.inReset = true → s.engine = Option.none) →
    ∃ t, Sys2Proof.core.run (s.inputs.length + 1) s = .next t ∧ t.inputs = [] ∧ t.engine = Option.none

/-! ### Reset (`70_reset_and_hazards.md`) -/

/-- The reset values of the registers, as the host reads them (`70_reset_and_hazards.md` R190), with the engine IDLE and
`irq` low. -/
def Obligations.ResetRegistersReadTheirValues : Prop :=
  readReg .id State.reset = 0x48554646#32 ∧ readReg .version State.reset = 0x00010000#32 ∧
  readReg .dmemsz State.reset = 65536#32 ∧ readReg .ctrl State.reset = 0#32 ∧ readReg .status State.reset = 0#32 ∧
  readReg .srcAddr State.reset = 0#32 ∧ readReg .srcLen State.reset = 0#32 ∧ readReg .dstAddr State.reset = 0#32 ∧
  readReg .dstCap State.reset = 0#32 ∧ readReg .resLen State.reset = 0#32 ∧ readReg .resBits State.reset = 0#32 ∧
  readReg .errPos State.reset = 0#32 ∧ readReg .nodeCount State.reset = 0#32 ∧ readReg .root State.reset = 0#32 ∧
  readReg .symCount State.reset = 0#32 ∧ readReg .ctSel State.reset = 0#32 ∧ State.reset.engine = Option.none ∧
  State.reset.irq = false

/-- A soft reset while idle: every register takes its reset value, the other bits of the write are discarded, and all
memories are kept (`70_reset_and_hazards.md` R190, R192). -/
def Obligations.IdleSoftResetKeepsTheMemories : Prop :=
  ∀ (s : State) (a : BitVec 17) (d : Word) (rest : List Input),
    s.inReset = false → s.engine = Option.none → s.inputs = .write a 0xF#4 d :: rest → a &&& 0x1FFFC#17 = 0x0C#17 →
    d.getLsbD 31 = true →
    step s = .next
      { State.reset with
        dmemExp := s.dmemExp, freq := s.freq, node := s.node, code := s.code, dmem := s.dmem, prdata := s.prdata,
        inputs := rest, draws := s.draws }

/-- A soft reset while a command runs abandons it: DONE stays 0, the registers take their reset values, and every memory
outside the command's write set is kept; outside the destination region every DMEM byte is kept even for a command that
writes DMEM (`70_reset_and_hazards.md` R192, R193, `30_encoding.md` R91). -/
def Obligations.AbandonedCommandSpoilsOnlyItsWriteSet : Prop :=
  ∀ (s : State) (a : BitVec 17) (d : Word) (l : Latched) (rest : List Input),
    s.inReset = false → s.engine = some l → s.inputs = .write a 0xF#4 d :: rest → a &&& 0x1FFFC#17 = 0x0C#17 →
    d.getLsbD 31 = true →
    ∃ t, step s = .next t ∧ t.status = Status.reset ∧ t.ctrl = Ctrl.reset ∧ t.engine = Option.none ∧ t.inputs = rest ∧
      t.srcAddr = 0#32 ∧ t.srcLen = 0#32 ∧ t.dstAddr = 0#32 ∧ t.dstCap = 0#32 ∧ t.resLen = 0#32 ∧ t.resBits = 0#32 ∧
      t.errPos = 0#32 ∧ t.nodeCount = 0#10 ∧ t.root = 0#9 ∧ t.symCount = 0#9 ∧ t.ctSel = 0#8 ∧
      (decode l.word ≠ .cmd .fclr → decode l.word ≠ .cmd .fcnt → decode l.word ≠ .cmd .comp → t.freq = s.freq) ∧
      (decode l.word ≠ .cmd .build → decode l.word ≠ .cmd .comp → t.node = s.node) ∧
      (decode l.word ≠ .cmd .cgen → decode l.word ≠ .cmd .comp → t.code = s.code) ∧
      DmemKeptOutside l.dstAddr.toNat l.dstCap.toNat s t ∧
      (decode l.word ≠ .cmd .enc → decode l.word ≠ .cmd .dec → decode l.word ≠ .cmd .pack →
        decode l.word ≠ .cmd .unpk → decode l.word ≠ .cmd .comp → t.dmem = s.dmem)

/-- A hard reset: while `rst_n` is low a read returns 0, a write has no effect and the engine is idle; when it returns to 1
every register holds its reset value, whatever the state was (`70_reset_and_hazards.md` R190, R191). That `prdata` is 0 there is
the model's choice (log 6), and so is the state while the pin is low (log 4). -/
def Obligations.HardResetIgnoresTheHostThenResets : Prop :=
  (∀ (s : State) (rest : List Input), s.inReset = false → s.engine = Option.none → s.inputs = .rstn false :: rest →
    ∃ t, step s = .next t ∧ t.inReset = true ∧ t.engine = Option.none ∧ t.inputs = rest) ∧
  (∀ (s : State) (l : Latched) (rest : List Input), s.inReset = false → s.engine = some l → s.inputs = .rstn false :: rest →
    ∃ t, step s = .next t ∧ t.inReset = true ∧ t.engine = Option.none ∧ t.inputs = rest) ∧
  (∀ (s : State) (a : BitVec 17) (rest : List Input), s.inReset = true → s.inputs = .read a :: rest →
    step s = .next { s with inputs := rest, prdata := 0#32 }) ∧
  (∀ (s : State) (a : BitVec 17) (strb : BitVec 4) (d : Word) (rest : List Input), s.inReset = true →
    s.inputs = .write a strb d :: rest → step s = .next { s with inputs := rest }) ∧
  (∀ (s : State) (rest : List Input), s.inReset = true → s.inputs = .rstn true :: rest →
    ∃ t, step s = .next t ∧
      t = { State.reset with
            dmemExp := s.dmemExp, freq := t.freq, node := t.node, code := t.code, dmem := t.dmem, inputs := rest,
            draws := t.draws })

/-! ### Regions, errors and write sets, for all commands -/

/-- The region check comes first, in its order, and a failing region leaves everything but the completion fields unchanged:
FCNT checks its source only; ENC, DEC, UNPK and COMP both regions with n_src = SRC_LEN; PACK both with
n_src = ceil8(SRC_LEN) (`20_memory.md` R67, `60_exceptions.md` R173, R174). -/
def Obligations.BadRegionChangesNothing : Prop :=
  ∀ (s : State) (i : Instr), i = .fcnt ∨ i = .enc ∨ i = .dec ∨ i = .pack ∨ i = .unpk ∨ i = .comp →
    let o := s.operands
    let n := if i = .pack then (o.srcLen.toNat + 7) / 8 else o.srcLen.toNat
    let src := o.srcAddr.toNat + n > s.dmemSize
    let dst := o.dstAddr.toNat + o.dstCap.toNat > s.dmemSize
    let both := n > 0 ∧ o.dstCap.toNat > 0 ∧ o.srcAddr.toNat < o.dstAddr.toNat + o.dstCap.toNat ∧
      o.dstAddr.toNat < o.srcAddr.toNat + n
    ∀ p, (p = 1 ∧ src) ∨ (p = 2 ∧ i ≠ .fcnt ∧ ¬ src ∧ dst) ∨ (p = 3 ∧ i ≠ .fcnt ∧ ¬ src ∧ ¬ dst ∧ both) →
      ∃ t, exec i s = .next t ∧ CompletedErr t .badRegion p ∧ HostSideKept s t ∧ TreeKept s t ∧ t.freq = s.freq ∧
        t.dmem = s.dmem

/-- A command writes only its write set (`30_encoding.md` R91): a memory, tree register or validity bit that the table does
not list for it is unchanged, and outside the destination region every DMEM byte reads as before (`20_memory.md` R68). -/
def Obligations.CommandsWriteOnlyTheirWriteSet : Prop :=
  ∀ (i : Instr) (s t : State), exec i s = .next t →
    HostSideKept s t ∧
    (i ≠ .fclr → i ≠ .fcnt → i ≠ .comp → t.freq = s.freq) ∧
    (i ≠ .build → i ≠ .comp → t.node = s.node ∧ t.nodeCount = s.nodeCount ∧ t.root = s.root) ∧
    (i ≠ .cgen → i ≠ .comp → t.code = s.code) ∧
    (i ≠ .build → i ≠ .cgen → i ≠ .comp → t.symCount = s.symCount ∧ t.status.treeValid = s.status.treeValid ∧
      t.status.ctValid = s.status.ctValid) ∧
    (i = .fclr ∨ i = .fcnt ∨ i = .build ∨ i = .cgen → t.dmem = s.dmem) ∧
    DmemKeptOutside s.operands.dstAddr.toNat s.operands.dstCap.toNat s t

/-- Which errors each command can end in (`60_exceptions.md` R170, R174, `44_encoder.md` R152), and that an error of any command outside the data-phase class leaves DMEM unchanged (R173). -/
def Obligations.ErrorsAreThoseOfTheCommand : Prop :=
  ∀ (i : Instr) (s t : State), exec i s = .next t →
    (match i with
      | .fclr => t.status.errcode = .none
      | .fcnt => t.status.errcode ∈ [.none, .badRegion, .freqOvf]
      | .build => t.status.errcode ∈ [.none, .emptyTable, .sumOvf]
      | .cgen => t.status.errcode ∈ [.none, .badTree]
      | .enc => t.status.errcode ∈ [.none, .badRegion, .emptyInput, .noTable, .noCode, .outOvf]
      | .dec => t.status.errcode ∈ [.none, .badRegion, .malformed, .noTree, .outOvf]
      | .pack => t.status.errcode ∈ [.none, .badRegion, .outOvf]
      | .unpk => t.status.errcode ∈ [.none, .badRegion, .malformed, .outOvf]
      | .comp => t.status.errcode ∈ [.none, .badRegion, .emptyInput, .outOvf]) ∧
    (t.status.errcode ≠ .none → t.status.errcode ≠ .noCode → t.status.errcode ≠ .malformed →
      t.status.errcode ≠ .outOvf → t.dmem = s.dmem)

/-! ### Frequency counter (`40_frequency.md`) -/

/-- FCLR, command word 0x00000001: every FREQ entry becomes 0, it cannot fail, and nothing else changes: the tree and the code
table are untouched (`40_frequency.md` R110). -/
def Obligations.FclrClearsTheTable : Prop :=
  decode 0x00000001#32 = .cmd .fclr ∧
  ∀ s : State, ∃ t, exec .fclr s = .next t ∧ CompletedOk t 0 0 ∧ (∀ b : Byte, freqAt t.freq b = 0#32) ∧
    HostSideKept s t ∧ TreeKept s t ∧ t.dmem = s.dmem

/-- FCNT over a source region inside DMEM, when no counter would pass 2^32 - 1: FREQ[b] grows by the number of source bytes
equal to b, and nothing else changes (`40_frequency.md` R111). -/
def Obligations.FcntAddsTheByteCounts : Prop :=
  ∀ s : State,
    let o := s.operands
    let src := s.dmem.readBytes o.srcAddr.toNat o.srcLen.toNat
    o.srcAddr.toNat + o.srcLen.toNat ≤ s.dmemSize →
    (∀ b : Byte, (freqAt s.freq b).toNat + src.count b < 2 ^ 32) →
    ∃ t, exec .fcnt s = .next t ∧ CompletedOk t 0 0 ∧
      (∀ b : Byte, (freqAt t.freq b).toNat = (freqAt s.freq b).toNat + src.count b) ∧
      HostSideKept s t ∧ TreeKept s t ∧ t.dmem = s.dmem

/-- FCNT stops with FREQ_OVF(i) at the first source byte whose counter would pass 2^32 - 1: the counts of the bytes before it
are kept, byte i and later are not counted, and nothing else changes (`40_frequency.md` R111). -/
def Obligations.FcntOverflowKeepsTheCountsBefore : Prop :=
  ∀ (s : State) (i : Nat),
    let o := s.operands
    let src := s.dmem.readBytes o.srcAddr.toNat o.srcLen.toNat
    o.srcAddr.toNat + o.srcLen.toNat ≤ s.dmemSize →
    i < o.srcLen.toNat →
    (∀ b : Byte, (freqAt s.freq b).toNat + (src.take i).count b < 2 ^ 32) →
    (∃ b : Byte, src[i]? = some b ∧ (freqAt s.freq b).toNat + (src.take i).count b = 2 ^ 32 - 1) →
    ∃ t, exec .fcnt s = .next t ∧ CompletedErr t .freqOvf i ∧
      (∀ b : Byte, (freqAt t.freq b).toNat = (freqAt s.freq b).toNat + (src.take i).count b) ∧
      HostSideKept s t ∧ TreeKept s t ∧ t.dmem = s.dmem

/-- The counting law (`40_frequency.md` R112): after FCLR and FCNT over S1, FREQ is the table of S1 and its nonzero entries
are the alphabet of S1; after a further FCNT over S2 it is the table of S1 ++ S2, which is the table of S2 ++ S1. -/
def Obligations.CountingLaw : Prop :=
  ∀ (s s1 s2 s3 : State) (o1 o2 : Latched),
    let src1 := s.dmem.readBytes o1.srcAddr.toNat o1.srcLen.toNat
    let src2 := s.dmem.readBytes o2.srcAddr.toNat o2.srcLen.toNat
    exec .fclr s = .next s1 →
    exec .fcnt { s1 with engine := some o1 } = .next s2 → s2.status.err = false →
    exec .fcnt { s2 with engine := some o2 } = .next s3 → s3.status.err = false →
    ∀ b : Byte,
      (freqAt s2.freq b).toNat = src1.count b ∧
      (freqAt s2.freq b ≠ 0#32 ↔ b ∈ src1) ∧
      (freqAt s3.freq b).toNat = (src1 ++ src2).count b ∧
      (freqAt s3.freq b).toNat = (src2 ++ src1).count b

/-! ### Tree builder (`41_tree_builder.md`) -/

/-- BUILD's two errors (`41_tree_builder.md` R120): EMPTY_TABLE(0) when no count is nonzero, SUM_OVF(b) when b is the first
symbol at which the running total in ascending symbol order exceeds 2^32 - 1. Nothing but the completion fields changes. -/
def Obligations.BuildErrorsChangeNothing : Prop :=
  ∀ s : State,
    ((∀ b : Byte, freqAt s.freq b = 0#32) →
      ∃ t, exec .build s = .next t ∧ CompletedErr t .emptyTable 0 ∧ HostSideKept s t ∧ TreeKept s t ∧
        t.freq = s.freq ∧ t.dmem = s.dmem) ∧
    (∀ b : Byte, freqSumBelow s.freq (b.toNat + 1) > 2 ^ 32 - 1 → freqSumBelow s.freq b.toNat ≤ 2 ^ 32 - 1 →
      ∃ t, exec .build s = .next t ∧ CompletedErr t .sumOvf b.toNat ∧ HostSideKept s t ∧ TreeKept s t ∧
        t.freq = s.freq ∧ t.dmem = s.dmem)

/-- BUILD on a table that is not empty and whose total fits in 32 bits completes without error: with k present symbols it
sets NODE_COUNT = 2k - 1, ROOT = 2k - 2, SYM_COUNT = k, TREE_VALID = 1 and CT_VALID = 0, leaves the arena entries from 2k - 1
on, and changes nothing else. The present symbols are exactly those with a nonzero count, in ascending order
(`41_tree_builder.md` R120). -/
def Obligations.BuildWritesOneTree : Prop :=
  (∀ f : Vector Word 256,
    (∀ b w, (b, w) ∈ present f ↔ freqAt f b = w ∧ w ≠ 0#32) ∧
    (present f).Pairwise (fun p q => p.1.toNat < q.1.toNat)) ∧
  ∀ s : State,
    let k := (present s.freq).length
    0 < k → freqTotal s.freq ≤ 2 ^ 32 - 1 →
    ∃ t, exec .build s = .next t ∧ CompletedOk t 0 0 ∧
      t.nodeCount.toNat = 2 * k - 1 ∧ t.root.toNat = 2 * k - 2 ∧ t.symCount.toNat = k ∧
      t.status.treeValid = true ∧ t.status.ctValid = false ∧
      (∀ n, 2 * k - 1 ≤ n → nodeAt t.node n = nodeAt s.node n) ∧
      t.freq = s.freq ∧ t.code = s.code ∧ t.dmem = s.dmem ∧ HostSideKept s t

/-- The tree a successful BUILD writes (`41_tree_builder.md` R123, R124): its root is entry 2k - 2; the leaves are the present symbols in order, with
the fields that mean nothing for a leaf 0; every later entry is internal, with two different children of smaller index, the
sum of their frequencies as its own, and SYM 0; every entry but the root is the child of exactly one internal node, once; the
root's frequency is the total. -/
def Obligations.BuiltTreeIsFullAndOwnedOnce : Prop :=
  ∀ s t : State, exec .build s = .next t → t.status.err = false →
    let ps := present s.freq
    let k := ps.length
    let nd := fun n => nodeAt t.node n
    t.root.toNat = 2 * k - 2 ∧
    (∀ (j : Nat) (b : Byte) (w : Word), ps[j]? = some (b, w) →
      nd j = { left := 0#9, right := 0#9, sym := b, internal := false, freq := w }) ∧
    (∀ n, k ≤ n → n < 2 * k - 1 →
      (nd n).internal = true ∧ (nd n).sym = 0#8 ∧ (nd n).left.toNat < n ∧ (nd n).right.toNat < n ∧
      (nd n).left ≠ (nd n).right ∧
      (nd n).freq.toNat = (nd (nd n).left.toNat).freq.toNat + (nd (nd n).right.toNat).freq.toNat) ∧
    (∀ c, c < 2 * k - 2 →
      ∃ n, (k ≤ n ∧ n < 2 * k - 1 ∧ ((nd n).left.toNat = c ∨ (nd n).right.toNat = c)) ∧
        ∀ m, k ≤ m → m < 2 * k - 1 → (nd m).left.toNat = c ∨ (nd m).right.toNat = c → m = n) ∧
    (nd (2 * k - 2)).freq.toNat = freqTotal s.freq

/-- The greedy merge and its tie-break (`41_tree_builder.md` R121, R122): when internal node n was made, its left child had
the least key (frequency, then index) of all nodes still in the collection, and its right child the least key of the rest. A
node is in the collection when its index is below n and it is the child of no internal node made before n. -/
def Obligations.BuildMergesTheTwoLeastKeys : Prop :=
  ∀ s t : State, exec .build s = .next t → t.status.err = false →
    let k := (present s.freq).length
    let nd := fun n => nodeAt t.node n
    let keyLe := fun p q : Nat => (nd p).freq.toNat < (nd q).freq.toNat ∨ ((nd p).freq = (nd q).freq ∧ p ≤ q)
    ∀ n, k ≤ n → n < 2 * k - 1 →
      ∀ q, q < n → (∀ m, k ≤ m → m < n → (nd m).left.toNat ≠ q ∧ (nd m).right.toNat ≠ q) →
        keyLe (nd n).left.toNat q ∧ (q ≠ (nd n).left.toNat → keyLe (nd n).right.toNat q)

/-- BUILD's result is a function of FREQ alone (`41_tree_builder.md` R127): two machines with equal FREQ get the same entries
0..2k-2, NODE_COUNT, ROOT and SYM_COUNT, or the same error. -/
def Obligations.BuildDependsOnFreqAlone : Prop :=
  ∀ s s' t t' : State, s.freq = s'.freq → exec .build s = .next t → exec .build s' = .next t' →
    t.status.errcode = t'.status.errcode ∧ t.errPos = t'.errPos ∧
    (t.status.err = false →
      t.nodeCount = t'.nodeCount ∧ t.root = t'.root ∧ t.symCount = t'.symCount ∧
      ∀ n, n < t.nodeCount.toNat → nodeAt t.node n = nodeAt t'.node n)

/-- On a tree from BUILD, CGEN cannot fail (`42_code_table.md` R130): with the arena, NODE_COUNT and ROOT of a successful
BUILD it completes without error. -/
def Obligations.CgenAcceptsEveryBuiltTree : Prop :=
  ∀ s t : State, exec .build s = .next t → t.status.err = false →
    ∃ u, exec .cgen t = .next u ∧ CompletedOk u 0 0 ∧ u.status.treeValid = true ∧ u.status.ctValid = true ∧
      u.symCount = t.symCount

/-! ### Code table (`42_code_table.md`) -/

/-- CGEN succeeds exactly on the valid trees of R132, and then CODE is the table of the tree: each reached leaf's code is its
path, 0 for left and 1 for right, or "0" for a single-leaf root, and every other entry has LEN 0; both validity bits are 1 and
nothing else changes but SYM_COUNT. On any other tree it raises BAD_TREE, at NODE_COUNT when that exceeds 511 and at ROOT when
that is not below it (`42_code_table.md` R130 to R133). The position of every other failure has a statement of its own. -/
def Obligations.CgenDerivesTheTableOfAValidTree : Prop :=
  ∀ s : State, ∃ t, exec .cgen s = .next t ∧
    t.freq = s.freq ∧ t.node = s.node ∧ t.nodeCount = s.nodeCount ∧ t.root = s.root ∧ t.dmem = s.dmem ∧
    HostSideKept s t ∧
    (ValidTree s.node s.nodeCount.toNat s.root.toNat →
      CompletedOk t 0 0 ∧ t.status.treeValid = true ∧ t.status.ctValid = true ∧
      TableOfTree s.node s.root.toNat t.code ∧
      t.symCount.toNat = (List.range 256).countP (fun b => codeAt t.code (BitVec.ofNat 8 b) ≠ [])) ∧
    (¬ ValidTree s.node s.nodeCount.toNat s.root.toNat → ∃ p, CompletedErr t .badTree p) ∧
    (511 < s.nodeCount.toNat → CompletedErr t .badTree s.nodeCount.toNat) ∧
    (s.nodeCount.toNat ≤ 511 → s.nodeCount.toNat ≤ s.root.toNat → CompletedErr t .badTree s.root.toNat)

/-- The error position of BAD_TREE (`42_code_table.md` R132): with NODE_COUNT at most 511, CGEN of a tree that is not valid raises
BAD_TREE at the node where the first test fires in walk order, and wherever a first test fires, that is the position. A test
fires at a node reached along a path when its index is not below NODE_COUNT, when an earlier path reached it, when the path is
longer than 255, or when it is a leaf whose symbol a leaf reached earlier carries; earlier is depth-first preorder, left before
right. -/
def Obligations.BadTreePositionIsTheFirstFailure : Prop :=
  ∀ s : State, s.nodeCount.toNat ≤ 511 →
    (¬ ValidTree s.node s.nodeCount.toNat s.root.toNat →
      ∃ t n, exec .cgen s = .next t ∧ FirstFailure s.node s.nodeCount.toNat s.root.toNat n ∧ CompletedErr t .badTree n) ∧
    (∀ n, FirstFailure s.node s.nodeCount.toNat s.root.toNat n →
      ∃ t, exec .cgen s = .next t ∧ CompletedErr t .badTree n)

/-- When CGEN raises BAD_TREE, every code has LEN 0, both validity bits are 0, and SYM_COUNT and the tree are unchanged; so a
following ENC of data raises NO_TABLE and a following DEC of data raises NO_TREE (`42_code_table.md` R136). -/
def Obligations.BadTreeClearsTheTable : Prop :=
  ∀ s t : State, exec .cgen s = .next t → t.status.err = true →
    (∀ b : Byte, codeAt t.code b = []) ∧ t.status.treeValid = false ∧ t.status.ctValid = false ∧
    t.symCount = s.symCount ∧ t.node = s.node ∧ t.nodeCount = s.nodeCount ∧ t.root = s.root ∧
    (∀ o : Latched, RegionsOk t.dmemSize o o.srcLen.toNat → 0 < o.srcLen.toNat →
      ∃ u, exec .enc { t with engine := some o } = .next u ∧ CompletedErr u .noTable 0) ∧
    (∀ (o : Latched) (bits : Bits), RegionsOk t.dmemSize o o.srcLen.toNat →
      unpackBytes (t.dmem.readBytes o.srcAddr.toNat o.srcLen.toNat) = .ok bits → bits ≠ [] →
      ∃ u, exec .dec { t with engine := some o } = .next u ∧ CompletedErr u .noTree 0)

/-- The prefix property (`42_code_table.md` R134, R135): after a successful CGEN no code of one symbol is a prefix of the code
of another, every code has 1 to 255 bits, the symbols with a code are exactly those of the reached leaves, and each such symbol
stands at one leaf. -/
def Obligations.CodesArePrefixFree : Prop :=
  ∀ s t : State, exec .cgen s = .next t → t.status.err = false →
    (∀ a b : Byte, a ≠ b → codeAt t.code a ≠ [] → codeAt t.code b ≠ [] → ¬ codeAt t.code a <+: codeAt t.code b) ∧
    (∀ b : Byte, (codeAt t.code b).length ≤ 255) ∧
    (∀ b : Byte, codeAt t.code b ≠ [] ↔ ∃ p, LeafPath s.node s.root.toNat p b) ∧
    (∀ p q b, LeafPath s.node s.root.toNat p b → LeafPath s.node s.root.toNat q b → p = q)

/-- A single-leaf tree: the leaf's symbol gets the code "0" and every other entry LEN 0 (`42_code_table.md` R133). -/
def Obligations.SingleLeafGetsTheCodeZero : Prop :=
  ∀ s : State, s.nodeCount.toNat ≤ 511 → s.root.toNat < s.nodeCount.toNat →
    (nodeAt s.node s.root.toNat).internal = false →
    ∃ t, exec .cgen s = .next t ∧ CompletedOk t 0 0 ∧ t.symCount = 1#9 ∧
      ∀ b : Byte, codeAt t.code b = if b = (nodeAt s.node s.root.toNat).sym then [false] else []

/-! ### Packer (`43_bit_packer.md`) -/

/-- The padding count and the packed form (`43_bit_packer.md` R140, R141): mode 0 pads with 0..7 bits, mode 1 with 1..8, the
two differ only when 8 divides L; the header byte is the count, the payload bits are the sequence and then the padding zeros,
MSB first, and the size is 1 + ceil8(L) or 2 + L div 8 bytes. MSB first means: bit j of a byte list is bit 7 - j mod 8 of its
byte j div 8 (`00_scope.md` R10, `20_memory.md` R66). -/
def Obligations.PackedStreamLayout : Prop :=
  (∀ (bs : List Byte) (len : Nat), (bytesToBits bs len).length = min len (8 * bs.length) ∧
    ∀ j, j < len → j < 8 * bs.length →
      (bytesToBits bs len)[j]? = bs[j / 8]?.map (fun x => x.getLsbD (7 - j % 8))) ∧
  ∀ (b : Bits) (mode : Bool),
    let h := padCount b.length mode
    h = (if mode then 8 - b.length % 8 else (8 - b.length % 8) % 8) ∧
    (b.length + h) % 8 = 0 ∧ h ≤ 8 ∧ (mode = false → h ≤ 7) ∧ (mode = true → 1 ≤ h) ∧
    (b.length % 8 ≠ 0 → padCount b.length false = padCount b.length true) ∧
    (packBits b mode).length = (if mode then 2 + b.length / 8 else 1 + (b.length + 7) / 8) ∧
    (packBits b mode).head? = some (BitVec.ofNat 8 h) ∧
    bytesToBits (packBits b mode).tail (b.length + h) = b ++ List.replicate h false

/-- PACK with legal regions and enough room: the destination holds the packed form of the first SRC_LEN source bits, MSB
first in each byte, RES_LEN and RES_BITS say its size and SRC_LEN, every other DMEM byte reads as before, and nothing else
changes (`43_bit_packer.md` R143, `20_memory.md` R66, R68). -/
def Obligations.PackWritesThePaddedStream : Prop :=
  ∀ s : State, s.dmem.wf →
    let o := s.operands
    let n := (o.srcLen.toNat + 7) / 8
    let out := packBits (bytesToBits (s.dmem.readBytes o.srcAddr.toNat n) o.srcLen.toNat) o.padMode
    RegionsOk s.dmemSize o n → out.length ≤ o.dstCap.toNat →
    ∃ t, exec .pack s = .next t ∧ CompletedOk t out.length o.srcLen.toNat ∧
      t.dmem.readBytes o.dstAddr.toNat out.length = out ∧
      DmemKeptOutside o.dstAddr.toNat out.length s t ∧ HostSideKept s t ∧ TreeKept s t ∧ t.freq = s.freq

/-- UNPK of a well-formed stream (header h at most 8 and at most the payload bits, the last h payload bits 0) with legal
regions and enough room: RES_BITS is 8(M - 1) - h, RES_LEN its bytes, the destination holds the payload bytes from the first on,
every other DMEM byte reads as before, and nothing else changes (`43_bit_packer.md` R142, R144). -/
def Obligations.UnpkWritesTheLogicalBits : Prop :=
  ∀ (s : State) (hdr : Byte) (payload : List Byte), s.dmem.wf →
    let o := s.operands
    let len := 8 * payload.length - hdr.toNat
    let n := (len + 7) / 8
    RegionsOk s.dmemSize o o.srcLen.toNat →
    s.dmem.readBytes o.srcAddr.toNat o.srcLen.toNat = hdr :: payload →
    hdr.toNat ≤ 8 → hdr.toNat ≤ 8 * payload.length →
    (∀ j, len ≤ j → j < 8 * payload.length → (bytesToBits payload (8 * payload.length)).getD j false = false) →
    n ≤ o.dstCap.toNat →
    ∃ t, exec .unpk s = .next t ∧ CompletedOk t n len ∧
      t.dmem.readBytes o.dstAddr.toNat n = payload.take n ∧
      DmemKeptOutside o.dstAddr.toNat n s t ∧ HostSideKept s t ∧ TreeKept s t ∧ t.freq = s.freq

/-- The unpacker's checks in UNPK and DEC alike (`43_bit_packer.md` R142, R146, `45_decoder.md` R160): MALFORMED(0) for a
missing header, a header above 8, or more padding than payload; else MALFORMED(8 + j) at the first payload bit j inside the
padding that is 1. It is a data-phase error: no more than the destination region changes. -/
def Obligations.MalformedStreamIsReported : Prop :=
  ∀ (s : State) (i : Instr) (p : Nat), i = .unpk ∨ i = .dec →
    let o := s.operands
    let src := s.dmem.readBytes o.srcAddr.toNat o.srcLen.toNat
    RegionsOk s.dmemSize o o.srcLen.toNat →
    (src = [] ∧ p = 0) ∨
    (∃ hdr payload, src = hdr :: payload ∧
      ((8 < hdr.toNat ∧ p = 0) ∨ (8 * payload.length < hdr.toNat ∧ p = 0) ∨
        (hdr.toNat ≤ 8 ∧ ∃ j, 8 * payload.length - hdr.toNat ≤ j ∧ j < 8 * payload.length ∧ hdr.toNat ≤ 8 * payload.length ∧
          (bytesToBits payload (8 * payload.length)).getD j false = true ∧
          (∀ m, 8 * payload.length - hdr.toNat ≤ m → m < j →
            (bytesToBits payload (8 * payload.length)).getD m false = false) ∧ p = 8 + j))) →
    ∃ t, exec i s = .next t ∧ CompletedErr t .malformed p ∧
      DmemKeptOutside o.dstAddr.toNat o.dstCap.toNat s t ∧ HostSideKept s t ∧ TreeKept s t ∧ t.freq = s.freq

/-- The round trip (`43_bit_packer.md` R145): unpacking a packed bit string gives it back in either mode, and a PACK that
completes without error, followed by an UNPK of its output, returns the SRC_LEN source bits. -/
def Obligations.UnpackInvertsPack : Prop :=
  (∀ (b : Bits) (mode : Bool), unpackBytes (packBits b mode) = .ok b) ∧
  (∀ (s t : State) (o : Latched), s.dmem.wf → exec .pack s = .next t → t.status.err = false →
    o.srcAddr = s.operands.dstAddr → o.srcLen = t.resLen → RegionsOk t.dmemSize o o.srcLen.toNat →
    (s.operands.srcLen.toNat + 7) / 8 ≤ o.dstCap.toNat →
    ∃ u, exec .unpk { t with engine := some o } = .next u ∧ u.status.err = false ∧ u.resBits = s.operands.srcLen ∧
      bytesToBits (u.dmem.readBytes o.dstAddr.toNat u.resLen.toNat) s.operands.srcLen.toNat =
        bytesToBits (s.dmem.readBytes s.operands.srcAddr.toNat ((s.operands.srcLen.toNat + 7) / 8)) s.operands.srcLen.toNat)

/-! ### Encoder (`44_encoder.md`) -/

/-- ENC of data with a valid table, a code for every source byte and enough room: the destination holds the packed
concatenation of the codes in source order, RES_BITS is its length before padding, every other DMEM byte reads as before, and
nothing else changes (`44_encoder.md` R151). -/
def Obligations.EncWritesTheConcatenatedCodes : Prop :=
  ∀ s : State, s.dmem.wf →
    let o := s.operands
    let src := s.dmem.readBytes o.srcAddr.toNat o.srcLen.toNat
    let bits := src.flatMap (fun b => codeAt s.code b)
    let out := packBits bits o.padMode
    RegionsOk s.dmemSize o o.srcLen.toNat → 0 < o.srcLen.toNat → s.status.ctValid = true →
    (∀ b ∈ src, codeAt s.code b ≠ []) → out.length ≤ o.dstCap.toNat →
    ∃ t, exec .enc s = .next t ∧ CompletedOk t out.length bits.length ∧
      t.dmem.readBytes o.dstAddr.toNat out.length = out ∧
      DmemKeptOutside o.dstAddr.toNat out.length s t ∧ HostSideKept s t ∧ TreeKept s t ∧ t.freq = s.freq

/-- ENC's errors in their order after the region check (`44_encoder.md` R151, `60_exceptions.md` R174): EMPTY_INPUT(0),
NO_TABLE(0), both with DMEM unchanged; NO_CODE(j) at the first source byte with LEN 0; OUT_OVF with the required bytes. The
last two leave DMEM outside the destination region unchanged. -/
def Obligations.EncErrorsInOrder : Prop :=
  ∀ s : State,
    let o := s.operands
    let src := s.dmem.readBytes o.srcAddr.toNat o.srcLen.toNat
    let out := packBits (src.flatMap (fun b => codeAt s.code b)) o.padMode
    RegionsOk s.dmemSize o o.srcLen.toNat →
    (o.srcLen = 0#32 → o.emptyPol = true →
      ∃ t, exec .enc s = .next t ∧ CompletedErr t .emptyInput 0 ∧ t.dmem = s.dmem ∧ HostSideKept s t ∧ TreeKept s t ∧
        t.freq = s.freq) ∧
    (0 < o.srcLen.toNat → s.status.ctValid = false →
      ∃ t, exec .enc s = .next t ∧ CompletedErr t .noTable 0 ∧ t.dmem = s.dmem ∧ HostSideKept s t ∧ TreeKept s t ∧
        t.freq = s.freq) ∧
    (∀ (j : Nat) (b : Byte), s.status.ctValid = true → src[j]? = some b → codeAt s.code b = [] →
      (∀ c ∈ src.take j, codeAt s.code c ≠ []) →
      ∃ t, exec .enc s = .next t ∧ CompletedErr t .noCode j ∧ DmemKeptOutside o.dstAddr.toNat o.dstCap.toNat s t ∧
        HostSideKept s t ∧ TreeKept s t ∧ t.freq = s.freq) ∧
    (0 < o.srcLen.toNat → s.status.ctValid = true → (∀ c ∈ src, codeAt s.code c ≠ []) → o.dstCap.toNat < out.length →
      ∃ t, exec .enc s = .next t ∧ CompletedErr t .outOvf out.length ∧
        DmemKeptOutside o.dstAddr.toNat o.dstCap.toNat s t ∧ HostSideKept s t ∧ TreeKept s t ∧ t.freq = s.freq)

/-- The empty-input policy (`44_encoder.md` R150, R151, R152): with EMPTYPOL = 0 and room for it, ENC and COMP of an empty
source give [0x00] in mode 0 and [0x08, 0x00] in mode 1; ENC needs no table and changes nothing else, COMP leaves an empty
table and no tree. With less room both raise OUT_OVF with that stream's size, the destination region is spoiled, and what COMP
cleared stays cleared. With EMPTYPOL = 1 both raise EMPTY_INPUT(0) and change nothing. -/
def Obligations.EmptyInputPolicy : Prop :=
  ∀ s : State, s.dmem.wf →
    let o := s.operands
    let out : List Byte := if o.padMode then [0x08#8, 0x00#8] else [0x00#8]
    RegionsOk s.dmemSize o 0 → o.srcLen = 0#32 →
    (o.emptyPol = false → out.length ≤ o.dstCap.toNat →
      (∃ t, exec .enc s = .next t ∧ CompletedOk t out.length 0 ∧ t.dmem.readBytes o.dstAddr.toNat out.length = out ∧
        DmemKeptOutside o.dstAddr.toNat out.length s t ∧ HostSideKept s t ∧ TreeKept s t ∧ t.freq = s.freq) ∧
      (∃ t, exec .comp s = .next t ∧ CompletedOk t out.length 0 ∧ t.dmem.readBytes o.dstAddr.toNat out.length = out ∧
        DmemKeptOutside o.dstAddr.toNat out.length s t ∧ HostSideKept s t ∧
        (∀ b : Byte, freqAt t.freq b = 0#32 ∧ codeAt t.code b = []) ∧ t.symCount = 0#9 ∧
        t.status.treeValid = false ∧ t.status.ctValid = false ∧
        t.node = s.node ∧ t.nodeCount = s.nodeCount ∧ t.root = s.root)) ∧
    (o.emptyPol = false → o.dstCap.toNat < out.length →
      (∃ t, exec .enc s = .next t ∧ CompletedErr t .outOvf out.length ∧
        DmemKeptOutside o.dstAddr.toNat o.dstCap.toNat s t ∧ HostSideKept s t ∧ TreeKept s t ∧ t.freq = s.freq) ∧
      (∃ t, exec .comp s = .next t ∧ CompletedErr t .outOvf out.length ∧
        DmemKeptOutside o.dstAddr.toNat o.dstCap.toNat s t ∧ HostSideKept s t ∧
        (∀ b : Byte, freqAt t.freq b = 0#32 ∧ codeAt t.code b = []) ∧ t.symCount = 0#9 ∧
        t.status.treeValid = false ∧ t.status.ctValid = false ∧
        t.node = s.node ∧ t.nodeCount = s.nodeCount ∧ t.root = s.root)) ∧
    (o.emptyPol = true → ∀ i, i = .enc ∨ i = .comp →
      ∃ t, exec i s = .next t ∧ CompletedErr t .emptyInput 0 ∧ t.dmem = s.dmem ∧ HostSideKept s t ∧ TreeKept s t ∧
        t.freq = s.freq)

/-- OUT_OVF of PACK and UNPK reports the required bytes, and changes no DMEM byte outside the destination region and nothing
else (`43_bit_packer.md` R143, R144, `20_memory.md` R68, `60_exceptions.md` R173). -/
def Obligations.OutputOverflowReportsTheSize : Prop :=
  ∀ s : State,
    let o := s.operands
    (let n := (o.srcLen.toNat + 7) / 8
     let out := packBits (bytesToBits (s.dmem.readBytes o.srcAddr.toNat n) o.srcLen.toNat) o.padMode
     RegionsOk s.dmemSize o n → o.dstCap.toNat < out.length →
      ∃ t, exec .pack s = .next t ∧ CompletedErr t .outOvf out.length ∧
        DmemKeptOutside o.dstAddr.toNat o.dstCap.toNat s t ∧ HostSideKept s t ∧ TreeKept s t ∧ t.freq = s.freq) ∧
    (∀ bits : Bits, RegionsOk s.dmemSize o o.srcLen.toNat →
      unpackBytes (s.dmem.readBytes o.srcAddr.toNat o.srcLen.toNat) = .ok bits →
      o.dstCap.toNat < (bits.length + 7) / 8 →
      ∃ t, exec .unpk s = .next t ∧ CompletedErr t .outOvf ((bits.length + 7) / 8) ∧
        DmemKeptOutside o.dstAddr.toNat o.dstCap.toNat s t ∧ HostSideKept s t ∧ TreeKept s t ∧ t.freq = s.freq)

/-- COMP of n >= 1 bytes with legal regions (`44_encoder.md` R152): FREQ is the table of the source, the tree and the code
table are the ones BUILD and CGEN make of it, both validity bits are 1; if the packed codes of the source fit, they are the
output and it completes without error, else it raises OUT_OVF with the required size and the stages stand. No other error
arises. -/
def Obligations.CompRunsTheWholePipeline : Prop :=
  ∀ s : State, s.dmem.wf →
    let o := s.operands
    let src := s.dmem.readBytes o.srcAddr.toNat o.srcLen.toNat
    RegionsOk s.dmemSize o o.srcLen.toNat → 0 < o.srcLen.toNat →
    ∃ t, exec .comp s = .next t ∧ HostSideKept s t ∧
      (∀ b : Byte, (freqAt t.freq b).toNat = src.count b) ∧
      t.status.treeValid = true ∧ t.status.ctValid = true ∧
      ValidTree t.node t.nodeCount.toNat t.root.toNat ∧ TableOfTree t.node t.root.toNat t.code ∧
      (∀ v w, v.freq = t.freq → exec .build v = .next w →
        t.nodeCount = w.nodeCount ∧ t.root = w.root ∧ t.symCount = w.symCount ∧
        ∀ n, n < t.nodeCount.toNat → nodeAt t.node n = nodeAt w.node n) ∧
      (∀ b ∈ src, codeAt t.code b ≠ []) ∧
      (let bits := src.flatMap (fun b => codeAt t.code b)
       let out := packBits bits o.padMode
       (out.length ≤ o.dstCap.toNat →
          CompletedOk t out.length bits.length ∧ t.dmem.readBytes o.dstAddr.toNat out.length = out ∧
          DmemKeptOutside o.dstAddr.toNat out.length s t) ∧
       (o.dstCap.toNat < out.length →
          CompletedErr t .outOvf out.length ∧ DmemKeptOutside o.dstAddr.toNat o.dstCap.toNat s t))

/-- The size laws of COMP over n >= 1 bytes that completes without error (`44_encoder.md` R153): RES_BITS is the sum over the
symbols of FREQ times LEN, and RES_LEN is 1 + ceil8(RES_BITS) in mode 0 and 2 + RES_BITS div 8 in mode 1. -/
def Obligations.CompSizeLaws : Prop :=
  ∀ s t : State, 0 < s.operands.srcLen.toNat → exec .comp s = .next t → t.status.err = false →
    t.resBits.toNat =
      ((List.range 256).map (fun b =>
        (freqAt t.freq (BitVec.ofNat 8 b)).toNat * (codeAt t.code (BitVec.ofNat 8 b)).length)).sum ∧
    t.resLen.toNat =
      (if s.operands.padMode then 2 + t.resBits.toNat / 8 else 1 + (t.resBits.toNat + 7) / 8)

/-! ### Decoder (`45_decoder.md`) -/

/-- The tree walk is the source's matching against the inverse code table (`45_decoder.md` R162): under a table that CGEN
derived from the tree, the walk of a bit string with room for cap bytes ends without error and gives the bytes exactly when
the string is the concatenation of their codes and they fit. -/
def Obligations.WalkDecodesExactlyTheCodedStrings : Prop :=
  ∀ (node : Vector Node 511) (count : BitVec 10) (root : BitVec 9) (k : Walk) (cap : Nat) (bits : Bits) (out : List Byte),
    deriveCodes node count root = .ok k →
    (walkDecode node root.toNat cap bits = .ok out ↔
      out.length ≤ cap ∧ (∀ b ∈ out, codeAt k.code b ≠ []) ∧ bits = out.flatMap (fun b => codeAt k.code b))

/-- DEC of a stream that unpacks to the codes of some bytes, under a valid tree and with room: the destination holds those
bytes, RES_LEN is their number and RES_BITS the bit count, every other DMEM byte reads as before, and nothing else changes. A
stream of no bits needs no tree (`45_decoder.md` R160, R161). -/
def Obligations.DecRecoversTheCodedBytes : Prop :=
  ∀ (s : State) (k : Walk) (out : List Byte), s.dmem.wf →
    let o := s.operands
    let bits := out.flatMap (fun b => codeAt k.code b)
    RegionsOk s.dmemSize o o.srcLen.toNat →
    unpackBytes (s.dmem.readBytes o.srcAddr.toNat o.srcLen.toNat) = .ok bits →
    (out = [] ∨ s.status.treeValid = true) → deriveCodes s.node s.nodeCount s.root = .ok k ∨ out = [] →
    (∀ b ∈ out, codeAt k.code b ≠ []) → out.length ≤ o.dstCap.toNat →
    ∃ t, exec .dec s = .next t ∧ CompletedOk t out.length bits.length ∧
      t.dmem.readBytes o.dstAddr.toNat out.length = out ∧
      DmemKeptOutside o.dstAddr.toNat out.length s t ∧ HostSideKept s t ∧ TreeKept s t ∧ t.freq = s.freq

/-- DEC's errors after a well-formed header (`45_decoder.md` R160 to R163): NO_TREE(0), with DMEM unchanged, for data without
a valid tree; MALFORMED(8 + L) for a stream of L bits that ends inside a code; MALFORMED(8 + i) at the first 1 bit i under a
single-leaf tree; OUT_OVF(8 + i) when the symbol that logical bit i completes does not fit. -/
def Obligations.DecErrorsInBitOrder : Prop :=
  ∀ (s : State) (k : Walk) (bits : Bits),
    let o := s.operands
    RegionsOk s.dmemSize o o.srcLen.toNat →
    unpackBytes (s.dmem.readBytes o.srcAddr.toNat o.srcLen.toNat) = .ok bits → bits ≠ [] →
    (s.status.treeValid = false →
      ∃ t, exec .dec s = .next t ∧ CompletedErr t .noTree 0 ∧ t.dmem = s.dmem ∧ HostSideKept s t ∧ TreeKept s t) ∧
    (s.status.treeValid = true → deriveCodes s.node s.nodeCount s.root = .ok k →
      (∀ (out : List Byte) (rest : Bits) (b : Byte), (∀ c ∈ out, codeAt k.code c ≠ []) → out.length ≤ o.dstCap.toNat →
        rest ≠ [] → rest <+: codeAt k.code b → rest ≠ codeAt k.code b →
        bits = out.flatMap (fun c => codeAt k.code c) ++ rest →
        ∃ t, exec .dec s = .next t ∧ CompletedErr t .malformed (8 + bits.length)) ∧
      (∀ i, (nodeAt s.node s.root.toNat).internal = false → i ≤ o.dstCap.toNat →
        bits[i]? = some true → (∀ j, j < i → bits[j]? = some false) →
        ∃ t, exec .dec s = .next t ∧ CompletedErr t .malformed (8 + i)) ∧
      (∀ (out : List Byte) (b : Byte) (rest : Bits), (∀ c ∈ out, codeAt k.code c ≠ []) → codeAt k.code b ≠ [] →
        out.length = o.dstCap.toNat →
        bits = out.flatMap (fun c => codeAt k.code c) ++ codeAt k.code b ++ rest →
        ∃ t, exec .dec s = .next t ∧
          CompletedErr t .outOvf (8 + ((out.flatMap (fun c => codeAt k.code c) ++ codeAt k.code b).length - 1))))

/-- The round trip of HCB (`45_decoder.md` R164): when COMP over a byte sequence S completes without error, DEC of its output
completes without error and gives S back, with RES_LEN its length and RES_BITS the same as COMP's, whether the tree is the one
COMP left or the one BUILD makes of COMP's FREQ on another machine, and wherever the stream then stands. -/
def Obligations.DecodeInvertsCompress : Prop :=
  ∀ (s t v : State) (o : Latched), s.dmem.wf → v.dmem.wf →
    let src := s.dmem.readBytes s.operands.srcAddr.toNat s.operands.srcLen.toNat
    let stream := t.dmem.readBytes s.operands.dstAddr.toNat t.resLen.toNat
    exec .comp s = .next t → t.status.err = false →
    ((v.node = t.node ∧ v.root = t.root ∧ v.status.treeValid = t.status.treeValid) ∨
      ∃ v0 v1, v0.freq = t.freq ∧ exec .build v0 = .next v1 ∧ v.node = v1.node ∧ v.root = v1.root ∧
        v.status.treeValid = v1.status.treeValid) →
    v.dmem.readBytes o.srcAddr.toNat o.srcLen.toNat = stream →
    RegionsOk v.dmemSize o o.srcLen.toNat → src.length ≤ o.dstCap.toNat →
    ∃ u, exec .dec { v with engine := some o } = .next u ∧ u.status.err = false ∧
      u.dmem.readBytes o.dstAddr.toNat u.resLen.toNat = src ∧ u.resLen.toNat = src.length ∧ u.resBits = t.resBits

/-! ### Invariants -/

/-- Every step keeps the invariant of the state: DMEM in canonical form and inside DMEM_SIZE, codes of at most 255 bits
(`10_state.md` R43), an idle engine in reset, and the relations of the status bits and result registers (`10_state.md` R26,
R27, `60_exceptions.md` R171, R172). The canonical form is the model's own representation. -/
def Obligations.StepKeepsTheStateInvariant : Prop :=
  ∀ s t : State, s.Inv → step s = .next t → t.Inv

/-- The invariants hold right after reset (the memory contents there are the model's choice, log 2). -/
def Obligations.ResetMeetsTheInvariants : Prop :=
  State.reset.Inv ∧ State.reset.TableSound ∧ State.reset.TreeSound

/-- Every step keeps the meaning of CT_VALID: while it is 1, CODE is the table CGEN derives from the tree in the arena, and
SYM_COUNT its number of leaves (`10_state.md` R27). -/
def Obligations.StepKeepsTheCodeTableSound : Prop :=
  ∀ s t : State, s.TableSound → step s = .next t → t.TableSound

/-- Every step keeps the meaning of TREE_VALID: while it is 1, the arena, NODE_COUNT and ROOT hold a valid tree
(`10_state.md` R27, `41_tree_builder.md` R124, `42_code_table.md` R132). -/
def Obligations.StepKeepsTheTreeSound : Prop :=
  ∀ s t : State, s.TreeSound → step s = .next t → t.TreeSound
end

