-- ==== Sys2Proof/Laws/Bits.lean ====
section
/-! SUPPORT. The laws of bit strings and bytes: lengths, and that bytes and bits convert back and forth
(`00_scope.md` R10, `20_memory.md` R66). -/

namespace Sys2Proof.Machine

@[simp] theorem zeros_length (n : Nat) : (zeros n).length = n := by simp [zeros]

@[simp] theorem byteBits_length (b : Byte) : (byteBits b).length = 8 := rfl

@[simp] theorem flatMap_byteBits_length (bs : List Byte) : (bs.flatMap byteBits).length = 8 * bs.length := by
  induction bs with
  | nil => rfl
  | cons b bs ih => simp [ih]; omega

/-- `bytes_to_bits(B, L)` has L bits when B has enough of them. -/
theorem bytesToBits_length (bs : List Byte) (n : Nat) : (bytesToBits bs n).length = min n (8 * bs.length) := by
  rw [bytesToBits, List.length_take, flatMap_byteBits_length]

/-- Bit j of a packed sequence is bit 7 - j mod 8 of byte j div 8 (`20_memory.md` R66). -/
theorem bytesToBits_getElem? (bs : List Byte) {n j : Nat} (hj : j < n) :
    (bytesToBits bs n)[j]? = bs[j / 8]?.map (fun b => b.getMsbD (j % 8)) := by
  have main : ∀ (bs : List Byte) (j : Nat),
      (bs.flatMap byteBits)[j]? = bs[j / 8]?.map (fun b => b.getMsbD (j % 8)) := by
    intro bs
    induction bs with
    | nil => intro j; simp
    | cons b bs ih =>
      intro j
      rw [List.flatMap_cons]
      by_cases h : j < 8
      · rw [List.getElem?_append_left (by simpa using h)]
        interval_cases j <;> rfl
      · rw [List.getElem?_append_right (by simpa using h), byteBits_length, ih]
        rw [show j / 8 = (j - 8) / 8 + 1 by omega, show (j - 8) % 8 = j % 8 by omega]
        simp
  rw [bytesToBits, List.getElem?_take, if_pos hj, main]

/-- Eight bits make a byte with those bits, MSB first. -/
theorem byteBits_byteOfBits : ∀ b0 b1 b2 b3 b4 b5 b6 b7 : Bool,
    byteBits (byteOfBits [b0, b1, b2, b3, b4, b5, b6, b7]) = [b0, b1, b2, b3, b4, b5, b6, b7] := by
  decide

/-- A byte is made of its bits. -/
theorem byteOfBits_byteBits (b : Byte) : byteOfBits (byteBits b) = b := by
  revert b; decide

/-- Induction on a bit string in pieces of eight. -/
theorem bits_by_eight {motive : Bits → Prop} (nil : motive [])
    (cons : ∀ b0 b1 b2 b3 b4 b5 b6 b7 rest, motive rest → motive (b0 :: b1 :: b2 :: b3 :: b4 :: b5 :: b6 :: b7 :: rest)) :
    ∀ b : Bits, b.length % 8 = 0 → motive b
  | [], _ => nil
  | b0 :: b1 :: b2 :: b3 :: b4 :: b5 :: b6 :: b7 :: rest, h =>
    cons b0 b1 b2 b3 b4 b5 b6 b7 rest (bits_by_eight nil cons rest (by simp only [List.length_cons] at h; omega))
  | [_], h => by simp at h
  | [_, _], h => by simp at h
  | [_, _, _], h => by simp at h
  | [_, _, _, _], h => by simp at h
  | [_, _, _, _, _], h => by simp at h
  | [_, _, _, _, _, _], h => by simp at h
  | [_, _, _, _, _, _, _], h => by simp at h

/-- The size of `bits_to_bytes`. -/
theorem bitsToBytes_length (b : Bits) (h : b.length % 8 = 0) : (bitsToBytes b).length = b.length / 8 := by
  refine bits_by_eight (motive := fun b => (bitsToBytes b).length = b.length / 8) rfl ?_ b h
  intro b0 b1 b2 b3 b4 b5 b6 b7 rest ih
  simp only [bitsToBytes, List.length_cons, ih]
  omega

/-- The bits of `bits_to_bytes(s)` are s. -/
theorem flatMap_byteBits_bitsToBytes (b : Bits) (h : b.length % 8 = 0) : (bitsToBytes b).flatMap byteBits = b := by
  refine bits_by_eight (motive := fun b => (bitsToBytes b).flatMap byteBits = b) rfl ?_ b h
  intro b0 b1 b2 b3 b4 b5 b6 b7 rest ih
  simp only [bitsToBytes, List.flatMap_cons, byteBits_byteOfBits, ih]
  rfl

/-- `bits_to_bytes` of the bits of some bytes gives the bytes. -/
theorem bitsToBytes_flatMap_byteBits (bs : List Byte) : bitsToBytes (bs.flatMap byteBits) = bs := by
  induction bs with
  | nil => rfl
  | cons b bs ih =>
    show byteOfBits (byteBits b) :: bitsToBytes (bs.flatMap byteBits) = b :: bs
    rw [byteOfBits_byteBits, ih]

/-- The padding makes the length a multiple of 8 (`43_bit_packer.md` R140). -/
theorem padCount_aligns (len : Nat) (mode : Bool) : (len + padCount len mode) % 8 = 0 := by
  cases mode <;> simp only [padCount, if_true, if_false, Bool.false_eq_true] <;> omega

theorem padCount_le (len : Nat) (mode : Bool) : padCount len mode ≤ 8 := by
  cases mode <;> simp only [padCount, if_true, if_false, Bool.false_eq_true] <;> omega

/-- Bits that are a whole number of bytes fit in `ceil8` of them. -/
theorem le_eight_ceil8 (n : Nat) : n ≤ 8 * ceil8 n := by unfold ceil8; omega

end Sys2Proof.Machine
end

