-- ==== Sys2Proof/Laws/Memory.lean ====
section
/-! SUPPORT. The laws of DMEM: read after write, what a write leaves, and that every operation keeps the canonical form. -/

namespace Sys2Proof.Machine

theorem Memory.read_cons (a : Nat) (v : Byte) (m : Memory) (x : Nat) (hm : ∀ c ∈ m, a < c.1) :
    Memory.read (Memory.cons a v m) x = if x = a then v else Memory.read m x := by
  have none_at : ∀ m : Memory, (∀ c ∈ m, a < c.1) → Memory.read m a = Config.unwrittenByte := by
    intro m
    induction m with
    | nil => intro _; rfl
    | cons c m ih =>
      intro h
      have hc := h c (by simp)
      have : ¬ c.1 = a := by omega
      simp only [Memory.read, this, if_false]
      exact ih (fun d hd => h d (by simp [hd]))
  unfold Memory.cons
  split
  · next hv =>
    split
    · next hx => rw [hx, none_at m hm, hv]
    · rfl
  · simp only [Memory.read]
    split
    · next hx => simp [hx]
    · next hx => simp [Ne.symm hx]

/-- A write changes no other byte, whatever the list. -/
theorem Memory.read_write_ne (m : Memory) (a : Nat) (v : Byte) {x : Nat} (hx : x ≠ a) :
    Memory.read (Memory.write m a v) x = Memory.read m x := by
  have cons_ne : ∀ m : Memory, Memory.read (Memory.cons a v m) x = Memory.read m x := by
    intro m
    unfold Memory.cons
    split
    · rfl
    · simp [Memory.read, Ne.symm hx]
  induction m with
  | nil => exact cons_ne []
  | cons c m ih =>
    obtain ⟨k, y⟩ := c
    simp only [Memory.write]
    split
    · exact cons_ne _
    · split
      · next hk => rw [cons_ne]; simp [Memory.read, ← hk, Ne.symm hx]
      · simp only [Memory.read, ih]

/-- In canonical form a write is read back (`20_memory.md` R74). -/
theorem Memory.read_write_same {m : Memory} (h : m.wf) (a : Nat) (v : Byte) : Memory.read (Memory.write m a v) a = v := by
  induction m with
  | nil => simp [Memory.write, Memory.read_cons]
  | cons c m ih =>
    obtain ⟨k, y⟩ := c
    obtain ⟨hp, hv⟩ := h
    rw [List.pairwise_cons] at hp
    simp only [Memory.write]
    split
    · next hk =>
      rw [Memory.read_cons _ _ _ _ (by
        intro c hc
        rcases List.mem_cons.1 hc with rfl | hc
        · exact hk
        · have := hp.1 c hc; simp only at this; omega)]
      simp
    · split
      · next hk => rw [Memory.read_cons _ _ _ _ (by intro c hc; have := hp.1 c hc; simp only at this; omega)]; simp
      · next h1 h2 =>
        have : ¬ k = a := fun e => h2 e.symm
        simp only [Memory.read, this, if_false]
        exact ih ⟨hp.2, fun c hc => hv c (by simp [hc])⟩

theorem Memory.mem_cons {a : Nat} {v : Byte} {m : Memory} {c : Host.Cell} (h : c ∈ Memory.cons a v m) :
    (c = (a, v) ∧ v ≠ Config.unwrittenByte) ∨ c ∈ m := by
  unfold Memory.cons at h
  split at h
  · exact Or.inr h
  · next hv =>
    rcases List.mem_cons.1 h with h | h
    · exact Or.inl ⟨h, hv⟩
    · exact Or.inr h

/-- What a write can put in the list. -/
theorem Memory.mem_write {m : Memory} {a : Nat} {v : Byte} {c : Host.Cell} (h : c ∈ Memory.write m a v) :
    (c = (a, v) ∧ v ≠ Config.unwrittenByte) ∨ c ∈ m := by
  induction m with
  | nil => exact Memory.mem_cons h
  | cons d m ih =>
    obtain ⟨k, y⟩ := d
    simp only [Memory.write] at h
    split at h
    · exact Memory.mem_cons h
    · split at h
      · rcases Memory.mem_cons h with h | h
        · exact Or.inl h
        · exact Or.inr (by simp [h])
      · rcases List.mem_cons.1 h with h | h
        · exact Or.inr (by simp [h])
        · rcases ih h with h | h
          · exact Or.inl h
          · exact Or.inr (by simp [h])

theorem Memory.cons_wf {a : Nat} {v : Byte} {m : Memory} (h : m.wf) (hm : ∀ c ∈ m, a < c.1) : (Memory.cons a v m).wf := by
  unfold Memory.cons
  split
  · exact h
  · next hv =>
    refine ⟨List.pairwise_cons.2 ⟨hm, h.1⟩, ?_⟩
    intro c hc
    rcases List.mem_cons.1 hc with rfl | hc
    · exact hv
    · exact h.2 c hc

/-- A write keeps the canonical form. -/
theorem Memory.write_wf {m : Memory} (h : m.wf) (a : Nat) (v : Byte) : (Memory.write m a v).wf := by
  induction m with
  | nil => exact Memory.cons_wf h (by simp)
  | cons d m ih =>
    obtain ⟨k, y⟩ := d
    obtain ⟨hp, hv⟩ := h
    have hp' := List.pairwise_cons.1 hp
    have hm : Memory.wf m := ⟨hp'.2, fun c hc => hv c (by simp [hc])⟩
    simp only [Memory.write]
    split
    · next hk =>
      refine Memory.cons_wf ⟨hp, hv⟩ ?_
      intro c hc
      rcases List.mem_cons.1 hc with rfl | hc
      · exact hk
      · have := hp'.1 c hc; simp only at this; omega
    · split
      · next hk => exact Memory.cons_wf hm (by intro c hc; have := hp'.1 c hc; simp only at this; omega)
      · next h1 h2 =>
        have ih' := ih hm
        refine ⟨List.pairwise_cons.2 ⟨?_, ih'.1⟩, ?_⟩
        · intro c hc
          rcases Memory.mem_write hc with ⟨rfl, _⟩ | hc
          · simp only; omega
          · exact hp'.1 c hc
        · intro c hc
          rcases List.mem_cons.1 hc with rfl | hc
          · exact hv _ (by simp)
          · exact ih'.2 c hc

/-! ### Runs of bytes -/

theorem Memory.writeBytes_wf {m : Memory} (h : m.wf) (a : Nat) (vs : List Byte) : (Memory.writeBytes m a vs).wf := by
  induction vs generalizing m a with
  | nil => exact h
  | cons v vs ih => exact ih (Memory.write_wf h a v) (a + 1)

/-- Bytes outside the run are unchanged, whatever the list (`20_memory.md` R68). -/
theorem Memory.read_writeBytes_outside (m : Memory) (a : Nat) (vs : List Byte) {x : Nat}
    (hx : x < a ∨ a + vs.length ≤ x) : Memory.read (Memory.writeBytes m a vs) x = Memory.read m x := by
  induction vs generalizing m a with
  | nil => rfl
  | cons v vs ih =>
    simp only [List.length_cons] at hx
    simp only [Memory.writeBytes]
    rw [ih _ _ (by omega), Memory.read_write_ne _ _ _ (by omega)]

/-- In canonical form the run is read back. -/
theorem Memory.read_writeBytes_inside {m : Memory} (h : m.wf) (a : Nat) (vs : List Byte) {i : Nat} (hi : i < vs.length) :
    Memory.read (Memory.writeBytes m a vs) (a + i) = vs[i] := by
  induction vs generalizing m a i with
  | nil => simp at hi
  | cons v vs ih =>
    simp only [Memory.writeBytes]
    cases i with
    | zero => rw [Memory.read_writeBytes_outside _ _ _ (by omega)]; simpa using Memory.read_write_same h a v
    | succ i =>
      rw [show a + (i + 1) = a + 1 + i by omega, ih (Memory.write_wf h a v)]
      · simp
      · simpa using hi

@[simp] theorem Memory.readBytes_length (m : Memory) (a n : Nat) : (Memory.readBytes m a n).length = n := by
  simp [Memory.readBytes]

theorem Memory.readBytes_getElem? (m : Memory) (a n i : Nat) :
    (Memory.readBytes m a n)[i]? = if i < n then some (Memory.read m (a + i)) else none := by
  by_cases h : i < n <;> simp [Memory.readBytes, h]

/-- Two memories that agree on a region read the same bytes from it. -/
theorem Memory.readBytes_congr {m m' : Memory} {a n : Nat} (h : ∀ i, i < n → m.read (a + i) = m'.read (a + i)) :
    m.readBytes a n = m'.readBytes a n := by
  unfold Memory.readBytes
  exact List.map_congr_left (fun i hi => h i (List.mem_range.1 hi))

/-- In canonical form, what was written is what is read (`00_scope.md` R10). -/
theorem Memory.readBytes_writeBytes {m : Memory} (h : m.wf) (a : Nat) (vs : List Byte) :
    Memory.readBytes (Memory.writeBytes m a vs) a vs.length = vs := by
  apply List.ext_getElem (by simp)
  intro i h1 h2
  simp only [Memory.readBytes, List.getElem_map, List.getElem_range]
  exact Memory.read_writeBytes_inside h a vs h2

theorem Memory.mem_writeBytes {m : Memory} {a : Nat} {vs : List Byte} {c : Host.Cell}
    (h : c ∈ Memory.writeBytes m a vs) : (a ≤ c.1 ∧ c.1 < a + vs.length) ∨ c ∈ m := by
  induction vs generalizing m a with
  | nil => exact Or.inr h
  | cons v vs ih =>
    simp only [Memory.writeBytes] at h
    rcases ih h with h | h
    · exact Or.inl (by simp only [List.length_cons]; omega)
    · rcases Memory.mem_write h with ⟨rfl, _⟩ | h
      · exact Or.inl (by simp)
      · exact Or.inr h

/-! ### Draws -/

theorem Memory.drawBytes_wf {m : Memory} (h : m.wf) (e a n : Nat) : (Memory.drawBytes m e a n).wf :=
  Memory.writeBytes_wf h _ _

/-- A draw leaves every byte outside its region (`20_memory.md` R68). -/
theorem Memory.read_drawBytes_outside (m : Memory) (e a n : Nat) {x : Nat} (hx : x < a ∨ a + n ≤ x) :
    Memory.read (Memory.drawBytes m e a n) x = Memory.read m x :=
  Memory.read_writeBytes_outside _ _ _ (by simpa using hx)

theorem Memory.mem_drawBytes {m : Memory} {e a n : Nat} {c : Host.Cell} (h : c ∈ Memory.drawBytes m e a n) :
    (a ≤ c.1 ∧ c.1 < a + n) ∨ c ∈ m := by
  simpa using Memory.mem_writeBytes h

/-! ### Byte lanes -/

/-- A write guarded by its strobe. -/
theorem Memory.writeIf_wf {m : Memory} (h : m.wf) (c : Prop) [Decidable c] (a : Nat) (v : Byte) :
    Memory.wf (if c then m.write a v else m) := by
  split
  · exact Memory.write_wf h a v
  · exact h

theorem Memory.read_writeIf {m : Memory} (h : m.wf) (c : Prop) [Decidable c] (a : Nat) (v : Byte) (x : Nat) :
    Memory.read (if c then m.write a v else m) x = if c ∧ x = a then v else m.read x := by
  by_cases hc : c
  · by_cases hx : x = a
    · subst hx; simp [hc, Memory.read_write_same h]
    · simp [hc, hx, Memory.read_write_ne _ _ _ hx]
  · simp [hc]

theorem Memory.mem_writeIf {m : Memory} {c : Prop} [Decidable c] {a : Nat} {v : Byte} {d : Host.Cell}
    (h : d ∈ (if c then m.write a v else m)) : d.1 = a ∨ d ∈ m := by
  split at h
  · rcases Memory.mem_write h with ⟨rfl, _⟩ | h
    · exact Or.inl rfl
    · exact Or.inr h
  · exact Or.inr h

/-- A lane write, unrolled (`20_memory.md` R64). -/
theorem Memory.writeLanes_eq (m : Memory) (a : Nat) (strb : BitVec 4) (d : Word) :
    Memory.writeLanes m a strb d =
      (let m0 := if strb.getLsbD 0 = true then m.write (a + 0) (laneOf d 0) else m
       let m1 := if strb.getLsbD 1 = true then m0.write (a + 1) (laneOf d 1) else m0
       let m2 := if strb.getLsbD 2 = true then m1.write (a + 2) (laneOf d 2) else m1
       if strb.getLsbD 3 = true then m2.write (a + 3) (laneOf d 3) else m2) := rfl

theorem Memory.writeLanes_wf {m : Memory} (h : m.wf) (a : Nat) (strb : BitVec 4) (d : Word) :
    (Memory.writeLanes m a strb d).wf := by
  rw [Memory.writeLanes_eq]
  exact Memory.writeIf_wf (Memory.writeIf_wf (Memory.writeIf_wf (Memory.writeIf_wf h _ _ _) _ _ _) _ _ _) _ _ _

/-- Lane i of a write with its strobe set is stored at offset a + i, and nothing else changes (`20_memory.md` R64, R65). -/
theorem Memory.read_writeLanes {m : Memory} (h : m.wf) (a : Nat) (strb : BitVec 4) (d : Word) (x : Nat) :
    Memory.read (Memory.writeLanes m a strb d) x =
      if a ≤ x ∧ x < a + 4 ∧ strb.getLsbD (x - a) = true then laneOf d (x - a) else m.read x := by
  rw [Memory.writeLanes_eq]
  have w0 := Memory.writeIf_wf h (strb.getLsbD 0 = true) (a + 0) (laneOf d 0)
  have w1 := Memory.writeIf_wf w0 (strb.getLsbD 1 = true) (a + 1) (laneOf d 1)
  have w2 := Memory.writeIf_wf w1 (strb.getLsbD 2 = true) (a + 2) (laneOf d 2)
  simp only [Memory.read_writeIf w2, Memory.read_writeIf w1, Memory.read_writeIf w0, Memory.read_writeIf h]
  by_cases h0 : x = a + 0
  · subst h0; simp
  by_cases h1 : x = a + 1
  · subst h1; simp
  by_cases h2 : x = a + 2
  · subst h2; simp
  by_cases h3 : x = a + 3
  · subst h3; simp
  · have : ¬ (a ≤ x ∧ x < a + 4 ∧ strb.getLsbD (x - a) = true) := by omega
    simp only [h0, h1, h2, h3, and_false, if_false, this]

theorem Memory.mem_writeLanes {m : Memory} {a : Nat} {strb : BitVec 4} {d : Word} {c : Host.Cell}
    (h : c ∈ Memory.writeLanes m a strb d) : (a ≤ c.1 ∧ c.1 < a + 4) ∨ c ∈ m := by
  rw [Memory.writeLanes_eq] at h
  rcases Memory.mem_writeIf h with h | h
  · omega
  rcases Memory.mem_writeIf h with h | h
  · omega
  rcases Memory.mem_writeIf h with h | h
  · omega
  rcases Memory.mem_writeIf h with h | h
  · omega
  · exact Or.inr h

end Sys2Proof.Machine
end

