-- ==== Sys2Proof/Laws/State.lean ====
section
/-! SUPPORT. For every shared update of State, what each field is after it; the callers never unfold the update. -/

namespace Sys2Proof.Machine

/-! ### `finish` -/

@[simp] theorem State.finish_dmemExp (n b : Nat) (s : State) : (s.finish n b).dmemExp = s.dmemExp := rfl
@[simp] theorem State.finish_ctrl (n b : Nat) (s : State) : (s.finish n b).ctrl = s.ctrl := rfl
@[simp] theorem State.finish_status (n b : Nat) (s : State) : (s.finish n b).status = { s.status with done := true, err := false, errcode := ErrCode.none } := rfl
@[simp] theorem State.finish_srcAddr (n b : Nat) (s : State) : (s.finish n b).srcAddr = s.srcAddr := rfl
@[simp] theorem State.finish_srcLen (n b : Nat) (s : State) : (s.finish n b).srcLen = s.srcLen := rfl
@[simp] theorem State.finish_dstAddr (n b : Nat) (s : State) : (s.finish n b).dstAddr = s.dstAddr := rfl
@[simp] theorem State.finish_dstCap (n b : Nat) (s : State) : (s.finish n b).dstCap = s.dstCap := rfl
@[simp] theorem State.finish_resLen (n b : Nat) (s : State) : (s.finish n b).resLen = BitVec.ofNat 32 n := rfl
@[simp] theorem State.finish_resBits (n b : Nat) (s : State) : (s.finish n b).resBits = BitVec.ofNat 32 b := rfl
@[simp] theorem State.finish_errPos (n b : Nat) (s : State) : (s.finish n b).errPos = 0 := rfl
@[simp] theorem State.finish_nodeCount (n b : Nat) (s : State) : (s.finish n b).nodeCount = s.nodeCount := rfl
@[simp] theorem State.finish_root (n b : Nat) (s : State) : (s.finish n b).root = s.root := rfl
@[simp] theorem State.finish_symCount (n b : Nat) (s : State) : (s.finish n b).symCount = s.symCount := rfl
@[simp] theorem State.finish_ctSel (n b : Nat) (s : State) : (s.finish n b).ctSel = s.ctSel := rfl
@[simp] theorem State.finish_freq (n b : Nat) (s : State) : (s.finish n b).freq = s.freq := rfl
@[simp] theorem State.finish_node (n b : Nat) (s : State) : (s.finish n b).node = s.node := rfl
@[simp] theorem State.finish_code (n b : Nat) (s : State) : (s.finish n b).code = s.code := rfl
@[simp] theorem State.finish_dmem (n b : Nat) (s : State) : (s.finish n b).dmem = s.dmem := rfl
@[simp] theorem State.finish_engine (n b : Nat) (s : State) : (s.finish n b).engine = Option.none := rfl
@[simp] theorem State.finish_inReset (n b : Nat) (s : State) : (s.finish n b).inReset = s.inReset := rfl
@[simp] theorem State.finish_prdata (n b : Nat) (s : State) : (s.finish n b).prdata = s.prdata := rfl
@[simp] theorem State.finish_inputs (n b : Nat) (s : State) : (s.finish n b).inputs = s.inputs := rfl
@[simp] theorem State.finish_draws (n b : Nat) (s : State) : (s.finish n b).draws = s.draws := rfl

/-! ### `raise` -/

@[simp] theorem State.raise_dmemExp (e : ErrCode) (p : Nat) (s : State) : (s.raise e p).dmemExp = s.dmemExp := rfl
@[simp] theorem State.raise_ctrl (e : ErrCode) (p : Nat) (s : State) : (s.raise e p).ctrl = s.ctrl := rfl
@[simp] theorem State.raise_status (e : ErrCode) (p : Nat) (s : State) : (s.raise e p).status = { s.status with done := true, err := true, errcode := e } := rfl
@[simp] theorem State.raise_srcAddr (e : ErrCode) (p : Nat) (s : State) : (s.raise e p).srcAddr = s.srcAddr := rfl
@[simp] theorem State.raise_srcLen (e : ErrCode) (p : Nat) (s : State) : (s.raise e p).srcLen = s.srcLen := rfl
@[simp] theorem State.raise_dstAddr (e : ErrCode) (p : Nat) (s : State) : (s.raise e p).dstAddr = s.dstAddr := rfl
@[simp] theorem State.raise_dstCap (e : ErrCode) (p : Nat) (s : State) : (s.raise e p).dstCap = s.dstCap := rfl
@[simp] theorem State.raise_resLen (e : ErrCode) (p : Nat) (s : State) : (s.raise e p).resLen = 0 := rfl
@[simp] theorem State.raise_resBits (e : ErrCode) (p : Nat) (s : State) : (s.raise e p).resBits = 0 := rfl
@[simp] theorem State.raise_errPos (e : ErrCode) (p : Nat) (s : State) : (s.raise e p).errPos = BitVec.ofNat 32 p := rfl
@[simp] theorem State.raise_nodeCount (e : ErrCode) (p : Nat) (s : State) : (s.raise e p).nodeCount = s.nodeCount := rfl
@[simp] theorem State.raise_root (e : ErrCode) (p : Nat) (s : State) : (s.raise e p).root = s.root := rfl
@[simp] theorem State.raise_symCount (e : ErrCode) (p : Nat) (s : State) : (s.raise e p).symCount = s.symCount := rfl
@[simp] theorem State.raise_ctSel (e : ErrCode) (p : Nat) (s : State) : (s.raise e p).ctSel = s.ctSel := rfl
@[simp] theorem State.raise_freq (e : ErrCode) (p : Nat) (s : State) : (s.raise e p).freq = s.freq := rfl
@[simp] theorem State.raise_node (e : ErrCode) (p : Nat) (s : State) : (s.raise e p).node = s.node := rfl
@[simp] theorem State.raise_code (e : ErrCode) (p : Nat) (s : State) : (s.raise e p).code = s.code := rfl
@[simp] theorem State.raise_dmem (e : ErrCode) (p : Nat) (s : State) : (s.raise e p).dmem = s.dmem := rfl
@[simp] theorem State.raise_engine (e : ErrCode) (p : Nat) (s : State) : (s.raise e p).engine = Option.none := rfl
@[simp] theorem State.raise_inReset (e : ErrCode) (p : Nat) (s : State) : (s.raise e p).inReset = s.inReset := rfl
@[simp] theorem State.raise_prdata (e : ErrCode) (p : Nat) (s : State) : (s.raise e p).prdata = s.prdata := rfl
@[simp] theorem State.raise_inputs (e : ErrCode) (p : Nat) (s : State) : (s.raise e p).inputs = s.inputs := rfl
@[simp] theorem State.raise_draws (e : ErrCode) (p : Nat) (s : State) : (s.raise e p).draws = s.draws := rfl

/-! ### `accept` -/

@[simp] theorem State.accept_dmemExp (w : Word) (s : State) : (s.accept w).dmemExp = s.dmemExp := rfl
@[simp] theorem State.accept_ctrl (w : Word) (s : State) : (s.accept w).ctrl = s.ctrl := rfl
@[simp] theorem State.accept_status (w : Word) (s : State) : (s.accept w).status = { s.status with done := false, err := false, errcode := ErrCode.none } := rfl
@[simp] theorem State.accept_srcAddr (w : Word) (s : State) : (s.accept w).srcAddr = s.srcAddr := rfl
@[simp] theorem State.accept_srcLen (w : Word) (s : State) : (s.accept w).srcLen = s.srcLen := rfl
@[simp] theorem State.accept_dstAddr (w : Word) (s : State) : (s.accept w).dstAddr = s.dstAddr := rfl
@[simp] theorem State.accept_dstCap (w : Word) (s : State) : (s.accept w).dstCap = s.dstCap := rfl
@[simp] theorem State.accept_resLen (w : Word) (s : State) : (s.accept w).resLen = s.resLen := rfl
@[simp] theorem State.accept_resBits (w : Word) (s : State) : (s.accept w).resBits = s.resBits := rfl
@[simp] theorem State.accept_errPos (w : Word) (s : State) : (s.accept w).errPos = s.errPos := rfl
@[simp] theorem State.accept_nodeCount (w : Word) (s : State) : (s.accept w).nodeCount = s.nodeCount := rfl
@[simp] theorem State.accept_root (w : Word) (s : State) : (s.accept w).root = s.root := rfl
@[simp] theorem State.accept_symCount (w : Word) (s : State) : (s.accept w).symCount = s.symCount := rfl
@[simp] theorem State.accept_ctSel (w : Word) (s : State) : (s.accept w).ctSel = s.ctSel := rfl
@[simp] theorem State.accept_freq (w : Word) (s : State) : (s.accept w).freq = s.freq := rfl
@[simp] theorem State.accept_node (w : Word) (s : State) : (s.accept w).node = s.node := rfl
@[simp] theorem State.accept_code (w : Word) (s : State) : (s.accept w).code = s.code := rfl
@[simp] theorem State.accept_dmem (w : Word) (s : State) : (s.accept w).dmem = s.dmem := rfl
@[simp] theorem State.accept_engine (w : Word) (s : State) : (s.accept w).engine = some (s.sample w) := rfl
@[simp] theorem State.accept_inReset (w : Word) (s : State) : (s.accept w).inReset = s.inReset := rfl
@[simp] theorem State.accept_prdata (w : Word) (s : State) : (s.accept w).prdata = s.prdata := rfl
@[simp] theorem State.accept_inputs (w : Word) (s : State) : (s.accept w).inputs = s.inputs := rfl
@[simp] theorem State.accept_draws (w : Word) (s : State) : (s.accept w).draws = s.draws := rfl

/-! ### `drawDst` -/

@[simp] theorem State.drawDst_dmemExp (o : Latched) (s : State) : (s.drawDst o).dmemExp = s.dmemExp := rfl
@[simp] theorem State.drawDst_ctrl (o : Latched) (s : State) : (s.drawDst o).ctrl = s.ctrl := rfl
@[simp] theorem State.drawDst_status (o : Latched) (s : State) : (s.drawDst o).status = s.status := rfl
@[simp] theorem State.drawDst_srcAddr (o : Latched) (s : State) : (s.drawDst o).srcAddr = s.srcAddr := rfl
@[simp] theorem State.drawDst_srcLen (o : Latched) (s : State) : (s.drawDst o).srcLen = s.srcLen := rfl
@[simp] theorem State.drawDst_dstAddr (o : Latched) (s : State) : (s.drawDst o).dstAddr = s.dstAddr := rfl
@[simp] theorem State.drawDst_dstCap (o : Latched) (s : State) : (s.drawDst o).dstCap = s.dstCap := rfl
@[simp] theorem State.drawDst_resLen (o : Latched) (s : State) : (s.drawDst o).resLen = s.resLen := rfl
@[simp] theorem State.drawDst_resBits (o : Latched) (s : State) : (s.drawDst o).resBits = s.resBits := rfl
@[simp] theorem State.drawDst_errPos (o : Latched) (s : State) : (s.drawDst o).errPos = s.errPos := rfl
@[simp] theorem State.drawDst_nodeCount (o : Latched) (s : State) : (s.drawDst o).nodeCount = s.nodeCount := rfl
@[simp] theorem State.drawDst_root (o : Latched) (s : State) : (s.drawDst o).root = s.root := rfl
@[simp] theorem State.drawDst_symCount (o : Latched) (s : State) : (s.drawDst o).symCount = s.symCount := rfl
@[simp] theorem State.drawDst_ctSel (o : Latched) (s : State) : (s.drawDst o).ctSel = s.ctSel := rfl
@[simp] theorem State.drawDst_freq (o : Latched) (s : State) : (s.drawDst o).freq = s.freq := rfl
@[simp] theorem State.drawDst_node (o : Latched) (s : State) : (s.drawDst o).node = s.node := rfl
@[simp] theorem State.drawDst_code (o : Latched) (s : State) : (s.drawDst o).code = s.code := rfl
@[simp] theorem State.drawDst_dmem (o : Latched) (s : State) : (s.drawDst o).dmem = s.dmem.drawBytes s.draws o.dstAddr.toNat (min o.dstCap.toNat (s.dmemSize - o.dstAddr.toNat)) := rfl
@[simp] theorem State.drawDst_engine (o : Latched) (s : State) : (s.drawDst o).engine = s.engine := rfl
@[simp] theorem State.drawDst_inReset (o : Latched) (s : State) : (s.drawDst o).inReset = s.inReset := rfl
@[simp] theorem State.drawDst_prdata (o : Latched) (s : State) : (s.drawDst o).prdata = s.prdata := rfl
@[simp] theorem State.drawDst_inputs (o : Latched) (s : State) : (s.drawDst o).inputs = s.inputs := rfl
@[simp] theorem State.drawDst_draws (o : Latched) (s : State) : (s.drawDst o).draws = s.draws + 1 := rfl

/-! ### `raiseData` -/

@[simp] theorem State.raiseData_dmemExp (o : Latched) (e : ErrCode) (p : Nat) (s : State) : (s.raiseData o e p).dmemExp = s.dmemExp := rfl
@[simp] theorem State.raiseData_ctrl (o : Latched) (e : ErrCode) (p : Nat) (s : State) : (s.raiseData o e p).ctrl = s.ctrl := rfl
@[simp] theorem State.raiseData_status (o : Latched) (e : ErrCode) (p : Nat) (s : State) : (s.raiseData o e p).status = { s.status with done := true, err := true, errcode := e } := rfl
@[simp] theorem State.raiseData_srcAddr (o : Latched) (e : ErrCode) (p : Nat) (s : State) : (s.raiseData o e p).srcAddr = s.srcAddr := rfl
@[simp] theorem State.raiseData_srcLen (o : Latched) (e : ErrCode) (p : Nat) (s : State) : (s.raiseData o e p).srcLen = s.srcLen := rfl
@[simp] theorem State.raiseData_dstAddr (o : Latched) (e : ErrCode) (p : Nat) (s : State) : (s.raiseData o e p).dstAddr = s.dstAddr := rfl
@[simp] theorem State.raiseData_dstCap (o : Latched) (e : ErrCode) (p : Nat) (s : State) : (s.raiseData o e p).dstCap = s.dstCap := rfl
@[simp] theorem State.raiseData_resLen (o : Latched) (e : ErrCode) (p : Nat) (s : State) : (s.raiseData o e p).resLen = 0 := rfl
@[simp] theorem State.raiseData_resBits (o : Latched) (e : ErrCode) (p : Nat) (s : State) : (s.raiseData o e p).resBits = 0 := rfl
@[simp] theorem State.raiseData_errPos (o : Latched) (e : ErrCode) (p : Nat) (s : State) : (s.raiseData o e p).errPos = BitVec.ofNat 32 p := rfl
@[simp] theorem State.raiseData_nodeCount (o : Latched) (e : ErrCode) (p : Nat) (s : State) : (s.raiseData o e p).nodeCount = s.nodeCount := rfl
@[simp] theorem State.raiseData_root (o : Latched) (e : ErrCode) (p : Nat) (s : State) : (s.raiseData o e p).root = s.root := rfl
@[simp] theorem State.raiseData_symCount (o : Latched) (e : ErrCode) (p : Nat) (s : State) : (s.raiseData o e p).symCount = s.symCount := rfl
@[simp] theorem State.raiseData_ctSel (o : Latched) (e : ErrCode) (p : Nat) (s : State) : (s.raiseData o e p).ctSel = s.ctSel := rfl
@[simp] theorem State.raiseData_freq (o : Latched) (e : ErrCode) (p : Nat) (s : State) : (s.raiseData o e p).freq = s.freq := rfl
@[simp] theorem State.raiseData_node (o : Latched) (e : ErrCode) (p : Nat) (s : State) : (s.raiseData o e p).node = s.node := rfl
@[simp] theorem State.raiseData_code (o : Latched) (e : ErrCode) (p : Nat) (s : State) : (s.raiseData o e p).code = s.code := rfl
@[simp] theorem State.raiseData_dmem (o : Latched) (e : ErrCode) (p : Nat) (s : State) : (s.raiseData o e p).dmem = (s.drawDst o).dmem := rfl
@[simp] theorem State.raiseData_engine (o : Latched) (e : ErrCode) (p : Nat) (s : State) : (s.raiseData o e p).engine = Option.none := rfl
@[simp] theorem State.raiseData_inReset (o : Latched) (e : ErrCode) (p : Nat) (s : State) : (s.raiseData o e p).inReset = s.inReset := rfl
@[simp] theorem State.raiseData_prdata (o : Latched) (e : ErrCode) (p : Nat) (s : State) : (s.raiseData o e p).prdata = s.prdata := rfl
@[simp] theorem State.raiseData_inputs (o : Latched) (e : ErrCode) (p : Nat) (s : State) : (s.raiseData o e p).inputs = s.inputs := rfl
@[simp] theorem State.raiseData_draws (o : Latched) (e : ErrCode) (p : Nat) (s : State) : (s.raiseData o e p).draws = s.draws + 1 := rfl

/-! ### `setValid` -/

@[simp] theorem State.setValid_dmemExp (a b : Bool) (s : State) : (s.setValid a b).dmemExp = s.dmemExp := rfl
@[simp] theorem State.setValid_ctrl (a b : Bool) (s : State) : (s.setValid a b).ctrl = s.ctrl := rfl
@[simp] theorem State.setValid_status (a b : Bool) (s : State) : (s.setValid a b).status = { s.status with treeValid := a, ctValid := b } := rfl
@[simp] theorem State.setValid_srcAddr (a b : Bool) (s : State) : (s.setValid a b).srcAddr = s.srcAddr := rfl
@[simp] theorem State.setValid_srcLen (a b : Bool) (s : State) : (s.setValid a b).srcLen = s.srcLen := rfl
@[simp] theorem State.setValid_dstAddr (a b : Bool) (s : State) : (s.setValid a b).dstAddr = s.dstAddr := rfl
@[simp] theorem State.setValid_dstCap (a b : Bool) (s : State) : (s.setValid a b).dstCap = s.dstCap := rfl
@[simp] theorem State.setValid_resLen (a b : Bool) (s : State) : (s.setValid a b).resLen = s.resLen := rfl
@[simp] theorem State.setValid_resBits (a b : Bool) (s : State) : (s.setValid a b).resBits = s.resBits := rfl
@[simp] theorem State.setValid_errPos (a b : Bool) (s : State) : (s.setValid a b).errPos = s.errPos := rfl
@[simp] theorem State.setValid_nodeCount (a b : Bool) (s : State) : (s.setValid a b).nodeCount = s.nodeCount := rfl
@[simp] theorem State.setValid_root (a b : Bool) (s : State) : (s.setValid a b).root = s.root := rfl
@[simp] theorem State.setValid_symCount (a b : Bool) (s : State) : (s.setValid a b).symCount = s.symCount := rfl
@[simp] theorem State.setValid_ctSel (a b : Bool) (s : State) : (s.setValid a b).ctSel = s.ctSel := rfl
@[simp] theorem State.setValid_freq (a b : Bool) (s : State) : (s.setValid a b).freq = s.freq := rfl
@[simp] theorem State.setValid_node (a b : Bool) (s : State) : (s.setValid a b).node = s.node := rfl
@[simp] theorem State.setValid_code (a b : Bool) (s : State) : (s.setValid a b).code = s.code := rfl
@[simp] theorem State.setValid_dmem (a b : Bool) (s : State) : (s.setValid a b).dmem = s.dmem := rfl
@[simp] theorem State.setValid_engine (a b : Bool) (s : State) : (s.setValid a b).engine = s.engine := rfl
@[simp] theorem State.setValid_inReset (a b : Bool) (s : State) : (s.setValid a b).inReset = s.inReset := rfl
@[simp] theorem State.setValid_prdata (a b : Bool) (s : State) : (s.setValid a b).prdata = s.prdata := rfl
@[simp] theorem State.setValid_inputs (a b : Bool) (s : State) : (s.setValid a b).inputs = s.inputs := rfl
@[simp] theorem State.setValid_draws (a b : Bool) (s : State) : (s.setValid a b).draws = s.draws := rfl

/-! ### `accessError` -/

@[simp] theorem State.accessError_dmemExp (s : State) : (s.accessError).dmemExp = s.dmemExp := rfl
@[simp] theorem State.accessError_ctrl (s : State) : (s.accessError).ctrl = s.ctrl := rfl
@[simp] theorem State.accessError_status (s : State) : (s.accessError).status = { s.status with accErr := true } := rfl
@[simp] theorem State.accessError_srcAddr (s : State) : (s.accessError).srcAddr = s.srcAddr := rfl
@[simp] theorem State.accessError_srcLen (s : State) : (s.accessError).srcLen = s.srcLen := rfl
@[simp] theorem State.accessError_dstAddr (s : State) : (s.accessError).dstAddr = s.dstAddr := rfl
@[simp] theorem State.accessError_dstCap (s : State) : (s.accessError).dstCap = s.dstCap := rfl
@[simp] theorem State.accessError_resLen (s : State) : (s.accessError).resLen = s.resLen := rfl
@[simp] theorem State.accessError_resBits (s : State) : (s.accessError).resBits = s.resBits := rfl
@[simp] theorem State.accessError_errPos (s : State) : (s.accessError).errPos = s.errPos := rfl
@[simp] theorem State.accessError_nodeCount (s : State) : (s.accessError).nodeCount = s.nodeCount := rfl
@[simp] theorem State.accessError_root (s : State) : (s.accessError).root = s.root := rfl
@[simp] theorem State.accessError_symCount (s : State) : (s.accessError).symCount = s.symCount := rfl
@[simp] theorem State.accessError_ctSel (s : State) : (s.accessError).ctSel = s.ctSel := rfl
@[simp] theorem State.accessError_freq (s : State) : (s.accessError).freq = s.freq := rfl
@[simp] theorem State.accessError_node (s : State) : (s.accessError).node = s.node := rfl
@[simp] theorem State.accessError_code (s : State) : (s.accessError).code = s.code := rfl
@[simp] theorem State.accessError_dmem (s : State) : (s.accessError).dmem = s.dmem := rfl
@[simp] theorem State.accessError_engine (s : State) : (s.accessError).engine = s.engine := rfl
@[simp] theorem State.accessError_inReset (s : State) : (s.accessError).inReset = s.inReset := rfl
@[simp] theorem State.accessError_prdata (s : State) : (s.accessError).prdata = s.prdata := rfl
@[simp] theorem State.accessError_inputs (s : State) : (s.accessError).inputs = s.inputs := rfl
@[simp] theorem State.accessError_draws (s : State) : (s.accessError).draws = s.draws := rfl

/-! ### `commandOverrun` -/

@[simp] theorem State.commandOverrun_dmemExp (s : State) : (s.commandOverrun).dmemExp = s.dmemExp := rfl
@[simp] theorem State.commandOverrun_ctrl (s : State) : (s.commandOverrun).ctrl = s.ctrl := rfl
@[simp] theorem State.commandOverrun_status (s : State) : (s.commandOverrun).status = { s.status with cmdOvr := true } := rfl
@[simp] theorem State.commandOverrun_srcAddr (s : State) : (s.commandOverrun).srcAddr = s.srcAddr := rfl
@[simp] theorem State.commandOverrun_srcLen (s : State) : (s.commandOverrun).srcLen = s.srcLen := rfl
@[simp] theorem State.commandOverrun_dstAddr (s : State) : (s.commandOverrun).dstAddr = s.dstAddr := rfl
@[simp] theorem State.commandOverrun_dstCap (s : State) : (s.commandOverrun).dstCap = s.dstCap := rfl
@[simp] theorem State.commandOverrun_resLen (s : State) : (s.commandOverrun).resLen = s.resLen := rfl
@[simp] theorem State.commandOverrun_resBits (s : State) : (s.commandOverrun).resBits = s.resBits := rfl
@[simp] theorem State.commandOverrun_errPos (s : State) : (s.commandOverrun).errPos = s.errPos := rfl
@[simp] theorem State.commandOverrun_nodeCount (s : State) : (s.commandOverrun).nodeCount = s.nodeCount := rfl
@[simp] theorem State.commandOverrun_root (s : State) : (s.commandOverrun).root = s.root := rfl
@[simp] theorem State.commandOverrun_symCount (s : State) : (s.commandOverrun).symCount = s.symCount := rfl
@[simp] theorem State.commandOverrun_ctSel (s : State) : (s.commandOverrun).ctSel = s.ctSel := rfl
@[simp] theorem State.commandOverrun_freq (s : State) : (s.commandOverrun).freq = s.freq := rfl
@[simp] theorem State.commandOverrun_node (s : State) : (s.commandOverrun).node = s.node := rfl
@[simp] theorem State.commandOverrun_code (s : State) : (s.commandOverrun).code = s.code := rfl
@[simp] theorem State.commandOverrun_dmem (s : State) : (s.commandOverrun).dmem = s.dmem := rfl
@[simp] theorem State.commandOverrun_engine (s : State) : (s.commandOverrun).engine = s.engine := rfl
@[simp] theorem State.commandOverrun_inReset (s : State) : (s.commandOverrun).inReset = s.inReset := rfl
@[simp] theorem State.commandOverrun_prdata (s : State) : (s.commandOverrun).prdata = s.prdata := rfl
@[simp] theorem State.commandOverrun_inputs (s : State) : (s.commandOverrun).inputs = s.inputs := rfl
@[simp] theorem State.commandOverrun_draws (s : State) : (s.commandOverrun).draws = s.draws := rfl

/-! ### `clearFreq` -/

@[simp] theorem clearFreq_dmemExp (s : State) : (clearFreq s).dmemExp = s.dmemExp := rfl
@[simp] theorem clearFreq_ctrl (s : State) : (clearFreq s).ctrl = s.ctrl := rfl
@[simp] theorem clearFreq_status (s : State) : (clearFreq s).status = s.status := rfl
@[simp] theorem clearFreq_srcAddr (s : State) : (clearFreq s).srcAddr = s.srcAddr := rfl
@[simp] theorem clearFreq_srcLen (s : State) : (clearFreq s).srcLen = s.srcLen := rfl
@[simp] theorem clearFreq_dstAddr (s : State) : (clearFreq s).dstAddr = s.dstAddr := rfl
@[simp] theorem clearFreq_dstCap (s : State) : (clearFreq s).dstCap = s.dstCap := rfl
@[simp] theorem clearFreq_resLen (s : State) : (clearFreq s).resLen = s.resLen := rfl
@[simp] theorem clearFreq_resBits (s : State) : (clearFreq s).resBits = s.resBits := rfl
@[simp] theorem clearFreq_errPos (s : State) : (clearFreq s).errPos = s.errPos := rfl
@[simp] theorem clearFreq_nodeCount (s : State) : (clearFreq s).nodeCount = s.nodeCount := rfl
@[simp] theorem clearFreq_root (s : State) : (clearFreq s).root = s.root := rfl
@[simp] theorem clearFreq_symCount (s : State) : (clearFreq s).symCount = s.symCount := rfl
@[simp] theorem clearFreq_ctSel (s : State) : (clearFreq s).ctSel = s.ctSel := rfl
@[simp] theorem clearFreq_freq (s : State) : (clearFreq s).freq = clearedFreq := rfl
@[simp] theorem clearFreq_node (s : State) : (clearFreq s).node = s.node := rfl
@[simp] theorem clearFreq_code (s : State) : (clearFreq s).code = s.code := rfl
@[simp] theorem clearFreq_dmem (s : State) : (clearFreq s).dmem = s.dmem := rfl
@[simp] theorem clearFreq_engine (s : State) : (clearFreq s).engine = s.engine := rfl
@[simp] theorem clearFreq_inReset (s : State) : (clearFreq s).inReset = s.inReset := rfl
@[simp] theorem clearFreq_prdata (s : State) : (clearFreq s).prdata = s.prdata := rfl
@[simp] theorem clearFreq_inputs (s : State) : (clearFreq s).inputs = s.inputs := rfl
@[simp] theorem clearFreq_draws (s : State) : (clearFreq s).draws = s.draws := rfl

/-! ### `clearForEmpty` -/

@[simp] theorem clearForEmpty_dmemExp (s : State) : (clearForEmpty s).dmemExp = s.dmemExp := rfl
@[simp] theorem clearForEmpty_ctrl (s : State) : (clearForEmpty s).ctrl = s.ctrl := rfl
@[simp] theorem clearForEmpty_status (s : State) : (clearForEmpty s).status = { s.status with treeValid := false, ctValid := false } := rfl
@[simp] theorem clearForEmpty_srcAddr (s : State) : (clearForEmpty s).srcAddr = s.srcAddr := rfl
@[simp] theorem clearForEmpty_srcLen (s : State) : (clearForEmpty s).srcLen = s.srcLen := rfl
@[simp] theorem clearForEmpty_dstAddr (s : State) : (clearForEmpty s).dstAddr = s.dstAddr := rfl
@[simp] theorem clearForEmpty_dstCap (s : State) : (clearForEmpty s).dstCap = s.dstCap := rfl
@[simp] theorem clearForEmpty_resLen (s : State) : (clearForEmpty s).resLen = s.resLen := rfl
@[simp] theorem clearForEmpty_resBits (s : State) : (clearForEmpty s).resBits = s.resBits := rfl
@[simp] theorem clearForEmpty_errPos (s : State) : (clearForEmpty s).errPos = s.errPos := rfl
@[simp] theorem clearForEmpty_nodeCount (s : State) : (clearForEmpty s).nodeCount = s.nodeCount := rfl
@[simp] theorem clearForEmpty_root (s : State) : (clearForEmpty s).root = s.root := rfl
@[simp] theorem clearForEmpty_symCount (s : State) : (clearForEmpty s).symCount = 0 := rfl
@[simp] theorem clearForEmpty_ctSel (s : State) : (clearForEmpty s).ctSel = s.ctSel := rfl
@[simp] theorem clearForEmpty_freq (s : State) : (clearForEmpty s).freq = clearedFreq := rfl
@[simp] theorem clearForEmpty_node (s : State) : (clearForEmpty s).node = s.node := rfl
@[simp] theorem clearForEmpty_code (s : State) : (clearForEmpty s).code = clearedCode := rfl
@[simp] theorem clearForEmpty_dmem (s : State) : (clearForEmpty s).dmem = s.dmem := rfl
@[simp] theorem clearForEmpty_engine (s : State) : (clearForEmpty s).engine = s.engine := rfl
@[simp] theorem clearForEmpty_inReset (s : State) : (clearForEmpty s).inReset = s.inReset := rfl
@[simp] theorem clearForEmpty_prdata (s : State) : (clearForEmpty s).prdata = s.prdata := rfl
@[simp] theorem clearForEmpty_inputs (s : State) : (clearForEmpty s).inputs = s.inputs := rfl
@[simp] theorem clearForEmpty_draws (s : State) : (clearForEmpty s).draws = s.draws := rfl

/-! ### `popInput` -/

@[simp] theorem State.popInput_dmemExp (s : State) : (s.popInput).dmemExp = s.dmemExp := rfl
@[simp] theorem State.popInput_ctrl (s : State) : (s.popInput).ctrl = s.ctrl := rfl
@[simp] theorem State.popInput_status (s : State) : (s.popInput).status = s.status := rfl
@[simp] theorem State.popInput_srcAddr (s : State) : (s.popInput).srcAddr = s.srcAddr := rfl
@[simp] theorem State.popInput_srcLen (s : State) : (s.popInput).srcLen = s.srcLen := rfl
@[simp] theorem State.popInput_dstAddr (s : State) : (s.popInput).dstAddr = s.dstAddr := rfl
@[simp] theorem State.popInput_dstCap (s : State) : (s.popInput).dstCap = s.dstCap := rfl
@[simp] theorem State.popInput_resLen (s : State) : (s.popInput).resLen = s.resLen := rfl
@[simp] theorem State.popInput_resBits (s : State) : (s.popInput).resBits = s.resBits := rfl
@[simp] theorem State.popInput_errPos (s : State) : (s.popInput).errPos = s.errPos := rfl
@[simp] theorem State.popInput_nodeCount (s : State) : (s.popInput).nodeCount = s.nodeCount := rfl
@[simp] theorem State.popInput_root (s : State) : (s.popInput).root = s.root := rfl
@[simp] theorem State.popInput_symCount (s : State) : (s.popInput).symCount = s.symCount := rfl
@[simp] theorem State.popInput_ctSel (s : State) : (s.popInput).ctSel = s.ctSel := rfl
@[simp] theorem State.popInput_freq (s : State) : (s.popInput).freq = s.freq := rfl
@[simp] theorem State.popInput_node (s : State) : (s.popInput).node = s.node := rfl
@[simp] theorem State.popInput_code (s : State) : (s.popInput).code = s.code := rfl
@[simp] theorem State.popInput_dmem (s : State) : (s.popInput).dmem = s.dmem := rfl
@[simp] theorem State.popInput_engine (s : State) : (s.popInput).engine = s.engine := rfl
@[simp] theorem State.popInput_inReset (s : State) : (s.popInput).inReset = s.inReset := rfl
@[simp] theorem State.popInput_prdata (s : State) : (s.popInput).prdata = s.prdata := rfl
@[simp] theorem State.popInput_inputs (s : State) : (s.popInput).inputs = s.inputs.tail := rfl
@[simp] theorem State.popInput_draws (s : State) : (s.popInput).draws = s.draws := rfl

/-! ### `resetRegisters` -/

@[simp] theorem State.resetRegisters_dmemExp (s : State) : (s.resetRegisters).dmemExp = s.dmemExp := rfl
@[simp] theorem State.resetRegisters_ctrl (s : State) : (s.resetRegisters).ctrl = Ctrl.reset := rfl
@[simp] theorem State.resetRegisters_status (s : State) : (s.resetRegisters).status = Status.reset := rfl
@[simp] theorem State.resetRegisters_srcAddr (s : State) : (s.resetRegisters).srcAddr = 0 := rfl
@[simp] theorem State.resetRegisters_srcLen (s : State) : (s.resetRegisters).srcLen = 0 := rfl
@[simp] theorem State.resetRegisters_dstAddr (s : State) : (s.resetRegisters).dstAddr = 0 := rfl
@[simp] theorem State.resetRegisters_dstCap (s : State) : (s.resetRegisters).dstCap = 0 := rfl
@[simp] theorem State.resetRegisters_resLen (s : State) : (s.resetRegisters).resLen = 0 := rfl
@[simp] theorem State.resetRegisters_resBits (s : State) : (s.resetRegisters).resBits = 0 := rfl
@[simp] theorem State.resetRegisters_errPos (s : State) : (s.resetRegisters).errPos = 0 := rfl
@[simp] theorem State.resetRegisters_nodeCount (s : State) : (s.resetRegisters).nodeCount = 0 := rfl
@[simp] theorem State.resetRegisters_root (s : State) : (s.resetRegisters).root = 0 := rfl
@[simp] theorem State.resetRegisters_symCount (s : State) : (s.resetRegisters).symCount = 0 := rfl
@[simp] theorem State.resetRegisters_ctSel (s : State) : (s.resetRegisters).ctSel = 0 := rfl
@[simp] theorem State.resetRegisters_freq (s : State) : (s.resetRegisters).freq = s.freq := rfl
@[simp] theorem State.resetRegisters_node (s : State) : (s.resetRegisters).node = s.node := rfl
@[simp] theorem State.resetRegisters_code (s : State) : (s.resetRegisters).code = s.code := rfl
@[simp] theorem State.resetRegisters_dmem (s : State) : (s.resetRegisters).dmem = s.dmem := rfl
@[simp] theorem State.resetRegisters_engine (s : State) : (s.resetRegisters).engine = Option.none := rfl
@[simp] theorem State.resetRegisters_inReset (s : State) : (s.resetRegisters).inReset = s.inReset := rfl
@[simp] theorem State.resetRegisters_prdata (s : State) : (s.resetRegisters).prdata = s.prdata := rfl
@[simp] theorem State.resetRegisters_inputs (s : State) : (s.resetRegisters).inputs = s.inputs := rfl
@[simp] theorem State.resetRegisters_draws (s : State) : (s.resetRegisters).draws = s.draws := rfl

/-! ### Derived reads -/

@[simp] theorem State.finish_busy (n b : Nat) (s : State) : (s.finish n b).busy = false := rfl
@[simp] theorem State.raise_busy (e : ErrCode) (p : Nat) (s : State) : (s.raise e p).busy = false := rfl
@[simp] theorem State.accept_busy (w : Word) (s : State) : (s.accept w).busy = true := rfl
@[simp] theorem State.drawDst_dmemSize (o : Latched) (s : State) : (s.drawDst o).dmemSize = s.dmemSize := rfl
@[simp] theorem State.popInput_operands (s : State) : s.popInput.operands = s.operands := rfl
@[simp] theorem State.popInput_dmemSize (s : State) : s.popInput.dmemSize = s.dmemSize := rfl
@[simp] theorem State.popInput_busy (s : State) : s.popInput.busy = s.busy := rfl

/-- With a latched command the operands are the latched ones (`20_memory.md` R70). -/
theorem State.operands_of_latched {s : State} {l : Latched} (h : s.engine = some l) : s.operands = l := by
  simp [State.operands, h]

@[simp] theorem State.operands_withEngine (s : State) (l : Latched) :
    State.operands { s with engine := some l } = l := rfl

/-- DMEM_SIZE lies between 256 and 65536 (`00_scope.md` R7). -/
theorem State.dmemSize_bounds (s : State) : 256 ≤ s.dmemSize ∧ s.dmemSize ≤ 65536 := by
  have h : s.dmemExp.val ≤ 8 := by omega
  constructor
  · calc 256 = 2 ^ 8 := rfl
      _ ≤ 2 ^ (8 + s.dmemExp.val) := Nat.pow_le_pow_right (by decide) (by omega)
  · calc 2 ^ (8 + s.dmemExp.val) ≤ 2 ^ 16 := Nat.pow_le_pow_right (by decide) (by omega)
      _ = 65536 := rfl

/-- DMEM_SIZE is a whole number of bus words (`00_scope.md` R7). -/
theorem State.four_dvd_dmemSize (s : State) : 4 ∣ s.dmemSize := by
  refine ⟨2 ^ (6 + s.dmemExp.val), ?_⟩
  rw [State.dmemSize, show 8 + s.dmemExp.val = 2 + (6 + s.dmemExp.val) by omega, Nat.pow_add]

/-! ### The completion relations -/

theorem State.finish_completedOk (n b : Nat) (s : State) : CompletedOk (s.finish n b) n b :=
  ⟨rfl, rfl, rfl, rfl, rfl, rfl, rfl⟩

theorem State.raise_completedErr (e : ErrCode) (p : Nat) (s : State) : CompletedErr (s.raise e p) e p :=
  ⟨rfl, rfl, rfl, rfl, rfl, rfl, rfl⟩

theorem State.raiseData_completedErr (o : Latched) (e : ErrCode) (p : Nat) (s : State) :
    CompletedErr (s.raiseData o e p) e p :=
  ⟨rfl, rfl, rfl, rfl, rfl, rfl, rfl⟩

/-! ### The frame relations compose -/

theorem HostSideKept.refl (s : State) : HostSideKept s s := by constructor <;> rfl

theorem HostSideKept.trans {s t u : State} (h : HostSideKept s t) (k : HostSideKept t u) : HostSideKept s u := by
  constructor <;> simp [h.dmemExp, h.ctrl, h.srcAddr, h.srcLen, h.dstAddr, h.dstCap, h.ctSel, h.accErr, h.cmdOvr, h.inReset,
    h.prdata, h.inputs, k.dmemExp, k.ctrl, k.srcAddr, k.srcLen, k.dstAddr, k.dstCap, k.ctSel, k.accErr, k.cmdOvr, k.inReset,
    k.prdata, k.inputs]

theorem HostSideKept.finish {s t : State} (h : HostSideKept s t) (n b : Nat) : HostSideKept s (t.finish n b) := by
  cases h; constructor <;> assumption

theorem HostSideKept.raise {s t : State} (h : HostSideKept s t) (e : ErrCode) (p : Nat) : HostSideKept s (t.raise e p) := by
  cases h; constructor <;> assumption

theorem HostSideKept.raiseData {s t : State} (h : HostSideKept s t) (o : Latched) (e : ErrCode) (p : Nat) :
    HostSideKept s (t.raiseData o e p) := by
  cases h; constructor <;> assumption

theorem TreeKept.refl (s : State) : TreeKept s s := by constructor <;> rfl

theorem TreeKept.finish {s t : State} (h : TreeKept s t) (n b : Nat) : TreeKept s (t.finish n b) := by
  cases h; constructor <;> assumption

theorem TreeKept.raise {s t : State} (h : TreeKept s t) (e : ErrCode) (p : Nat) : TreeKept s (t.raise e p) := by
  cases h; constructor <;> assumption

theorem TreeKept.raiseData {s t : State} (h : TreeKept s t) (o : Latched) (e : ErrCode) (p : Nat) :
    TreeKept s (t.raiseData o e p) := by
  cases h; constructor <;> assumption

end Sys2Proof.Machine
end

