-- ==== Sys2Proof/Laws/Tables.lean ====
section
/-! SUPPORT. The laws of the internal memories: what a set, a clear and an overlay read back as. -/

namespace Sys2Proof.Machine

/-- FREQ after one counter is set. -/
theorem freqAt_set (f : Vector Word 256) (a b : Byte) (v : Word) :
    freqAt (f.set a.toNat v a.isLt) b = if b = a then v else freqAt f b := by
  unfold freqAt
  rw [Vector.getElem_set]
  by_cases h : b = a
  · subst h; simp
  · have : ¬ a.toNat = b.toNat := fun e => h (BitVec.eq_of_toNat_eq e.symm)
    simp [h, this]

/-- CODE after one entry is set. -/
theorem codeAt_set (t : Vector Code 256) (a b : Byte) (v : Code) :
    codeAt (t.set a.toNat v a.isLt) b = if b = a then v else codeAt t b := by
  unfold codeAt
  rw [Vector.getElem_set]
  by_cases h : b = a
  · subst h; simp
  · have : ¬ a.toNat = b.toNat := fun e => h (BitVec.eq_of_toNat_eq e.symm)
    simp [h, this]

theorem overlayList_getElem? {α : Type} (xs old : List α) (i : Nat) :
    (overlayList xs old)[i]? = if i < old.length then (if i < xs.length then xs[i]? else old[i]?) else none := by
  induction xs generalizing old i with
  | nil =>
    cases old with
    | nil => simp [overlayList]
    | cons o old => by_cases h : i < (o :: old).length <;> simp_all [overlayList]
  | cons x xs ih =>
    cases old with
    | nil => simp [overlayList]
    | cons o old =>
      cases i with
      | zero => simp [overlayList]
      | succ i => simp [overlayList, ih]

/-- The front of an overlaid table is the new list, the rest the old table (`41_tree_builder.md` R120). -/
theorem overlay_getElem {α : Type} {n : Nat} (xs : List α) (v : Vector α n) (i : Nat) (h : i < n) :
    (overlay xs v)[i] = if hx : i < xs.length then xs[i] else v[i] := by
  have key : (overlayList xs v.toList)[i]? = some (if hx : i < xs.length then xs[i] else v[i]) := by
    rw [overlayList_getElem?]
    by_cases hx : i < xs.length <;> simp [hx, h]
  have : (overlay xs v)[i] = (overlayList xs v.toList)[i]'(by simpa [overlayList_length] using h) := rfl
  rw [this]
  exact Option.some.inj (by rw [← List.getElem?_eq_getElem, key])

/-- `NODE[n]` after the front of the arena is written. -/
theorem nodeAt_overlay (xs : List Node) (v : Vector Node 511) (i : Nat) (h : i < 511) :
    nodeAt (overlay xs v) i = if hx : i < xs.length then xs[i] else nodeAt v i := by
  simp only [nodeAt, h, dif_pos, overlay_getElem]

/-- Entries past the front are unchanged, the absent index included. -/
theorem nodeAt_overlay_above (xs : List Node) (v : Vector Node 511) (i : Nat) (h : xs.length ≤ i) :
    nodeAt (overlay xs v) i = nodeAt v i := by
  by_cases h511 : i < 511
  · rw [nodeAt_overlay _ _ _ h511, dif_neg (by omega)]
  · simp [nodeAt, h511]

end Sys2Proof.Machine
end

