-- ==== Sys2Proof/Laws/Commands.lean ====
section
/-! SUPPORT. What each shared operation of the commands can do, said once; the callers cite these and unfold nothing. -/

namespace Sys2Proof.Machine

/-! ### The region check (`20_memory.md` R67) -/

theorem badRegion_eq_none {size n : Nat} {o : Latched} : badRegion size o n = none ↔ RegionsOk size o n := by
  unfold badRegion
  constructor
  · intro h
    split at h
    · cases h
    split at h
    · cases h
    split at h
    · cases h
    next h1 h2 h3 =>
      refine ⟨by omega, by omega, ?_⟩
      simp only [regionsOverlap, Bool.and_eq_true, decide_eq_true_eq, not_and] at h3
      omega
  · intro ⟨h1, h2, h3⟩
    rw [if_neg (by omega), if_neg (by omega), if_neg]
    simp only [regionsOverlap, Bool.and_eq_true, decide_eq_true_eq]
    omega

/-- The first failing test decides the code (`20_memory.md` R67). -/
theorem badRegion_eq_some {size n p : Nat} {o : Latched} :
    badRegion size o n = some p ↔
      (p = 1 ∧ o.srcAddr.toNat + n > size) ∨
      (p = 2 ∧ ¬ o.srcAddr.toNat + n > size ∧ o.dstAddr.toNat + o.dstCap.toNat > size) ∨
      (p = 3 ∧ ¬ o.srcAddr.toNat + n > size ∧ ¬ o.dstAddr.toNat + o.dstCap.toNat > size ∧
        n > 0 ∧ o.dstCap.toNat > 0 ∧ o.srcAddr.toNat < o.dstAddr.toNat + o.dstCap.toNat ∧
        o.dstAddr.toNat < o.srcAddr.toNat + n) := by
  unfold badRegion
  split
  · next h => simp [h, eq_comm]
  split
  · next h1 h2 => simp [h1, h2, eq_comm]
  split
  · next h1 h2 h3 =>
    simp only [regionsOverlap, Bool.and_eq_true, decide_eq_true_eq] at h3
    simp [h1, h2, h3, eq_comm]
  · next h1 h2 h3 =>
    simp only [regionsOverlap, Bool.and_eq_true, decide_eq_true_eq] at h3
    constructor
    · intro h; cases h
    · rintro (⟨-, h⟩ | ⟨-, -, h⟩ | ⟨-, -, -, h⟩) <;> omega

theorem badSrcRegion_eq_none {size n : Nat} {o : Latched} :
    badSrcRegion size o n = none ↔ o.srcAddr.toNat + n ≤ size := by
  unfold badSrcRegion; split <;> simp <;> omega

theorem badSrcRegion_eq_some {size n p : Nat} {o : Latched} :
    badSrcRegion size o n = some p ↔ p = 1 ∧ o.srcAddr.toNat + n > size := by
  unfold badSrcRegion
  split
  · next h => simp [h, eq_comm]
  · next h => simp [h]

/-! ### Delivering the output (`43_bit_packer.md` R143) -/

/-- Output that fits is written to the start of the destination and the command completes. -/
theorem State.deliver_fits {o : Latched} {out : List Byte} {n : Nat} {s : State} (h : out.length ≤ o.dstCap.toNat) :
    s.deliver o out n = State.finish out.length n { s with dmem := s.dmem.writeBytes o.dstAddr.toNat out } := by
  rw [State.deliver, if_neg (by omega)]

/-- Output that does not fit raises OUT_OVF with the required size. -/
theorem State.deliver_overflows {o : Latched} {out : List Byte} {n : Nat} {s : State} (h : o.dstCap.toNat < out.length) :
    s.deliver o out n = s.raiseData o .outOvf out.length := by
  rw [State.deliver, if_pos h]

/-- Everything `deliver` can do. -/
theorem State.deliver_cases (o : Latched) (out : List Byte) (n : Nat) (s : State) :
    (out.length ≤ o.dstCap.toNat ∧
      s.deliver o out n = State.finish out.length n { s with dmem := s.dmem.writeBytes o.dstAddr.toNat out }) ∨
    (o.dstCap.toNat < out.length ∧ s.deliver o out n = s.raiseData o .outOvf out.length) := by
  rcases Nat.lt_or_ge o.dstCap.toNat out.length with h | h
  · exact Or.inr ⟨h, State.deliver_overflows h⟩
  · exact Or.inl ⟨h, State.deliver_fits h⟩

/-- Delivered output reads back (`20_memory.md` R68). -/
theorem State.readBytes_deliver {o : Latched} {out : List Byte} {n : Nat} {s : State} (hw : s.dmem.wf)
    (h : out.length ≤ o.dstCap.toNat) :
    (s.deliver o out n).dmem.readBytes o.dstAddr.toNat out.length = out := by
  rw [State.deliver_fits h]
  exact Memory.readBytes_writeBytes hw _ _

/-- Delivered output changes no byte outside itself (`20_memory.md` R68). -/
theorem State.deliver_keeps_outside {o : Latched} {out : List Byte} {n : Nat} {s : State}
    (h : out.length ≤ o.dstCap.toNat) :
    DmemKeptOutside o.dstAddr.toNat out.length s (s.deliver o out n) := by
  intro x hx
  rw [State.deliver_fits h]
  exact Memory.read_writeBytes_outside _ _ _ hx

/-- A data-phase error changes no byte outside the destination region (`20_memory.md` R68). -/
theorem State.raiseData_keeps_outside (o : Latched) (e : ErrCode) (p : Nat) (s : State) :
    DmemKeptOutside o.dstAddr.toNat o.dstCap.toNat s (s.raiseData o e p) := by
  intro x hx
  exact Memory.read_drawBytes_outside _ _ _ _ (by omega)

theorem State.deliver_hostSide (o : Latched) (out : List Byte) (n : Nat) (s : State) :
    HostSideKept s (s.deliver o out n) := by
  rcases State.deliver_cases o out n s with ⟨-, h⟩ | ⟨-, h⟩ <;> rw [h] <;> constructor <;> rfl

theorem State.deliver_tree (o : Latched) (out : List Byte) (n : Nat) (s : State) :
    TreeKept s (s.deliver o out n) := by
  rcases State.deliver_cases o out n s with ⟨-, h⟩ | ⟨-, h⟩ <;> rw [h] <;> constructor <;> rfl

@[simp] theorem State.deliver_freq (o : Latched) (out : List Byte) (n : Nat) (s : State) :
    (s.deliver o out n).freq = s.freq := by
  rcases State.deliver_cases o out n s with ⟨-, h⟩ | ⟨-, h⟩ <;> rw [h] <;> rfl

@[simp] theorem State.deliver_dmemSize (o : Latched) (out : List Byte) (n : Nat) (s : State) :
    (s.deliver o out n).dmemSize = s.dmemSize := by
  rcases State.deliver_cases o out n s with ⟨-, h⟩ | ⟨-, h⟩ <;> rw [h] <;> rfl

/-! ### Counting (`40_frequency.md` R111) -/

/-- Counting succeeds when no counter would pass 2^32 - 1, and adds each byte's number of occurrences. -/
theorem countBytes_ok (bs : List Byte) (i : Nat) (f : Vector Word 256)
    (h : ∀ b, (freqAt f b).toNat + bs.count b < 2 ^ 32) :
    ∃ g, countBytes bs i f = .ok g ∧ ∀ b, (freqAt g b).toNat = (freqAt f b).toNat + bs.count b := by
  induction bs generalizing i f with
  | nil => exact ⟨f, rfl, by simp⟩
  | cons c bs ih =>
    have hc := h c
    simp only [List.count_cons_self] at hc
    have hne : ¬ freqAt f c = 0xFFFFFFFF#32 := by
      intro e; rw [e] at hc; simp at hc; omega
    have hadd : (freqAt f c + 1).toNat = (freqAt f c).toNat + 1 := by
      rw [BitVec.toNat_add]; change ((freqAt f c).toNat + 1) % 2 ^ 32 = _; omega
    rw [countBytes, if_neg hne]
    obtain ⟨g, hg, hcount⟩ := ih (i + 1) (f.set c.toNat (freqAt f c + 1) c.isLt) (by
      intro b
      rw [freqAt_set]
      split
      · next e => subst e; rw [hadd]; omega
      · next e => have := h b; rw [List.count_cons_of_ne (fun h => e h.symm)] at this; exact this)
    refine ⟨g, hg, ?_⟩
    intro b
    rw [hcount b, freqAt_set]
    split
    · next e => subst e; rw [hadd]; simp only [List.count_cons_self]; omega
    · next e => rw [List.count_cons_of_ne (fun h => e h.symm)]

/-! ### Looking codes up (`44_encoder.md` R151) -/

/-- When every byte has a code, the logical bits are the codes in order. -/
theorem encodeBytes_ok (code : Vector Code 256) (bs : List Byte) (i : Nat) (h : ∀ b ∈ bs, codeAt code b ≠ []) :
    encodeBytes code bs i = .ok (bs.flatMap (fun b => codeAt code b)) := by
  induction bs generalizing i with
  | nil => rfl
  | cons b bs ih =>
    have hb : ¬ (codeAt code b).length = 0 := by simpa using h b (by simp)
    rw [encodeBytes, if_neg hb, ih (i + 1) (fun c hc => h c (by simp [hc]))]
    rfl

/-- The first byte without a code stops the encoding at its index. -/
theorem encodeBytes_noCode (code : Vector Code 256) (bs : List Byte) (i j : Nat) (b : Byte) (hj : bs[j]? = some b)
    (hb : codeAt code b = []) (h : ∀ c ∈ bs.take j, codeAt code c ≠ []) :
    encodeBytes code bs i = .error (i + j) := by
  induction bs generalizing i j with
  | nil => simp at hj
  | cons c bs ih =>
    cases j with
    | zero =>
      simp only [List.getElem?_cons_zero, Option.some.injEq] at hj
      subst hj
      simp [encodeBytes, hb]
    | succ j =>
      have hc : ¬ (codeAt code c).length = 0 := by simpa using h c (by simp)
      rw [encodeBytes, if_neg hc, ih (i + 1) j (by simpa using hj) (fun d hd => h d (by simp [hd]))]
      simp only [show i + 1 + j = i + (j + 1) by omega]

/-! ### exec and step -/

/-- Every command's completion is a next state. -/
theorem exec_next (i : Instr) (s : State) : ∃ t, exec i s = .next t := by
  cases i <;> exact ⟨_, rfl⟩

/-- Everything a step can do (`20_memory.md` R74). -/
theorem step_cases {s t : State} (h : step s = .next t) :
    (∃ w i, s.dueCommand = some w ∧ decode w = .cmd i ∧ exec i s.popInput = .next t) ∨
    (∃ w why, s.dueCommand = some w ∧ decode w = .badCmd why ∧ t = badCommand w s.popInput) ∨
    (s.dueCommand = Option.none ∧ t = s.nextEvent) := by
  unfold step at h
  split at h
  · next w hw =>
    split at h
    · next i hi => exact Or.inl ⟨w, i, hw, hi, h⟩
    · next why hb => exact Or.inr (Or.inl ⟨w, why, hw, hb, (Host.Outcome.next.inj h).symm⟩)
  · next hn => exact Or.inr (Or.inr ⟨hn, (Host.Outcome.next.inj h).symm⟩)

/-- A step never stops the machine. -/
theorem step_next (s : State) : StepsOn s := by
  unfold StepsOn step
  split
  · split
    · exact exec_next _ _
    · exact ⟨_, rfl⟩
  · exact ⟨_, rfl⟩

/-- The due command is the latched one, of a machine out of reset whose next event is the engine's (log 1). -/
theorem State.dueCommand_eq_some {s : State} {w : Word} :
    s.dueCommand = some w ↔
      s.inReset = false ∧ engineTurn s.inputs = true ∧ ∃ l, s.engine = some l ∧ l.word = w := by
  unfold State.dueCommand
  cases s.inReset <;> cases engineTurn s.inputs <;> simp

end Sys2Proof.Machine
end

