-- ==== Sys2Proof/Laws/Bus.lean ====
section
/-! SUPPORT. What one host event does: the step of a read, a write and a reset edge, and the cases of a host access. -/

namespace Sys2Proof.Machine

/-! ### Words and lanes (`30_encoding.md` R80, `20_memory.md` R65) -/

/-- A command word is its two fields. -/
theorem FormatC.toWord_ofWord (w : Word) : FormatC.toWord (FormatC.ofWord w) = w := by
  apply BitVec.eq_of_getLsbD_eq
  intro i hi
  simp only [FormatC.toWord, FormatC.ofWord, BitVec.getLsbD_append, BitVec.getLsbD_extractLsb']
  by_cases h : i < 8
  · simp [h]
  · have h24 : i - 8 < 24 := by omega
    have h8 : 8 + (i - 8) = i := by omega
    simp [h, h24, h8]

/-- Each lane of a bus word is its byte. -/
theorem laneOf_wordOfLanes (b0 b1 b2 b3 : Byte) :
    laneOf (wordOfLanes b0 b1 b2 b3) 0 = b0 ∧ laneOf (wordOfLanes b0 b1 b2 b3) 1 = b1 ∧
      laneOf (wordOfLanes b0 b1 b2 b3) 2 = b2 ∧ laneOf (wordOfLanes b0 b1 b2 b3) 3 = b3 := by
  refine ⟨?_, ?_, ?_, ?_⟩ <;>
  · apply BitVec.eq_of_getLsbD_eq
    intro i hi
    simp only [laneOf, wordOfLanes, BitVec.getLsbD_append, BitVec.getLsbD_extractLsb', hi, decide_true, Bool.true_and]
    interval_cases i <;> simp

/-! ### The step of one event -/

/-- With an event that is no engine edge next, no command is due. -/
theorem State.dueCommand_eq_none {s : State} (h : engineTurn s.inputs = false) : s.dueCommand = Option.none := by
  simp [State.dueCommand, h]

@[simp] theorem State.target_inputs (s : State) (rest : List Input) (a : BitVec 17) :
    ({ s with inputs := rest } : State).target a = s.target a := rfl

/-- A host write out of reset (`20_memory.md` R74). -/
theorem step_write {s : State} {a : BitVec 17} {strb : BitVec 4} {d : Word} {rest : List Input}
    (h0 : s.inReset = false) (h : s.inputs = .write a strb d :: rest) :
    step s = .next ({ s with inputs := rest }.hostWrite a strb d) := by
  unfold step
  rw [State.dueCommand_eq_none (by rw [h]; rfl)]
  simp [State.nextEvent, h, State.applyInput, h0]

/-- A host read out of reset (`20_memory.md` R74). -/
theorem step_read {s : State} {a : BitVec 17} {rest : List Input}
    (h0 : s.inReset = false) (h : s.inputs = .read a :: rest) :
    step s = .next ({ s with inputs := rest }.hostRead a) := by
  unfold step
  rw [State.dueCommand_eq_none (by rw [h]; rfl)]
  simp [State.nextEvent, h, State.applyInput, h0]

/-- A change of `rst_n`, in reset or out of it (`70_reset_and_hazards.md` R191). -/
theorem step_rstn {s : State} {level : Bool} {rest : List Input} (h : s.inputs = .rstn level :: rest) :
    step s = .next ({ s with inputs := rest }.setRstn level) := by
  unfold step
  rw [State.dueCommand_eq_none (by rw [h]; rfl)]
  cases h0 : s.inReset <;> simp [State.nextEvent, h, State.applyInput, State.ignoredInput, h0]

/-! ### The cases of a host write (`20_memory.md` R63, R64, R72) -/

theorem State.hostWrite_reserved {s : State} {a : BitVec 17} (strb : BitVec 4) (d : Word) (h : s.target a = .reserved) :
    s.hostWrite a strb d = s := by
  rw [State.hostWrite, h]

theorem State.hostWrite_dmem {s : State} {a : BitVec 17} {w : Nat} (strb : BitVec 4) (d : Word) (h : s.target a = .dmem w)
    (hb : s.busy = false) : s.hostWrite a strb d = { s with dmem := s.dmem.writeLanes w strb d } := by
  rw [State.hostWrite, h]
  simp [State.writeDmem, hb]

theorem State.hostWrite_partial {s : State} {a : BitVec 17} {l : Loc} {strb : BitVec 4} (d : Word) (h : s.target a = .loc l)
    (hs : strb ≠ 0xF#4) : s.hostWrite a strb d = s.accessError := by
  rw [State.hostWrite, h]
  simp [hs]

theorem State.hostWrite_full {s : State} {a : BitVec 17} {l : Loc} (d : Word) (h : s.target a = .loc l) :
    s.hostWrite a 0xF#4 d = if s.busy && l.locked then s.accessError else writeLoc l d s := by
  rw [State.hostWrite, h]
  simp

/-- While busy a write to a locked target only sets ACCERR, whatever its strobes (`20_memory.md` R72,
`70_reset_and_hazards.md` R195). -/
theorem State.hostWrite_locked {s : State} {a : BitVec 17} (strb : BitVec 4) (d : Word) (hb : s.busy = true)
    (hl : (s.target a).locked = true) : s.hostWrite a strb d = s.accessError := by
  cases h : s.target a with
  | reserved => rw [h] at hl; cases hl
  | dmem w => rw [State.hostWrite, h]; simp [State.writeDmem, hb]
  | loc l =>
    have hl' : l.locked = true := by rw [h] at hl; exact hl
    by_cases hs : strb = 0xF#4
    · rw [hs, State.hostWrite_full d h, hb, hl']; rfl
    · exact State.hostWrite_partial d h hs

/-- While idle, or for a location that is not locked, a write with all strobes is accepted (`20_memory.md` R64, R72). -/
theorem State.hostWrite_accepted {s : State} {a : BitVec 17} {l : Loc} (d : Word) (h : s.target a = .loc l)
    (hu : s.busy = false ∨ l.locked = false) : s.hostWrite a 0xF#4 d = writeLoc l d s := by
  rw [State.hostWrite_full d h, if_neg]
  rcases hu with hu | hu <;> simp [hu]

/-- The word offset of an address whose masked value is known. -/
theorem wordOffset_of_masked {a : BitVec 17} {n : Nat} (hn : n < 131072) (h : a &&& 0x1FFFC#17 = BitVec.ofNat 17 n) :
    wordOffset a = n := by
  unfold wordOffset
  rw [h, BitVec.toNat_ofNat]
  omega

end Sys2Proof.Machine
end

