-- ==== Sys2Proof/Laws/PerInstr.lean ====
section
/-! SUPPORT. Statements made for every command, one lemma per constructor of `Instr`. -/

/-- The command word of a command passes every check of `Sys2Proof/WellFormed.lean` (`30_encoding.md` R80, R90, R92). -/
def Sys2Proof.Laws.CommandWord.Statement (i : Sys2Proof.Instr) : Prop :=
  (Sys2Proof.FormatC.ofWord (Sys2Proof.encode i)).wf = true

theorem Sys2Proof.Laws.CommandWord.fclr : Sys2Proof.Laws.CommandWord.Statement .fclr := by
  unfold Sys2Proof.Laws.CommandWord.Statement; decide

theorem Sys2Proof.Laws.CommandWord.fcnt : Sys2Proof.Laws.CommandWord.Statement .fcnt := by
  unfold Sys2Proof.Laws.CommandWord.Statement; decide

theorem Sys2Proof.Laws.CommandWord.build : Sys2Proof.Laws.CommandWord.Statement .build := by
  unfold Sys2Proof.Laws.CommandWord.Statement; decide

theorem Sys2Proof.Laws.CommandWord.cgen : Sys2Proof.Laws.CommandWord.Statement .cgen := by
  unfold Sys2Proof.Laws.CommandWord.Statement; decide

theorem Sys2Proof.Laws.CommandWord.enc : Sys2Proof.Laws.CommandWord.Statement .enc := by
  unfold Sys2Proof.Laws.CommandWord.Statement; decide

theorem Sys2Proof.Laws.CommandWord.dec : Sys2Proof.Laws.CommandWord.Statement .dec := by
  unfold Sys2Proof.Laws.CommandWord.Statement; decide

theorem Sys2Proof.Laws.CommandWord.pack : Sys2Proof.Laws.CommandWord.Statement .pack := by
  unfold Sys2Proof.Laws.CommandWord.Statement; decide

theorem Sys2Proof.Laws.CommandWord.unpk : Sys2Proof.Laws.CommandWord.Statement .unpk := by
  unfold Sys2Proof.Laws.CommandWord.Statement; decide

theorem Sys2Proof.Laws.CommandWord.comp : Sys2Proof.Laws.CommandWord.Statement .comp := by
  unfold Sys2Proof.Laws.CommandWord.Statement; decide
end

