-- ==== Sys2Proof/Laws/Streams.lean ====
section
/-! SUPPORT. When unpacking a stream succeeds, and how long the packed and raw forms are. -/

namespace Sys2Proof.Machine

/-- Unpacking succeeds exactly on a header in range over zero padding, and gives the bits before the padding
(`43_bit_packer.md` R142). -/
theorem unpackBytes_ok {hdr : Byte} {payload : List Byte} {bits : Bits} :
    unpackBytes (hdr :: payload) = .ok bits ↔
      hdr.toNat ≤ 8 ∧ hdr.toNat ≤ 8 * payload.length ∧
        (∀ x ∈ (bytesToBits payload (8 * payload.length)).drop (8 * payload.length - hdr.toNat), x = false) ∧
        bits = (bytesToBits payload (8 * payload.length)).take (8 * payload.length - hdr.toNat) := by
  rw [unpackBytes]
  simp only
  split
  · next h => simp; omega
  split
  · next h => simp; omega
  next h1 h2 =>
  split
  · next k hk =>
    constructor
    · intro h; cases h
    · rintro ⟨-, -, hz, -⟩
      obtain ⟨hlt, ht, -⟩ := List.findIdx?_eq_some_iff_getElem.1 hk
      rw [hz _ (List.getElem_mem hlt)] at ht
      cases ht
  · next hn =>
    rw [List.findIdx?_eq_none_iff] at hn
    constructor
    · intro h
      exact ⟨by omega, by omega, fun x hx => by simpa using hn x hx, (Except.ok.inj h).symm⟩
    · rintro ⟨-, -, -, rfl⟩
      rfl

/-- The packed form's size (`43_bit_packer.md` R141). -/
theorem packBits_length_eq (b : Bits) (mode : Bool) :
    (packBits b mode).length = 1 + (b.length + padCount b.length mode) / 8 := by
  have h : (b ++ zeros (padCount b.length mode)).length % 8 = 0 := by
    rw [List.length_append, zeros_length]; exact padCount_aligns _ _
  rw [packBits, List.length_cons, bitsToBytes_length _ h, List.length_append, zeros_length]
  omega

/-- The raw form's size (`43_bit_packer.md` R144). -/
theorem rawBytes_length (b : Bits) : (rawBytes b).length = ceil8 b.length := by
  have hc := le_eight_ceil8 b.length
  have h : (b ++ zeros (8 * ceil8 b.length - b.length)).length = 8 * ceil8 b.length := by
    rw [List.length_append, zeros_length]; omega
  rw [rawBytes, bitsToBytes_length _ (by rw [h]; omega), h]
  omega

/-- One byte emitted in front of what the rest decodes (`45_decoder.md` R161). -/
theorem emitByte_ok {sym : Byte} {rest : Except (ErrCode × Nat) (List Byte)} {out : List Byte} :
    emitByte sym rest = .ok out ↔ ∃ bs, rest = .ok bs ∧ out = sym :: bs := by
  cases rest with
  | ok bs => simp [emitByte, eq_comm]
  | error e => simp [emitByte]

theorem emitByte_error {sym : Byte} {rest : Except (ErrCode × Nat) (List Byte)} {e : ErrCode × Nat} :
    emitByte sym rest = .error e ↔ rest = .error e := by
  cases rest <;> simp [emitByte]

/-- A decoded text never exceeds the room it was given (`45_decoder.md` R161). -/
theorem walkSingle_length {sym : Byte} {room i : Nat} {bits : Bits} {out : List Byte}
    (h : walkSingle sym room i bits = .ok out) : out.length ≤ room := by
  induction bits generalizing room i out with
  | nil =>
    rw [walkSingle.eq_def] at h
    injection h with h
    simp [← h]
  | cons b bs ih =>
    rw [walkSingle.eq_def] at h
    simp only at h
    split at h
    · cases h
    split at h
    · cases h
    · obtain ⟨rest, hr, rfl⟩ := emitByte_ok.1 h
      have := ih hr
      simp only [List.length_cons]
      omega

/-- The same for the walk of a tree with an internal root. -/
theorem walkFrom_length {node : Vector Node 511} {r n room i : Nat} {bits : Bits} {out : List Byte}
    (h : walkFrom node r n room i bits = .ok out) : out.length ≤ room := by
  induction bits generalizing n room i out with
  | nil =>
    rw [walkFrom.eq_def] at h
    simp only at h
    split at h
    · cases h
    · injection h with h
      simp [← h]
  | cons b bs ih =>
    rw [walkFrom.eq_def] at h
    simp only at h
    generalize (if b = true then (nodeAt node n).right.toNat else (nodeAt node n).left.toNat) = m at h
    split at h
    · exact ih h
    split at h
    · cases h
    · obtain ⟨rest, hr, rfl⟩ := emitByte_ok.1 h
      have := ih hr
      simp only [List.length_cons]
      omega

end Sys2Proof.Machine
end

