-- ==== Sys2Proof/Laws/Trees.lean ====
section
/-! SUPPORT. What one turn of the merge and one call of the code walk can do, said once. -/

namespace Sys2Proof.Machine

/-! ### The key order (`41_tree_builder.md` R121, R122) -/

theorem keyLess_iff (ar : List Node) (p q : Nat) :
    keyLess ar p q = true ↔ arenaFreq ar p < arenaFreq ar q ∨ (arenaFreq ar p = arenaFreq ar q ∧ p < q) := by
  simp [keyLess]

theorem keyLess_irrefl (ar : List Node) (p : Nat) : keyLess ar p p = false := by
  rw [Bool.eq_false_iff, ne_eq, keyLess_iff]
  omega

theorem keyLess_trans {ar : List Node} {p q r : Nat} (h : keyLess ar p q = true) (h' : keyLess ar q r = true) :
    keyLess ar p r = true := by
  rw [keyLess_iff] at *
  omega

/-- Two different nodes never tie: the smaller index decides (`41_tree_builder.md` R122). -/
theorem keyLess_total (ar : List Node) {p q : Nat} (h : p ≠ q) : keyLess ar p q = true ∨ keyLess ar q p = true := by
  rw [keyLess_iff, keyLess_iff]
  omega

/-- The least key is an element of the collection, and no element has a smaller one. -/
theorem leastKey_spec (ar : List Node) (q : Nat) (rest : List Nat) :
    leastKey ar q rest ∈ q :: rest ∧ ∀ r ∈ q :: rest, keyLess ar r (leastKey ar q rest) = false := by
  induction rest generalizing q with
  | nil => simp [leastKey, keyLess_irrefl]
  | cons r rest ih =>
    rw [leastKey]
    by_cases hr : keyLess ar r q = true
    · rw [if_pos hr]
      obtain ⟨hm, hle⟩ := ih r
      refine ⟨List.mem_cons_of_mem _ hm, ?_⟩
      intro x hx
      rcases List.mem_cons.1 hx with rfl | hx
      · rw [Bool.eq_false_iff]
        intro hlt
        have := keyLess_trans hr hlt
        rw [hle r (by simp)] at this
        cases this
      · exact hle x hx
    · rw [if_neg hr]
      obtain ⟨hm, hle⟩ := ih q
      refine ⟨?_, ?_⟩
      · rcases List.mem_cons.1 hm with h | h
        · rw [h]; simp
        · simp [h]
      · intro x hx
        rcases List.mem_cons.1 hx with rfl | hx
        · exact hle _ (by simp)
        rcases List.mem_cons.1 hx with rfl | hx
        · rw [Bool.eq_false_iff]
          intro hlt
          by_cases hq : q = leastKey ar q rest
          · rw [← hq] at hlt; exact hr hlt
          · rcases keyLess_total ar hq with h | h
            · rw [hle q (by simp)] at h; cases h
            · exact hr (keyLess_trans hlt h)
        · exact hle _ (List.mem_cons_of_mem _ hx)

/-- Extracting from a collection takes out its least key (`41_tree_builder.md` R121). -/
theorem extractLeast_spec {ar : List Node} {q q' : List Nat} {x : Nat} (h : extractLeast ar q = some (x, q')) :
    x ∈ q ∧ q' = q.erase x ∧ ∀ r ∈ q, keyLess ar r x = false := by
  cases q with
  | nil => cases h
  | cons a rest =>
    simp only [extractLeast, Option.some.injEq, Prod.mk.injEq] at h
    obtain ⟨rfl, rfl⟩ := h
    exact ⟨(leastKey_spec ar a rest).1, rfl, (leastKey_spec ar a rest).2⟩

/-- A collection that is not empty can be extracted from. -/
theorem extractLeast_some (ar : List Node) {q : List Nat} (h : q ≠ []) : ∃ x q', extractLeast ar q = some (x, q') := by
  cases q with
  | nil => exact absurd rfl h
  | cons a rest => exact ⟨_, _, rfl⟩

/-- One turn of the merge on a collection of two or more (`41_tree_builder.md` R121). -/
theorem mergeLoop_succ (n : Nat) (ar : List Node) {q : List Nat} (h : 2 ≤ q.length) :
    ∃ x y, x ∈ q ∧ y ∈ q.erase x ∧ (∀ r ∈ q, keyLess ar r x = false) ∧ (∀ r ∈ q.erase x, keyLess ar r y = false) ∧
      mergeLoop (n + 1) ar q =
        mergeLoop n (ar ++ [Node.inner (BitVec.ofNat 32 (arenaFreq ar x + arenaFreq ar y)) x y])
          ((q.erase x).erase y ++ [ar.length]) := by
  obtain ⟨x, q1, hx⟩ := extractLeast_some ar (q := q) (by intro e; simp [e] at h)
  obtain ⟨hxm, rfl, hxl⟩ := extractLeast_spec hx
  obtain ⟨y, q2, hy⟩ := extractLeast_some ar (q := q.erase x)
    (by intro e; have := List.length_erase_of_mem hxm; rw [e] at this; simp at this; omega)
  obtain ⟨hym, rfl, hyl⟩ := extractLeast_spec hy
  refine ⟨x, y, hxm, hym, hxl, hyl, ?_⟩
  rw [mergeLoop, hx]
  simp only [hy]

/-! ### The code walk (`42_code_table.md` R131) -/

/-- Everything a call of the walk that ends without fail can be: a leaf with a new symbol, or an internal node whose two
subtrees end without fail, left before right. -/
theorem walkTree_ok {node : Vector Node 511} {count room n : Nat} {path : Bits} {k k' : Walk}
    (h : walkTree node count room n path k = .ok k') :
    ∃ room', room = room' + 1 ∧ n < count ∧ n ∉ k.visited ∧
      ((nodeAt node n).internal = true ∧
          (∃ k1, walkTree node count room' (nodeAt node n).left.toNat (path ++ [false])
              { k with visited := n :: k.visited } = .ok k1 ∧
            walkTree node count room' (nodeAt node n).right.toNat (path ++ [true]) k1 = .ok k') ∨
        (nodeAt node n).internal = false ∧ (nodeAt node n).sym ∉ k.seen ∧
          k' =
            { visited := n :: k.visited
              seen := (nodeAt node n).sym :: k.seen
              leaves := k.leaves + 1
              code := k.code.set (nodeAt node n).sym.toNat (if path = [] then [false] else path)
                (nodeAt node n).sym.isLt }) := by
  cases room with
  | zero => cases h
  | succ room =>
    refine ⟨room, rfl, ?_⟩
    rw [walkTree] at h
    split at h
    · cases h
    next hn =>
    split at h
    · cases h
    next hv =>
    refine ⟨by omega, hv, ?_⟩
    simp only at h
    split at h
    · next hi =>
      left
      refine ⟨hi, ?_⟩
      split at h
      · cases h
      · next k1 hk1 => exact ⟨k1, hk1, h⟩
    · next hi =>
      right
      refine ⟨by simpa using hi, ?_⟩
      unfold Walk.leaf at h
      split at h
      · cases h
      · next hs => exact ⟨hs, (Except.ok.inj h).symm⟩

/-! ### The order of the walk (`42_code_table.md` R131) -/

/-- Before the left child the walk is only at the root. -/
theorem walkedBefore_left {p : Bits} (h : WalkedBefore p [false]) : p = [] := by
  rcases h with ⟨x, hx, e⟩ | ⟨r, x, y, -, e⟩
  · cases p with
    | nil => rfl
    | cons b bs => cases bs <;> cases x <;> simp_all
  · cases r with
    | nil => cases e
    | cons b bs => cases bs <;> cases e

/-- Before the right child the walk is at the root or in the left subtree. -/
theorem walkedBefore_right {p : Bits} (h : WalkedBefore p [true]) : p = [] ∨ ∃ y, p = false :: y := by
  rcases h with ⟨x, hx, e⟩ | ⟨r, x, y, hp, e⟩
  · cases p with
    | nil => exact Or.inl rfl
    | cons b bs => cases bs <;> cases x <;> simp_all
  · cases r with
    | nil => exact Or.inr ⟨x, hp⟩
    | cons b bs => cases bs <;> cases e

theorem not_walkedBefore_root (p : Bits) : ¬ WalkedBefore p [] := by
  rintro (⟨x, hx, e⟩ | ⟨r, x, y, -, e⟩)
  · exact hx (List.append_eq_nil_iff.1 e.symm).2
  · cases r <;> cases e

/-- No test fires at an internal root below NODE_COUNT. -/
theorem root_passes {node : Vector Node 511} {count : Nat} (hc : 0 < count) (hi : (nodeAt node 0).internal = true) (m : Nat) :
    ¬ FailsAt node count 0 [] m := by
  rintro ⟨hm, h⟩
  cases Option.some.inj hm
  rcases h with h | ⟨p, hp, -⟩ | h | ⟨h, -⟩
  · omega
  · exact not_walkedBefore_root p hp
  · exact absurd h (by decide)
  · rw [hi] at h; cases h

end Sys2Proof.Machine
end

