-- ==== Sys2Proof/Tests/Slice0.lean ====
section
/-! SUPPORT. Tests of the model: command words written out from `30_encoding.md` R80 and R90, ill-formed words, one step per
vector of `95_test_vectors.md`, and for every statement of the certificates that has hypotheses a witness that meets them. -/

namespace Sys2Proof.Machine

set_option maxRecDepth 20000

/-! ### Helpers -/

/-- The outcome is a next state that passes the check. -/
def gives (o : Host.Outcome State Fault Refusal) (p : State → Bool) : Bool :=
  match o with
  | .next t => p t
  | .fault _ => false
  | .refused _ => false

/-- The machine after reset with operands in place and these DMEM bytes. -/
def startAt (dmem : Memory) (srcAddr srcLen dstAddr dstCap : Word) : State :=
  { State.reset with dmem := dmem, srcAddr := srcAddr, srcLen := srcLen, dstAddr := dstAddr, dstCap := dstCap }

/-- The bytes of "aaabbc" at offset 0. -/
def aaabbc : Memory := [(0, 0x61), (1, 0x61), (2, 0x61), (3, 0x62), (4, 0x62), (5, 0x63)]

/-- "aaabbc" with room for its stream at 0x100. -/
def textStart : State := startAt aaabbc 0 6 0x100 8

/-- FREQ = 61:3, 62:2, 63:1 (vector T1). -/
def counted : State := { State.reset with freq := ((State.reset.freq.set 0x61 3).set 0x62 2).set 0x63 1 }

/-- Node entries in front of an arena of zeros. -/
def arena (ns : List Node) : Vector Node 511 := overlay ns State.reset.node

theorem freqAt_reset (b : Byte) : freqAt State.reset.freq b = 0#32 := by simp [freqAt, State.reset]

/-- The tree of vector T1, with TREE_VALID and CT_VALID as given. -/
def treeState (tree ct : Bool) : State :=
  State.setValid tree ct
    { State.reset with
      node := arena [Node.leaf 0x61 3, Node.leaf 0x62 2, Node.leaf 0x63 1, Node.inner 3 2 1, Node.inner 6 0 3]
      nodeCount := 5, root := 4, symCount := 3 }

/-- The tree of T1 with its codes C1: 61 "0", 63 "10", 62 "11". -/
def coded : State :=
  { treeState true true with
    code := ((State.reset.code.set 0x61 [false]).set 0x63 [true, false]).set 0x62 [true, true] }

/-- The single-leaf tree of vector C10, with TREE_VALID = 1. -/
def singleLeaf : State :=
  State.setValid true false { State.reset with node := arena [Node.leaf 0x7A 4], nodeCount := 1 }

/-- A state with these DMEM bytes and operands, for a command that is latched. -/
def withJob (s : State) (dmem : Memory) (srcAddr srcLen dstAddr dstCap : Word) : State :=
  { s with
    dmem := dmem
    engine := some
      { word := 0, srcAddr := srcAddr, srcLen := srcLen, dstAddr := dstAddr, dstCap := dstCap, padMode := false,
        emptyPol := false } }

/-- The idle machine after reset with this event next. -/
def facing (e : Input) : State := { State.reset with inputs := [e] }

/-- A machine in which FCLR runs and this event is next. -/
def busyFacing (e : Input) : State := { State.reset.accept 1#32 with inputs := [e] }

/-! ### Command words, bit by bit: 24 RSV bits, then 8 OPC bits (`30_encoding.md` R80, R90) -/

theorem test_word_fclr : decode 0b00000000000000000000000000000001#32 = .cmd .fclr := by decide
theorem test_word_fcnt : decode 0b00000000000000000000000000000010#32 = .cmd .fcnt := by decide
theorem test_word_build : decode 0b00000000000000000000000000000011#32 = .cmd .build := by decide
theorem test_word_cgen : decode 0b00000000000000000000000000000100#32 = .cmd .cgen := by decide
theorem test_word_enc : decode 0b00000000000000000000000000000101#32 = .cmd .enc := by decide
theorem test_word_dec : decode 0b00000000000000000000000000000110#32 = .cmd .dec := by decide
theorem test_word_pack : decode 0b00000000000000000000000000000111#32 = .cmd .pack := by decide
theorem test_word_unpk : decode 0b00000000000000000000000000001000#32 = .cmd .unpk := by decide
theorem test_word_comp : decode 0b00000000000000000000000000001001#32 = .cmd .comp := by decide

/-- Vectors X1 to X4 name no command. -/
theorem test_word_bad :
    decode 0x00000000#32 = .badCmd .reservedOpcode ∧ decode 0x0000000A#32 = .badCmd .reservedOpcode ∧
      decode 0x00000101#32 = .badCmd .rsvNonzero ∧ decode 0xFFFFFFFF#32 = .badCmd .rsvNonzero := by decide

/-- The bytes of a command word in lane order, with what stands after it. -/
theorem test_decode_bytes :
    decodeBytes [0x09, 0x00, 0x00, 0x00, 0xAA] = some (.cmd .comp, [0xAA]) ∧ decodeBytes [0x09, 0x00, 0x00] = none := by decide

theorem test_table_words : decodeTableWord 32 0x07 = some .pack ∧ decodeTableWord 32 0x107 = none := by decide

/-! ### WellFormed smoke: one ill-formed word for each check -/

theorem test_wf_refuses_rsv : FormatC.rsvZero { opc := 0x01, rsv := 1#24 } = false := by decide
theorem test_wf_refuses_opc_zero : FormatC.opcListed { opc := 0x00, rsv := 0#24 } = false := by decide
theorem test_wf_refuses_opc_ten : FormatC.opcListed { opc := 0x0A, rsv := 0#24 } = false := by decide
theorem test_wf_refuses_words :
    FormatC.wf (FormatC.ofWord 0x00000101#32) = false ∧ FormatC.wf (FormatC.ofWord 0x0000000A#32) = false ∧
      FormatC.wf (FormatC.ofWord 0x00000009#32) = true := by decide

/-! ### The nine commands, from the vectors of `95_test_vectors.md` -/

/-- F1. -/
theorem test_fclr_clears :
    gives (exec .fclr counted) (fun t => freqAt t.freq 0x61 == 0#32 && t.statusReg == 0x00000002#32) = true := by decide

/-- F2 and F3: FCNT adds to what FREQ holds. -/
theorem test_fcnt_counts :
    gives (exec .fcnt { counted with dmem := [(8, 0x63), (9, 0x63)], srcAddr := 8, srcLen := 2 })
      (fun t => freqAt t.freq 0x63 == 3#32 && freqAt t.freq 0x61 == 3#32) = true := by decide

/-- F5. -/
theorem test_fcnt_overflow :
    gives (exec .fcnt { State.reset with freq := State.reset.freq.set 0 0xFFFFFFFF#32, dmem := [(0, 0x01)], srcLen := 2 })
      (fun t => t.statusReg == 0x00000606#32 && t.errPos == 1#32 && freqAt t.freq 0x01 == 1#32 &&
        freqAt t.freq 0x00 == 0xFFFFFFFF#32) = true := by decide

/-- T1. -/
theorem test_build_aaabbc :
    gives (exec .build counted)
      (fun t => t.node[3].ctl == 0x80000202#32 && t.node[4].ctl == 0x80000600#32 && t.node[4].freq == 6#32 &&
        t.nodeCount == 5#10 && t.root == 4#9 && t.symCount == 3#9 && t.statusReg == 0x00010002#32) = true := by decide

/-- T3: a leaf comes before an internal node of the same frequency. -/
theorem test_build_tie :
    gives (exec .build { State.reset with freq := ((State.reset.freq.set 0x61 1).set 0x62 1).set 0x63 2 })
      (fun t => t.node[3].ctl == 0x80000200#32 && t.node[4].ctl == 0x80000602#32) = true := by decide

/-- C1. -/
theorem test_cgen_codes :
    gives (exec .cgen (treeState false false))
      (fun t => codeAt t.code 0x62 == [true, true] && codeAt t.code 0x63 == [true, false] &&
        codeAt t.code 0x61 == [false] && t.statusReg == 0x00030002#32 && t.symCount == 3#9) = true := by decide

/-- C4: two leaves with one symbol. -/
theorem test_cgen_bad_tree :
    gives (exec .cgen { treeState true true with node := (treeState true true).node.set 1 (Node.ofWords 0x01840000#32 2#32) })
      (fun t => t.statusReg == 0x00000706#32 && t.errPos == 1#32 && codeAt t.code 0x61 == []) = true := by decide

/-- E1. -/
theorem test_enc_aaabbc :
    gives (exec .enc (withJob coded aaabbc 0 6 0x100 8))
      (fun t => t.dmem.readBytes 0x100 3 == [0x07#8, 0x1F#8, 0x00#8] && t.resLen == 3#32 && t.resBits == 9#32) = true := by
  decide

/-- E2. -/
theorem test_enc_no_code :
    gives (exec .enc (withJob coded [(0, 0x61), (1, 0x62), (2, 0x64)] 0 3 0x100 0))
      (fun t => t.statusReg == 0x00030A06#32 && t.errPos == 2#32) = true := by decide

/-- D1. -/
theorem test_dec_aaabbc :
    gives (exec .dec (withJob (treeState true false) [(0x100, 0x07), (0x101, 0x1F)] 0x100 3 0x200 16))
      (fun t => t.dmem.readBytes 0x200 6 == [0x61#8, 0x61#8, 0x61#8, 0x62#8, 0x62#8, 0x63#8] && t.resLen == 6#32 &&
        t.resBits == 9#32) = true := by decide

/-- D4: the third symbol, at logical bit 2, does not fit. -/
theorem test_dec_overflow :
    gives (exec .dec (withJob (treeState true false) [(0x100, 0x07), (0x101, 0x1F)] 0x100 3 0x200 2))
      (fun t => t.statusReg == 0x00010C06#32 && t.errPos == 10#32) = true := by decide

/-- B1: the low 4 bits of CF are ignored. -/
theorem test_pack_twelve_bits :
    gives (exec .pack (startAt [(0, 0xAB), (1, 0xCF)] 0 12 0x10 4))
      (fun t => t.dmem.readBytes 0x10 3 == [0x04#8, 0xAB#8, 0xC0#8] && t.resLen == 3#32 && t.resBits == 12#32) = true := by
  decide

/-- B4: mode 1 pads an aligned sequence with 8 bits. -/
theorem test_pack_aligned_mode_one :
    gives (exec .pack
        { startAt [(0, 0xA5)] 0 8 0x10 4 with
          ctrl := { ieDone := false, ieErr := false, padMode := true, emptyPol := false } })
      (fun t => t.dmem.readBytes 0x10 3 == [0x08#8, 0xA5#8, 0x00#8]) = true := by decide

/-- B9. -/
theorem test_unpk_twelve_bits :
    gives (exec .unpk (startAt [(0, 0x04), (1, 0xAB), (2, 0xC0)] 0 3 0x10 4))
      (fun t => t.dmem.readBytes 0x10 2 == [0xAB#8, 0xC0#8] && t.resLen == 2#32 && t.resBits == 12#32) = true := by decide

/-- B17: the last padding bit is 1. -/
theorem test_unpk_malformed :
    gives (exec .unpk (startAt [(0, 0x08), (1, 0xA5), (2, 0x01)] 0 3 0x10 0))
      (fun t => t.statusReg == 0x00000B06#32 && t.errPos == 23#32) = true := by decide

/-- E10. -/
theorem test_comp_aaabbc :
    gives (exec .comp textStart)
      (fun t => t.dmem.readBytes 0x100 3 == [0x07#8, 0x1F#8, 0x00#8] && t.statusReg == 0x00030002#32 &&
        t.resBits == 9#32 && freqAt t.freq 0x62 == 2#32) = true := by decide

/-- E14: the stages stand after OUT_OVF. -/
theorem test_comp_overflow :
    gives (exec .comp { textStart with dstCap := 2 })
      (fun t => t.statusReg == 0x00030C06#32 && t.errPos == 3#32 && t.root == 4#9 &&
        codeAt t.code 0x62 == [true, true]) = true := by decide

/-! ### The bus, acceptance and reset -/

/-- X2: BAD_CMD keeps both validity bits. -/
theorem test_bad_command :
    gives (step ((treeState true true).withFetchWord 32 0x0A))
      (fun t => t.statusReg == 0x00030106#32 && t.errPos == 0x0000000A#32) = true := by decide

/-- A CMD write is accepted: BUSY reads 1 and the operands are latched. -/
theorem test_cmd_write_accepted :
    gives (step { textStart with inputs := [.write 0x14 0xF 9] })
      (fun t => t.statusReg == 0x00000001#32 && t.operands.srcLen == 6#32 && t.operands.word == 9#32) = true := by decide

/-- X13: a CMD write while busy is dropped. -/
theorem test_cmd_write_dropped :
    gives (step (busyFacing (.write 0x14 0xF 9)))
      (fun t => t.statusReg == 0x02000001#32 && t.operands.word == 1#32) = true := by decide

/-- X9, and the byte address bits 1:0 are ignored. -/
theorem test_partial_register_write :
    gives (step (facing (.write 0x1A 0x3 5))) (fun t => t.srcAddr == 0#32 && t.statusReg == 0x01000000#32) = true := by decide

/-- X10 and X11. -/
theorem test_register_reads :
    gives (step (facing (.read 0x068))) (fun t => t.prdata == 0#32 && t.statusReg == 0#32) = true ∧
      gives (step (facing (.read 0x000))) (fun t => t.prdata == 0x48554646#32) = true := by decide

/-- X12. -/
theorem test_locked_read :
    gives (step { busyFacing (.read 0x584) with prdata := 7 })
      (fun t => t.prdata == 0#32 && t.statusReg == 0x01000001#32) = true := by decide

/-- U10 of `93_implementation_defined.md`: a DMEM write with no strobe while busy is dropped and sets ACCERR. -/
theorem test_locked_write_no_strobe :
    gives (step (busyFacing (.write 0x10000 0x0 0x000000AB))) (fun t => t.dmem == [] && t.statusReg == 0x01000001#32) = true := by
  decide

/-- X18. -/
theorem test_dmem_lane :
    gives (step { facing (.write 0x10000 0x4 0x00AB0000) with dmem := [(1, 0x11)] })
      (fun t => t.dmem == [(1, 0x11#8), (2, 0xAB#8)]) = true := by decide

/-- The code port (`10_state.md` R38): "10" reads CT_LEN = 2 and CT_BITS0 = 0x80000000. -/
theorem test_code_port :
    readReg .ctLen { coded with ctSel := 0x63 } = 2#32 ∧ readReg (.ctBits 0) { coded with ctSel := 0x63 } = 0x80000000#32 ∧
      readReg (.ctBits 1) { coded with ctSel := 0x63 } = 0#32 := by decide

/-- X19. -/
theorem test_node_write_clears_validity :
    gives (step { coded with inputs := [.write 0x804 0xF 9] })
      (fun t => t.statusReg == 0#32 && t.node[0].freq == 9#32) = true := by decide

/-- X15. -/
theorem test_soft_reset :
    gives (step { coded with inputs := [.write 0x00C 0xF 0x80000004] })
      (fun t => t.statusReg == 0#32 && t.ctrl == Ctrl.reset && t.root == 0#9 && codeAt t.code 0x61 == [false]) = true := by
  decide

/-- `rst_n` goes low while a command runs: it is abandoned and the host is ignored. -/
theorem test_hard_reset_asserted :
    gives (step (busyFacing (.rstn false))) (fun t => t.inReset && t.engine == Option.none) = true := by decide

/-- X17. -/
theorem test_irq_done :
    gives (exec .fclr { State.reset with ctrl := { Ctrl.reset with ieDone := true } })
      (fun t => t.irq && !(t.ackStatus 0x2#32).irq) = true := by decide

/-- R97: the encodings of `cmd COMP` and of `bytes 0, 61 61 61 62 62 63`. -/
theorem test_notation :
    expandAll 0 [.cmd .comp, .bytes 0 [0x61, 0x61, 0x61, 0x62, 0x62, 0x63]] =
      [.write 0x00014 0xF 0x00000009, .write 0x10000 0xF 0x62616161, .write 0x10004 0x3 0x00006362] := by decide

/-! ### Witnesses: for each statement with hypotheses, a state and operands that meet all of them -/

/-- StepRunsTheDecodedCommand: with the engine's edge next, and with no event left. -/
theorem witness_step_runs :
    (let s := State.reset.issue 1#32
     s.inReset = false ∧ s.engine = some (State.reset.sample 1#32) ∧ s.inputs.head? = some .engine ∧
       decode (State.reset.sample 1#32).word = .cmd .fclr) ∧
    (let s := State.reset.accept 9#32
     s.inReset = false ∧ s.engine = some (State.reset.sample 9#32) ∧ s.inputs.head? = Option.none ∧
       decode (State.reset.sample 9#32).word = .cmd .comp) := by decide

/-- BadCommandReportsTheWord: an RSV bit, opcode 0, and the smallest and largest opcode past the map. -/
theorem witness_bad_command :
    (let s := State.reset.accept 0x80000001#32
     s.inReset = false ∧ s.engine.isSome = true ∧ s.inputs.head? = Option.none ∧
       (0x80000001#32).extractLsb' 8 24 ≠ 0#24) ∧
    (0x00000000#32).extractLsb' 0 8 = 0#8 ∧
    0x0A ≤ ((0x0000000A#32).extractLsb' 0 8).toNat ∧ 0x0A ≤ ((0x000000FF#32).extractLsb' 0 8).toNat := by decide

/-- CmdWriteIsAcceptedOrDropped: idle, and busy; the highest byte address of the CMD word. -/
theorem witness_cmd_write :
    (let s := facing (.write 0x17 0xF 3)
     s.inReset = false ∧ s.inputs = [.write 0x17 0xF#4 3] ∧ (0x17#17 : BitVec 17) &&& 0x1FFFC#17 = 0x14#17 ∧
       s.engine = Option.none) ∧
    (let s := busyFacing (.write 0x14 0xF 3)
     s.inReset = false ∧ s.inputs = [.write 0x14 0xF#4 3] ∧ (0x14#17 : BitVec 17) &&& 0x1FFFC#17 = 0x14#17 ∧
       s.engine ≠ Option.none) := by decide

/-- WindowMapFindsEveryLocation: the last DMEM word of the largest and of the smallest DMEM. -/
theorem witness_window_map :
    4 * 16383 < State.reset.dmemSize ∧ 4 * 63 < State.dmemSize { State.reset with dmemExp := 0 } := by decide

/-- ReservedOffsetsAreInert: the first and last word of each reserved range, with the smallest DMEM. -/
theorem witness_reserved :
    (let s := { facing (.read 0x068) with dmemExp := 0 }
     s.inReset = false ∧ s.inputs = [.read 0x068]) ∧
    (let s := facing (.write 0x3FF 0x5 1)
     s.inReset = false ∧ s.inputs = [.write 0x3FF 0x5 1]) ∧
    [0x068#17, 0x3FF#17, 0x17F8#17, 0xFFFF#17, 0x10100#17, 0x1FFFF#17].map (fun a => (a &&& 0x1FFFC#17).toNat) =
      [0x68, 0x3FC, 0x17F8, 0xFFFC, 0x10000 + State.dmemSize { State.reset with dmemExp := 0 }, 0x1FFFC] := by decide

/-- LockedTargetsRefuseAccess: a locked read while busy and while idle, an unlocked read while busy, and while busy a locked
write of the last DMEM word with all strobes, of one byte lane, and with no strobe. -/
theorem witness_locked :
    (let s := busyFacing (.read 0x584)
     s.inReset = false ∧ s.inputs = [.read 0x584] ∧ s.busy = true ∧ (s.target 0x584).locked = true) ∧
    (let s := facing (.read 0x038)
     s.inReset = false ∧ s.inputs = [.read 0x038] ∧ s.busy = false) ∧
    (let s := busyFacing (.read 0x03C)
     s.inReset = false ∧ s.inputs = [.read 0x03C] ∧ (s.target 0x03C).locked = false) ∧
    (∀ strb ∈ [0xF#4, 0x8#4, 0x1#4, 0x0#4],
      let s := busyFacing (.write 0x1FFFC strb 1)
      s.inReset = false ∧ s.inputs = [.write 0x1FFFC strb 1] ∧ s.busy = true ∧ (s.target 0x1FFFC).locked = true) := by decide

/-- PartialRegisterWriteIsRefused: CMD while busy, and a FREQ word with no strobe. -/
theorem witness_partial_write :
    (let s := busyFacing (.write 0x14 0x7 3)
     s.inReset = false ∧ s.inputs = [.write 0x14 0x7 3] ∧ s.target 0x14 = .loc (.reg .cmd) ∧ (0x7#4 : BitVec 4) ≠ 0xF#4) ∧
    (let s := facing (.write 0x7FC 0x0 3)
     s.inReset = false ∧ s.inputs = [.write 0x7FC 0x0 3] ∧ s.target 0x7FC = .loc (.freq 255) ∧
       (0x0#4 : BitVec 4) ≠ 0xF#4) := by decide

/-- DmemWordAccessIsLittleEndian: the last word, written through one lane and read. -/
theorem witness_dmem_access :
    (let s := { facing (.write 0x1FFFC 0x8 1) with dmem := aaabbc }
     s.inReset = false ∧ s.busy = false ∧ s.dmem.wf ∧ s.target 0x1FFFC = .dmem 0xFFFC ∧
       s.inputs = [.write 0x1FFFC 0x8 1]) ∧
    (let s := { facing (.read 0x10003) with dmem := aaabbc }
     s.inReset = false ∧ s.busy = false ∧ s.dmem.wf ∧ s.target 0x10003 = .dmem 0 ∧ s.inputs = [.read 0x10003]) := by decide

/-- WrittenWordsReadBackTheirFields: while busy CTRL, every operand register and CT_SEL; while idle NODE_COUNT, ROOT, a FREQ
word and both words of the last NODE entry; and a CTRL word with every bit but SRST set. -/
theorem witness_written_words :
    (∀ p ∈ [(0x00C#17, Loc.reg .ctrl), (0x018#17, .reg .srcAddr), (0x01C#17, .reg .srcLen), (0x020#17, .reg .dstAddr),
        (0x024#17, .reg .dstCap), (0x040#17, .reg .ctSel)],
      let s := busyFacing (.write p.1 0xF 0x7FFFFFFF)
      s.inReset = false ∧ s.inputs = [.write p.1 0xF#4 0x7FFFFFFF] ∧ s.target p.1 = .loc p.2 ∧ p.2.locked = false) ∧
    (∀ p ∈ [(0x034#17, Loc.reg .nodeCount), (0x038#17, .reg .root), (0x7FC#17, .freq 255), (0x17F0#17, .nodeCtl 510),
        (0x17F4#17, .nodeFreq 510)],
      let s := facing (.write p.1 0xF 0x7FFFFFFF)
      s.inReset = false ∧ s.inputs = [.write p.1 0xF#4 0x7FFFFFFF] ∧ s.target p.1 = .loc p.2 ∧ s.busy = false) ∧
    (0x7FFFFFFF#32).getLsbD 31 = false := by decide

/-- StatusWriteClearsTheBitsWritten: while a command runs. -/
theorem witness_status_write :
    let s := busyFacing (.write 0x13 0xF 0x03000006)
    s.inReset = false ∧ s.inputs = [.write 0x13 0xF#4 0x03000006] ∧ (0x13#17 : BitVec 17) &&& 0x1FFFC#17 = 0x10#17 := by
  decide

/-- CodePortShowsTheSelectedCode: the longest code, 255 bits. -/
theorem witness_code_port :
    (codeAt { State.reset with code := State.reset.code.set 0 (List.replicate 255 true) }.code 0#8).length ≤ 255 := by decide

/-- IrqFollowsDoneAndErr, CommandsWriteOnlyTheirWriteSet, ErrorsAreThoseOfTheCommand: every command completes after reset. -/
theorem witness_commands_complete : ∀ i, ∃ t, exec i State.reset = .next t := by
  intro i; cases i <;> exact ⟨_, rfl⟩

/-- ValidityFollowsItsEvents: BUILD without error, CGEN, COMP without error and with OUT_OVF. -/
theorem witness_validity_commands :
    (∃ t, exec .build counted = .next t ∧ t.status.err = false) ∧ (∃ t, exec .cgen counted = .next t) ∧
    (∃ t, exec .comp textStart = .next t ∧ t.status.errcode = .none) ∧
    (∃ t, exec .comp { textStart with dstCap := 0 } = .next t ∧ t.status.errcode = .outOvf) :=
  ⟨⟨_, rfl, by decide⟩, ⟨_, rfl⟩, ⟨_, rfl, by decide⟩, ⟨_, rfl, by decide⟩⟩

/-- ValidityFollowsItsEvents: writes to the first NODE word, the last one, NODE_COUNT, ROOT and FREQ, while idle. -/
theorem witness_validity_writes :
    ∀ p ∈ [(0x800#17, Loc.nodeCtl 0), (0x17F4#17, .nodeFreq 510), (0x034#17, .reg .nodeCount), (0x038#17, .reg .root),
      (0x400#17, .freq 0)],
      let s := { coded with inputs := [.write p.1 0xF 9] }
      s.inReset = false ∧ s.busy = false ∧ s.inputs = [.write p.1 0xF#4 9] ∧ s.target p.1 = .loc p.2 := by decide

/-- ValidityFollowsItsEvents: a step that changes a validity bit by a completion, by a ROOT write, and by `rst_n`. -/
theorem witness_validity_steps :
    (∃ t, step (counted.issue 3#32) = .next t ∧ t.status.treeValid ≠ counted.status.treeValid) ∧
    (∃ t, step { coded with inputs := [.write 0x38 0xF 4] } = .next t ∧ t.status.treeValid ≠ coded.status.treeValid) ∧
    (∃ t, step { coded with inputs := [.rstn false] } = .next t ∧ t.status.ctValid ≠ coded.status.ctValid) :=
  ⟨⟨_, rfl, by decide⟩, ⟨_, rfl, by decide⟩, ⟨_, rfl, by decide⟩⟩

/-- RunningCommandShowsNoPartialEffect: a host write while the command runs. -/
theorem witness_no_partial_effect :
    ∃ t, step (busyFacing (.write 0x18 0xF 5)) = .next t ∧ (busyFacing (.write 0x18 0xF 5)).busy = true ∧ t.busy = true :=
  ⟨_, rfl, by decide, by decide⟩

/-- EngineIsIdleWhenEventsRunOut: a busy machine out of reset, and an idle one in reset. -/
theorem witness_engine_idle :
    (let s := busyFacing (.read 0)
     s.inReset = true → s.engine = Option.none) ∧
    (let s := { State.reset with inReset := true }
     s.inReset = true ∧ s.engine = Option.none) := by decide

/-- IdleSoftResetKeepsTheMemories and AbandonedCommandSpoilsOnlyItsWriteSet. -/
theorem witness_soft_reset :
    (let s := facing (.write 0x00F 0xF 0x80000004)
     s.inReset = false ∧ s.engine = Option.none ∧ s.inputs = [.write 0x00F 0xF#4 0x80000004] ∧
       (0x00F#17 : BitVec 17) &&& 0x1FFFC#17 = 0x0C#17 ∧ (0x80000004#32).getLsbD 31 = true) ∧
    (let s := busyFacing (.write 0x00C 0xF 0x80000000)
     s.inReset = false ∧ s.engine = some (State.reset.sample 1#32) ∧ s.inputs = [.write 0x00C 0xF#4 0x80000000] ∧
       (0x00C#17 : BitVec 17) &&& 0x1FFFC#17 = 0x0C#17 ∧ (0x80000000#32).getLsbD 31 = true) := by decide

/-- AbandonedCommandSpoilsOnlyItsWriteSet: FCNT is outside the NODE, CODE and DMEM clauses, CGEN outside the FREQ clause. -/
theorem witness_abandoned_clauses :
    (∀ i ∈ [Instr.build, .comp, .cgen, .enc, .dec, .pack, .unpk], decode 2#32 ≠ .cmd i) ∧
    (∀ i ∈ [Instr.fclr, .fcnt, .comp], decode 4#32 ≠ .cmd i) := by decide

/-- HardResetIgnoresTheHostThenResets: each of the five events. -/
theorem witness_hard_reset :
    (let s := facing (.rstn false)
     s.inReset = false ∧ s.engine = Option.none ∧ s.inputs = [.rstn false]) ∧
    (let s := busyFacing (.rstn false)
     s.inReset = false ∧ s.engine = some (State.reset.sample 1#32) ∧ s.inputs = [.rstn false]) ∧
    (let s := { facing (.read 0x584) with inReset := true }
     s.inReset = true ∧ s.inputs = [.read 0x584]) ∧
    (let s := { facing (.write 0x14 0xF 1) with inReset := true }
     s.inReset = true ∧ s.inputs = [.write 0x14 0xF 1]) ∧
    (let s := { facing (.rstn true) with inReset := true }
     s.inReset = true ∧ s.inputs = [.rstn true]) := by decide

/-- BadRegionChangesNothing: each test fails by one byte, for FCNT, for UNPK and for PACK's 9 bits. -/
theorem witness_bad_region :
    (let o := (startAt [] 0xFFFF 2 0 0).operands
     o.srcAddr.toNat + o.srcLen.toNat > State.reset.dmemSize) ∧
    (let o := (startAt [] 0xFFFF 1 0xFFF0 0x11).operands
     ¬ o.srcAddr.toNat + o.srcLen.toNat > State.reset.dmemSize ∧ o.dstAddr.toNat + o.dstCap.toNat > State.reset.dmemSize) ∧
    (let o := (startAt [] 0 9 1 3).operands
     let n := (o.srcLen.toNat + 7) / 8
     ¬ o.srcAddr.toNat + n > State.reset.dmemSize ∧ ¬ o.dstAddr.toNat + o.dstCap.toNat > State.reset.dmemSize ∧
       n > 0 ∧ o.dstCap.toNat > 0 ∧ o.srcAddr.toNat < o.dstAddr.toNat + o.dstCap.toNat ∧
       o.dstAddr.toNat < o.srcAddr.toNat + n) := by decide

/-- FcntAddsTheByteCounts. -/
theorem witness_fcnt :
    let o := textStart.operands
    o.srcAddr.toNat + o.srcLen.toNat ≤ textStart.dmemSize ∧
    (∀ b : Byte, (freqAt textStart.freq b).toNat +
      (textStart.dmem.readBytes o.srcAddr.toNat o.srcLen.toNat).count b < 2 ^ 32) := by
  refine ⟨by decide, fun b => ?_⟩
  have h0 : freqAt textStart.freq b = 0#32 := freqAt_reset b
  have h1 : (textStart.dmem.readBytes textStart.operands.srcAddr.toNat textStart.operands.srcLen.toNat).count b ≤ 6 :=
    List.count_le_length
  rw [h0]
  change 0 + _ < _
  omega

/-- FcntOverflowKeepsTheCountsBefore: vector F5, at source byte 1. -/
theorem witness_fcnt_overflow :
    let s := { startAt [(0, 0x01)] 0 2 0 0 with freq := State.reset.freq.set 0 0xFFFFFFFF#32 }
    let src := s.dmem.readBytes s.operands.srcAddr.toNat s.operands.srcLen.toNat
    s.operands.srcAddr.toNat + s.operands.srcLen.toNat ≤ s.dmemSize ∧ 1 < s.operands.srcLen.toNat ∧
    (∀ b : Byte, (freqAt s.freq b).toNat + (src.take 1).count b < 2 ^ 32) ∧
    src[1]? = some 0x00#8 ∧ (freqAt s.freq 0x00#8).toNat + (src.take 1).count 0x00#8 = 2 ^ 32 - 1 := by
  intro s src
  refine ⟨by decide, by decide, fun b => ?_, by decide, by decide⟩
  have hsrc : src.take 1 = [0x01#8] := by decide
  have hf : freqAt s.freq b = if b = 0x00#8 then 0xFFFFFFFF#32 else freqAt State.reset.freq b :=
    freqAt_set State.reset.freq 0x00#8 b 0xFFFFFFFF#32
  rw [hsrc, hf]
  by_cases h : b = 0x00#8
  · rw [if_pos h, h]; decide
  · rw [if_neg h, freqAt_reset]
    have : ([0x01#8] : List Byte).count b ≤ 1 := List.count_le_length
    change 0 + _ < _
    omega

/-- CountingLaw: "aaa" and then "bbc". -/
theorem witness_counting_law :
    ∃ s1 s2 s3, exec .fclr textStart = .next s1 ∧
      exec .fcnt { s1 with engine := some { textStart.operands with srcLen := 3 } } = .next s2 ∧ s2.status.err = false ∧
      exec .fcnt { s2 with engine := some { textStart.operands with srcAddr := 3, srcLen := 3 } } = .next s3 ∧
      s3.status.err = false :=
  ⟨_, _, _, rfl, rfl, by decide, rfl, by decide⟩

/-- BuildErrorsChangeNothing: the empty table, and vector T9, whose total overflows at symbol 1. -/
theorem witness_build_errors :
    (∀ b : Byte, freqAt State.reset.freq b = 0#32) ∧
    (let f := (State.reset.freq.set 0 0xFFFFFFFF#32).set 1 1
     freqSumBelow f ((1#8 : Byte).toNat + 1) > 2 ^ 32 - 1 ∧ freqSumBelow f (1#8 : Byte).toNat ≤ 2 ^ 32 - 1) :=
  ⟨freqAt_reset, by decide⟩

/-- BuildWritesOneTree: vector T10, whose total is the largest that fits. -/
theorem witness_build :
    let f := (State.reset.freq.set 0 0x80000000#32).set 1 0x7FFFFFFF#32
    0 < (present f).length ∧ freqTotal f ≤ 2 ^ 32 - 1 ∧ freqTotal f = 2 ^ 32 - 1 := by decide

/-- BuiltTreeIsFullAndOwnedOnce, BuildMergesTheTwoLeastKeys, CgenAcceptsEveryBuiltTree, BuildDependsOnFreqAlone: two machines
with one FREQ. -/
theorem witness_built :
    ∃ t t', exec .build counted = .next t ∧ t.status.err = false ∧
      exec .build { coded with freq := counted.freq } = .next t' ∧ ({ coded with freq := counted.freq } : State).freq = counted.freq :=
  ⟨_, _, rfl, by decide, rfl, rfl⟩

/-- BuildMergesTheTwoLeastKeys: node 4 of T1 was made from nodes 0 and 3, which no earlier node had taken. -/
theorem witness_merge_range :
    ∃ t, exec .build counted = .next t ∧ (present counted.freq).length = 3 ∧
      (∀ q ∈ [0, 3], ∀ m ∈ [3], (nodeAt t.node m).left.toNat ≠ q ∧ (nodeAt t.node m).right.toNat ≠ q) :=
  ⟨_, rfl, by decide, by decide⟩

/-- CgenDerivesTheTableOfAValidTree: a single leaf is a valid tree (vector C10). -/
theorem witness_valid_tree : ValidTree (arena [Node.leaf 0x7A 4]) 1 0 := by
  have root : (nodeAt (arena [Node.leaf 0x7A 4]) 0).internal = false := by decide
  have only : ∀ p n, followPath (arena [Node.leaf 0x7A 4]) 0 p = some n → p = [] ∧ n = 0 := by
    intro p n h
    cases p with
    | nil => exact ⟨rfl, (Option.some.inj h).symm⟩
    | cons b bs => rw [followPath, if_neg (by rw [root]; decide)] at h; cases h
  refine ⟨by decide, ?_, ?_, ?_, ?_⟩
  · intro p n h; have := (only p n h).2; omega
  · intro p q n hp hq; rw [(only p n hp).1, (only q n hq).1]
  · rintro p q b ⟨n, hp, -, -⟩ ⟨m, hq, -, -⟩; rw [(only p n hp).1, (only q m hq).1]
  · intro p n h; rw [(only p n h).1]; decide

/-- CgenDerivesTheTableOfAValidTree: no tree has its root at NODE_COUNT, and the two positions R132 gives at its bounds. -/
theorem witness_invalid_tree :
    ¬ ValidTree (arena [Node.leaf 0x7A 4]) 1 1 ∧
    (511 < (512#10 : BitVec 10).toNat ∧ ((511#10 : BitVec 10).toNat ≤ 511 ∧ (511#10 : BitVec 10).toNat ≤ (511#9 : BitVec 9).toNat)) :=
  ⟨fun h => absurd (h.inside [] 1 rfl) (by decide), by decide⟩

/-- BadTreePositionIsTheFirstFailure: a node reached twice (0, as its own left child), and a child index outside the tree (1). -/
theorem witness_first_failure_left :
    FirstFailure (arena [Node.inner 0 0 0]) 1 0 0 ∧ FirstFailure (arena [Node.inner 0 1 1]) 1 0 1 := by
  refine ⟨⟨[false], ⟨by decide, Or.inr (Or.inl ⟨[], Or.inl ⟨[false], by decide, rfl⟩, rfl⟩)⟩, ?_⟩,
    ⟨[false], ⟨by decide, Or.inl (by decide)⟩, ?_⟩⟩ <;>
  · intro p m hp
    rw [walkedBefore_left hp]
    exact root_passes (by decide) (by decide) m

/-- Under a root whose two children are leaves with one symbol, the right child is the first failure. -/
theorem firstFailure_of_equal_leaves {node : Vector Node 511} {count l r : Nat} (hroot : (nodeAt node 0).internal = true)
    (hl : (nodeAt node 0).left.toNat = l) (hr : (nodeAt node 0).right.toNat = r) (hli : (nodeAt node l).internal = false)
    (hri : (nodeAt node r).internal = false) (hs : (nodeAt node l).sym = (nodeAt node r).sym) (hc : l < count) :
    FirstFailure node count 0 r := by
  have fl : followPath node 0 [false] = some l := by simp [followPath, hroot, hl]
  have fr : followPath node 0 [true] = some r := by simp [followPath, hroot, hr]
  refine ⟨[true], ⟨fr, Or.inr (Or.inr (Or.inr ⟨hri, [false], Or.inr ⟨[], [], [], rfl, rfl⟩, l, fl, hli, hs⟩))⟩, ?_⟩
  intro p m hp
  rcases walkedBefore_right hp with rfl | ⟨y, rfl⟩
  · exact root_passes (by omega) hroot m
  rintro ⟨hm, h⟩
  cases y with
  | cons b bs => simp [followPath, hroot, hl, hli] at hm
  | nil =>
    rw [fl] at hm
    cases Option.some.inj hm
    have hne : l ≠ 0 := by rintro rfl; rw [hroot] at hli; cases hli
    rcases h with h | ⟨p, hp, h⟩ | h | ⟨-, p, hp, n, h, hn, -⟩
    · omega
    · rw [walkedBefore_left hp] at h; exact hne (Option.some.inj h).symm
    · exact absurd h (by decide)
    · rw [walkedBefore_left hp] at h
      cases Option.some.inj h
      rw [hroot] at hn; cases hn

/-- BadTreePositionIsTheFirstFailure: two leaves with the symbol 5: the right one, node 2, is the position. -/
theorem witness_first_failure_symbol :
    FirstFailure (arena [Node.inner 0 1 2, Node.leaf 5 1, Node.leaf 5 1]) 3 0 2 :=
  firstFailure_of_equal_leaves (l := 1) (by decide) (by decide) (by decide) (by decide) (by decide) (by decide) (by decide)

/-- BadTreeClearsTheTable: the empty tree after reset, then ENC of data and DEC of the stream 07 80. -/
theorem witness_bad_tree :
    (∃ t, exec .cgen { State.reset with dmem := [(0, 0x07), (1, 0x80)] } = .next t ∧ t.status.err = true ∧
      unpackBytes (t.dmem.readBytes 0 2) = .ok [true] ∧ [true] ≠ ([] : Bits)) ∧
    RegionsOk State.reset.dmemSize (startAt [] 0 2 2 2).operands 2 ∧ 0 < (startAt [] 0 2 2 2).operands.srcLen.toNat :=
  ⟨⟨_, rfl, by decide, rfl, by decide⟩, ⟨by decide, by decide, by decide⟩, by decide⟩

/-- CodesArePrefixFree: a CGEN without error, with two symbols that have codes. -/
theorem witness_prefix_free :
    ∃ t, exec .cgen (treeState false false) = .next t ∧ t.status.err = false ∧ codeAt t.code 0x61 ≠ [] ∧
      codeAt t.code 0x62 ≠ [] :=
  ⟨_, rfl, by decide, by decide, by decide⟩

/-- SingleLeafGetsTheCodeZero: vector C10. -/
theorem witness_single_leaf :
    let s := { State.reset with node := arena [Node.leaf 0x7A 4], nodeCount := 1 }
    s.nodeCount.toNat ≤ 511 ∧ s.root.toNat < s.nodeCount.toNat ∧ (nodeAt s.node s.root.toNat).internal = false := by decide

/-- PackedStreamLayout: the last bit of one byte, and the first of the next. -/
theorem witness_bit_order : 7 < 9 ∧ 7 < 8 * [0x01#8, 0x80#8].length ∧ 8 < 9 ∧ 8 < 8 * [0x01#8, 0x80#8].length := by decide

/-- PackWritesThePaddedStream: 12 bits into exactly 3 bytes. -/
theorem witness_pack :
    let s := startAt [(0, 0xAB), (1, 0xCF)] 0 12 0x10 3
    s.dmem.wf ∧ RegionsOk s.dmemSize s.operands ((s.operands.srcLen.toNat + 7) / 8) ∧
      (packBits (bytesToBits (s.dmem.readBytes 0 2) 12) s.operands.padMode).length ≤ s.operands.dstCap.toNat :=
  ⟨by decide, ⟨by decide, by decide, by decide⟩, by decide⟩

/-- UnpkWritesTheLogicalBits: vector B9 with exactly 2 bytes of room. -/
theorem witness_unpk :
    let s := startAt [(0, 0x04), (1, 0xAB), (2, 0xC0)] 0 3 0x10 2
    s.dmem.wf ∧ RegionsOk s.dmemSize s.operands s.operands.srcLen.toNat ∧
      s.dmem.readBytes 0 3 = [0x04#8, 0xAB#8, 0xC0#8] ∧ (0x04#8 : Byte).toNat ≤ 8 ∧
      (∀ j ∈ [12, 13, 14, 15], (bytesToBits [0xAB#8, 0xC0#8] 16).getD j false = false) ∧ (12 + 7) / 8 ≤ s.operands.dstCap.toNat :=
  ⟨by decide, ⟨by decide, by decide, by decide⟩, by decide, by decide, by decide, by decide⟩

/-- MalformedStreamIsReported: vectors B13, B11, B12 and B17. -/
theorem witness_malformed :
    RegionsOk State.reset.dmemSize (startAt [] 0 3 0x10 4).operands 3 ∧
    ((startAt [] 0 0 0x10 4).dmem.readBytes 0 0 = []) ∧ 8 < (0x09#8 : Byte).toNat ∧
    8 * ([] : List Byte).length < (0x03#8 : Byte).toNat ∧
    (8 * 2 - (0x08#8 : Byte).toNat ≤ 15 ∧ (bytesToBits [0xA5#8, 0x01#8] 16).getD 15 false = true ∧
      (∀ m ∈ [8, 9, 10, 11, 12, 13, 14], (bytesToBits [0xA5#8, 0x01#8] 16).getD m false = false)) :=
  ⟨⟨by decide, by decide, by decide⟩, by decide, by decide, by decide, by decide⟩

/-- UnpackInvertsPack: PACK of 12 bits, then UNPK of its output at 0x10 to 0x20. -/
theorem witness_pack_then_unpack :
    ∃ t, (startAt [(0, 0xAB), (1, 0xCF)] 0 12 0x10 4).dmem.wf ∧
      exec .pack (startAt [(0, 0xAB), (1, 0xCF)] 0 12 0x10 4) = .next t ∧ t.status.err = false ∧ t.resLen = 3#32 ∧
      RegionsOk t.dmemSize (startAt [] 0x10 3 0x20 2).operands 3 ∧ (12 + 7) / 8 ≤ (startAt [] 0x10 3 0x20 2).operands.dstCap.toNat :=
  ⟨_, by decide, rfl, by decide, by decide, ⟨by decide, by decide, by decide⟩, by decide⟩

/-- EncWritesTheConcatenatedCodes: vector E1 with exactly 3 bytes of room. -/
theorem witness_enc :
    let s := withJob coded aaabbc 0 6 0x100 3
    let src := s.dmem.readBytes 0 6
    s.dmem.wf ∧ RegionsOk s.dmemSize s.operands s.operands.srcLen.toNat ∧ 0 < s.operands.srcLen.toNat ∧
      s.status.ctValid = true ∧ (∀ b ∈ src, codeAt s.code b ≠ []) ∧
      (packBits (src.flatMap (fun b => codeAt s.code b)) false).length ≤ s.operands.dstCap.toNat :=
  ⟨by decide, ⟨by decide, by decide, by decide⟩, by decide, by decide, by decide, by decide⟩

/-- EncErrorsInOrder: the empty source with EMPTYPOL = 1, no table, NO_CODE at byte 2 (E2), and one byte too little room (E3). -/
theorem witness_enc_errors :
    (let s := { State.reset with ctrl := { Ctrl.reset with emptyPol := true } }
     RegionsOk s.dmemSize s.operands 0 ∧ s.operands.srcLen = 0#32 ∧ s.operands.emptyPol = true) ∧
    (let s := withJob State.reset aaabbc 0 6 0x100 8
     RegionsOk s.dmemSize s.operands 6 ∧ 0 < s.operands.srcLen.toNat ∧ s.status.ctValid = false) ∧
    (let s := withJob coded [(0, 0x61), (1, 0x62), (2, 0x64)] 0 3 0x100 8
     let src := s.dmem.readBytes 0 3
     RegionsOk s.dmemSize s.operands 3 ∧ s.status.ctValid = true ∧ src[2]? = some 0x64#8 ∧ codeAt s.code 0x64#8 = [] ∧
       ∀ b ∈ src.take 2, codeAt s.code b ≠ []) ∧
    (let s := withJob coded aaabbc 0 6 0x100 2
     RegionsOk s.dmemSize s.operands 6 ∧ s.status.ctValid = true ∧
       s.operands.dstCap.toNat < (packBits ((s.dmem.readBytes 0 6).flatMap (fun b => codeAt s.code b)) false).length) :=
  ⟨⟨⟨by decide, by decide, by decide⟩, by decide, by decide⟩, ⟨⟨by decide, by decide, by decide⟩, by decide, by decide⟩,
    ⟨⟨by decide, by decide, by decide⟩, by decide, by decide, by decide, by decide⟩,
    ⟨⟨by decide, by decide, by decide⟩, by decide, by decide⟩⟩

/-- EmptyInputPolicy: mode 1 with 1 byte of room, and mode 0 with none: the empty stream does not fit. -/
theorem witness_empty_input_overflow :
    (let s := { startAt [] 0 0 0 1 with ctrl := { Ctrl.reset with padMode := true } }
     s.dmem.wf ∧ RegionsOk s.dmemSize s.operands 0 ∧ s.operands.srcLen = 0#32 ∧ s.operands.emptyPol = false ∧
       s.operands.padMode = true ∧ s.operands.dstCap.toNat < [0x08#8, 0x00#8].length) ∧
    (let s := startAt [] 0 0 0 0
     s.dmem.wf ∧ RegionsOk s.dmemSize s.operands 0 ∧ s.operands.srcLen = 0#32 ∧ s.operands.emptyPol = false ∧
       s.operands.padMode = false ∧ s.operands.dstCap.toNat < [0x00#8].length) :=
  ⟨⟨by decide, ⟨by decide, by decide, by decide⟩, by decide, by decide, by decide, by decide⟩,
    ⟨by decide, ⟨by decide, by decide, by decide⟩, by decide, by decide, by decide, by decide⟩⟩

/-- EmptyInputPolicy: mode 1 with exactly 2 bytes of room, and EMPTYPOL = 1. -/
theorem witness_empty_input :
    (let s := { startAt [] 0 0 0 2 with ctrl := { Ctrl.reset with padMode := true } }
     s.dmem.wf ∧ RegionsOk s.dmemSize s.operands 0 ∧ s.operands.srcLen = 0#32 ∧ s.operands.emptyPol = false ∧
       s.operands.padMode = true ∧ [0x08#8, 0x00#8].length ≤ s.operands.dstCap.toNat) ∧
    (let s := { startAt [] 0x10000 0 0x10000 0 with ctrl := { Ctrl.reset with emptyPol := true } }
     s.dmem.wf ∧ RegionsOk s.dmemSize s.operands 0 ∧ s.operands.srcLen = 0#32 ∧ s.operands.emptyPol = true) :=
  ⟨⟨by decide, ⟨by decide, by decide, by decide⟩, by decide, by decide, by decide, by decide⟩,
    ⟨by decide, ⟨by decide, by decide, by decide⟩, by decide, by decide⟩⟩

/-- OutputOverflowReportsTheSize: vectors B8 and B18. -/
theorem witness_output_overflow :
    (let s := startAt [] 0 0 0 0
     RegionsOk s.dmemSize s.operands 0 ∧ s.operands.dstCap.toNat < (packBits [] s.operands.padMode).length) ∧
    (let s := startAt [(1, 0xA5)] 0 2 0x10 0
     RegionsOk s.dmemSize s.operands 2 ∧
       unpackBytes (s.dmem.readBytes 0 2) = .ok [true, false, true, false, false, true, false, true] ∧
       s.operands.dstCap.toNat < (8 + 7) / 8) :=
  ⟨⟨⟨by decide, by decide, by decide⟩, by decide⟩, ⟨⟨by decide, by decide, by decide⟩, rfl, by decide⟩⟩

/-- CompRunsTheWholePipeline and CompSizeLaws: vector E10, whose output fits exactly, and E14, whose output does not. -/
theorem witness_comp :
    (let s := { textStart with dstCap := 3 }
     s.dmem.wf ∧ RegionsOk s.dmemSize s.operands s.operands.srcLen.toNat ∧ 0 < s.operands.srcLen.toNat) ∧
    (∃ t, exec .comp { textStart with dstCap := 3 } = .next t ∧ t.status.err = false ∧ t.resLen = 3#32) ∧
    (∃ t, exec .comp { textStart with dstCap := 2 } = .next t ∧ t.errPos = 3#32) :=
  ⟨⟨by decide, ⟨by decide, by decide, by decide⟩, by decide⟩, ⟨_, rfl, by decide, by decide⟩, ⟨_, rfl, by decide⟩⟩

/-- WalkDecodesExactlyTheCodedStrings: CGEN's walk of the T1 tree, and of a single leaf, ends without error. -/
theorem witness_walk :
    (∃ k, deriveCodes (treeState true true).node 5 4 = .ok k ∧ codeAt k.code 0x62 = [true, true]) ∧
    (∃ k, deriveCodes (arena [Node.leaf 0x7A 4]) 1 0 = .ok k ∧ codeAt k.code 0x7A = [false]) :=
  ⟨⟨_, rfl, by decide⟩, ⟨_, rfl, by decide⟩⟩

/-- DecRecoversTheCodedBytes: vector D1 with exactly 6 bytes of room, and D8, the stream of no bits with no tree. -/
theorem witness_dec :
    (∃ k, let s := withJob (treeState true false) [(0x100, 0x07), (0x101, 0x1F)] 0x100 3 0x200 6
      let out := [0x61#8, 0x61#8, 0x61#8, 0x62#8, 0x62#8, 0x63#8]
      s.dmem.wf ∧ RegionsOk s.dmemSize s.operands 3 ∧ s.status.treeValid = true ∧
        deriveCodes s.node s.nodeCount s.root = .ok k ∧
        unpackBytes (s.dmem.readBytes 0x100 3) = .ok (out.flatMap (fun b => codeAt k.code b)) ∧
        (∀ b ∈ out, codeAt k.code b ≠ []) ∧ out.length ≤ s.operands.dstCap.toNat) ∧
    (let s := withJob State.reset [] 0x100 1 0x200 0
     s.dmem.wf ∧ RegionsOk s.dmemSize s.operands 1 ∧ unpackBytes (s.dmem.readBytes 0x100 1) = .ok [] ∧
       s.status.treeValid = false) :=
  ⟨⟨_, by decide, ⟨by decide, by decide, by decide⟩, by decide, rfl, rfl, by decide, by decide⟩,
    ⟨by decide, ⟨by decide, by decide, by decide⟩, rfl, by decide⟩⟩

/-- DecErrorsInBitOrder: D7 (no tree), D3 ("0" and then "1", which ends inside a code), and D4 (room for two of six). -/
theorem witness_dec_errors :
    (let s := withJob (treeState false false) [(0x100, 0x07), (0x101, 0x1F)] 0x100 3 0x200 16
     RegionsOk s.dmemSize s.operands 3 ∧ s.status.treeValid = false ∧
       unpackBytes (s.dmem.readBytes 0x100 3) = .ok [false, false, false, true, true, true, true, true, false]) ∧
    (∃ k, let s := withJob (treeState true false) [(0x100, 0x06), (0x101, 0x40)] 0x100 2 0x200 1
      RegionsOk s.dmemSize s.operands 2 ∧ s.status.treeValid = true ∧ deriveCodes s.node s.nodeCount s.root = .ok k ∧
        unpackBytes (s.dmem.readBytes 0x100 2) = .ok (codeAt k.code 0x61 ++ [true]) ∧ codeAt k.code 0x61 ≠ [] ∧
        [true] ≠ ([] : Bits) ∧ ([true] : Bits) <+: codeAt k.code 0x62 ∧ [true] ≠ codeAt k.code 0x62) ∧
    (∃ k, let s := withJob (treeState true false) [(0x100, 0x07), (0x101, 0x1F)] 0x100 3 0x200 2
      s.status.treeValid = true ∧ deriveCodes s.node s.nodeCount s.root = .ok k ∧
        unpackBytes (s.dmem.readBytes 0x100 3) =
          .ok ([0x61#8, 0x61#8].flatMap (fun c => codeAt k.code c) ++ codeAt k.code 0x61 ++ [true, true, true, true, true, false]) ∧
        [0x61#8, 0x61#8].length = s.operands.dstCap.toNat) :=
  ⟨⟨⟨by decide, by decide, by decide⟩, by decide, rfl⟩,
    ⟨_, ⟨by decide, by decide, by decide⟩, by decide, rfl, rfl, by decide, by decide, by decide, by decide⟩,
    ⟨_, by decide, rfl, rfl, by decide⟩⟩

/-- DecErrorsInBitOrder: D12, the bits "0100" under a single leaf, with room for one byte. -/
theorem witness_dec_single_leaf :
    ∃ k, let s := withJob singleLeaf [(0x100, 0x04), (0x101, 0x40)] 0x100 2 0x200 1
      s.status.treeValid = true ∧ deriveCodes s.node s.nodeCount s.root = .ok k ∧
        unpackBytes (s.dmem.readBytes 0x100 2) = .ok [false, true, false, false] ∧
        (nodeAt s.node s.root.toNat).internal = false ∧ 1 ≤ s.operands.dstCap.toNat :=
  ⟨_, by decide, rfl, rfl, by decide, by decide⟩

/-- DecodeInvertsCompress: COMP of "aaabbc", then its stream at 0x100 decoded to 0x200, with the tree COMP left and with the
tree that BUILD makes of its FREQ. -/
theorem witness_round_trip :
    ∃ t w, exec .comp textStart = .next t ∧ t.status.err = false ∧ t.dmem.wf ∧ textStart.dmem.wf ∧
      RegionsOk t.dmemSize (startAt [] 0x100 3 0x200 6).operands 3 ∧ t.resLen = 3#32 ∧
      (textStart.dmem.readBytes 0 6).length ≤ (startAt [] 0x100 3 0x200 6).operands.dstCap.toNat ∧
      exec .build { State.reset with freq := t.freq } = .next w :=
  ⟨_, _, rfl, by decide, by decide, by decide, ⟨by decide, by decide, by decide⟩, by decide, by decide, rfl⟩

/-- StepKeepsTheCodeTableSound and StepKeepsTheTreeSound: a state with both validity bits 1 that meets the invariant. -/
theorem witness_table_sound :
    (∃ k, deriveCodes coded.node coded.nodeCount coded.root = .ok k ∧ coded.code = k.code ∧
      coded.symCount = BitVec.ofNat 9 k.leaves) ∧ coded.status.ctValid = true ∧ ∃ t, step coded = .next t :=
  ⟨⟨_, rfl, by decide, by decide⟩, by decide, ⟨_, rfl⟩⟩

/-- StepKeepsTheTreeSound: TREE_VALID = 1 with the single-leaf tree. -/
theorem witness_tree_sound :
    let s := singleLeaf
    s.status.treeValid = true ∧ s.TreeSound ∧ ∃ t, step s = .next t :=
  ⟨by decide, fun _ => witness_valid_tree, ⟨_, rfl⟩⟩

/-- StepKeepsTheStateInvariant: a busy machine with bytes in DMEM. -/
theorem witness_state_invariant :
    let s := { busyFacing (.read 0) with dmem := aaabbc }
    s.Inv ∧ ∃ t, step s = .next t := by
  refine ⟨⟨by decide, by decide, fun b => ?_, by decide, by decide, by decide, by decide, by decide, by decide⟩, ⟨_, rfl⟩⟩
  have : codeAt State.reset.code b = [] := by simp [codeAt, State.reset]
  change (codeAt State.reset.code b).length ≤ 255
  rw [this]
  decide

end Sys2Proof.Machine
end

section
/-! SUPPORT. The reserved offsets of the window: their decode, their read, and the proof that they are inert
(`20_memory.md` R63). -/

namespace Sys2Proof.Machine

/-- The register block has 26 registers (`10_state.md` R22 to R38). -/
theorem Reg.ofIndex_eq_none {n : Nat} (h : 26 ≤ n) : Reg.ofIndex n = Option.none := by
  obtain ⟨m, rfl⟩ := Nat.exists_eq_add_of_le' h
  rfl

/-- The three ranges of word offsets that select nothing (`20_memory.md` R61, R63). -/
theorem targetAt_reserved {size off : Nat}
    (h : (0x68 ≤ off ∧ off < 0x400) ∨ (0x17F8 ≤ off ∧ off < 0x10000) ∨ 0x10000 + size ≤ off) :
    targetAt size off = .reserved := by
  unfold targetAt
  rcases h with ⟨hlo, hhi⟩ | ⟨hlo, hhi⟩ | hlo
  · rw [if_pos hhi, Reg.ofIndex_eq_none (by omega)]
  · rw [if_neg (by omega), dif_neg (by omega), dif_neg (by omega), if_pos hhi]
  · rw [if_neg (by omega), dif_neg (by omega), dif_neg (by omega), if_neg (by omega), if_neg (by omega)]

/-- A reserved offset is not locked and reads 0, idle or busy (`20_memory.md` R63, R72). -/
theorem State.hostRead_reserved {s : State} {a : BitVec 17} (h : s.target a = .reserved) :
    s.hostRead a = { s with prdata := 0 } := by
  simp [State.hostRead, h, Target.locked, readTarget]

/-- Settles O9: the address decodes to the reserved target, at which a read answers 0 and a write is dropped. -/
theorem reservedOffsetsAreInert : Obligations.ReservedOffsetsAreInert := by
  intro s a rest h0 hoff
  have ht : ({ s with inputs := rest } : State).target a = .reserved := targetAt_reserved hoff
  refine ⟨fun h => ?_, fun strb d h => ?_⟩
  · exact (step_read h0 h).trans (congrArg _ (State.hostRead_reserved ht))
  · exact (step_write h0 h).trans (congrArg _ (State.hostWrite_reserved strb d ht))

end Sys2Proof.Machine
end

section
/-! SUPPORT. The encoder and the decoder are inverse on commands: the fields of a word survive packing, and the opcode map
undoes the opcode of each command (`30_encoding.md` R80, R81, R90). -/

namespace Sys2Proof

/-- OPC and RSV are read back from the word that holds them (`30_encoding.md` R80). -/
@[simp] theorem FormatC.ofWord_toWord (f : FormatC) : FormatC.ofWord f.toWord = f := by
  obtain ⟨opc, rsv⟩ := f
  have hopc : (rsv ++ opc).extractLsb' 0 8 = opc := BitVec.extractLsb'_append_eq_right
  have hrsv : (rsv ++ opc).extractLsb' 8 24 = rsv := BitVec.extractLsb'_append_eq_left
  exact congrArg₂ FormatC.mk hopc hrsv

/-- The opcode map sends each command's opcode back to the command (`30_encoding.md` R90). -/
@[simp] theorem opcodeInstr_opcode (i : Instr) : opcodeInstr i.opcode = some i := by
  cases i <;> rfl

/-- The decoder undoes the encoder: RSV is 0, so the opcode map decides (`30_encoding.md` R81). -/
@[simp] theorem decode_encode (i : Instr) : decode (encode i) = .cmd i := by
  simp [decode, encode]

/-- Settles O1: each word of the table is the encoder's word of its command, and the decoder undoes the encoder. -/
theorem commandWordsDecode : Obligations.CommandWordsDecode :=
  ⟨decode_encode .fclr, decode_encode .fcnt, decode_encode .build, decode_encode .cgen, decode_encode .enc,
    decode_encode .dec, decode_encode .pack, decode_encode .unpk, decode_encode .comp⟩

end Sys2Proof
end

section
/-! SUPPORT. What FCLR and FCNT leave in FREQ (`40_frequency.md` R110, R111), and the counting law (R112). -/

namespace Sys2Proof.Machine

/-! ### FCLR (`40_frequency.md` R110) -/

@[simp] theorem freqAt_clearedFreq (b : Byte) : freqAt clearedFreq b = 0#32 :=
  Vector.getElem_replicate b.isLt

@[simp] theorem exec_fclr (s : State) : exec .fclr s = .next ((clearFreq s).finish 0 0) := rfl

theorem clearFreq_hostSide (s : State) : HostSideKept s (clearFreq s) := by constructor <;> rfl

theorem clearFreq_tree (s : State) : TreeKept s (clearFreq s) := by constructor <;> rfl

/-- Settles O27: FCLR finishes on a state that differs from the old one in FREQ alone. -/
theorem fclrClearsTheTable : Obligations.FclrClearsTheTable :=
  ⟨decode_encode .fclr, fun s => ⟨_, exec_fclr s, State.finish_completedOk 0 0 _, freqAt_clearedFreq,
    (clearFreq_hostSide s).finish 0 0, (clearFreq_tree s).finish 0 0, rfl⟩⟩

/-! ### FCNT (`40_frequency.md` R111) -/

@[simp] theorem exec_fcnt (s : State) : exec .fcnt s = .next (runFcnt s.operands s) := rfl

/-- Counting one byte whose counter is not full adds 1 to that counter and to no other. -/
theorem freqAt_count_byte {f : Vector Word 256} {c : Byte} (h : freqAt f c ≠ 0xFFFFFFFF#32) (b : Byte) :
    (freqAt (f.set c.toNat (freqAt f c + 1) c.isLt) b).toNat = (freqAt f b).toNat + [c].count b := by
  rw [freqAt_set]
  split
  · next hb =>
    subst hb
    rw [List.count_singleton_self]
    bv_omega
  · next hb => rw [List.count_singleton, if_neg (by simpa using Ne.symm hb), Nat.add_zero]

/-- Counting that ends without overflow has added each byte's number of occurrences. -/
theorem freqAt_of_countBytes {bs : List Byte} {i : Nat} {f g : Vector Word 256} (h : countBytes bs i f = .ok g)
    (b : Byte) : (freqAt g b).toNat = (freqAt f b).toNat + bs.count b := by
  induction bs generalizing i f with
  | nil => cases h; rfl
  | cons c bs ih =>
    rw [countBytes] at h
    split at h
    · cases h
    · next hc =>
      calc (freqAt g b).toNat
          = (freqAt f b).toNat + [c].count b + bs.count b := by rw [ih h, freqAt_count_byte hc]
        _ = (freqAt f b).toNat + (c :: bs).count b := by
          rw [Nat.add_assoc, ← List.count_append, List.singleton_append]

/-- Everything FCNT can do. -/
theorem runFcnt_cases (o : Latched) (s : State) :
    (∃ p, badSrcRegion s.dmemSize o o.srcBytes = some p ∧ runFcnt o s = s.raise .badRegion p) ∨
    (∃ i f, badSrcRegion s.dmemSize o o.srcBytes = none ∧
      countBytes (s.source o o.srcBytes) 0 s.freq = .error (i, f) ∧
      runFcnt o s = State.raise .freqOvf i { s with freq := f }) ∨
    (∃ f, badSrcRegion s.dmemSize o o.srcBytes = none ∧ countBytes (s.source o o.srcBytes) 0 s.freq = .ok f ∧
      runFcnt o s = State.finish 0 0 { s with freq := f }) := by
  cases hr : badSrcRegion s.dmemSize o o.srcBytes with
  | some p => exact Or.inl ⟨p, rfl, by simp [runFcnt, hr]⟩
  | none =>
    cases hc : countBytes (s.source o o.srcBytes) 0 s.freq with
    | error e => exact Or.inr (Or.inl ⟨e.1, e.2, rfl, rfl, by simp [runFcnt, countSource, hr, hc]⟩)
    | ok f => exact Or.inr (Or.inr ⟨f, rfl, rfl, by simp [runFcnt, countSource, hr, hc]⟩)

/-- FCNT that completes without error under latched operands keeps DMEM and adds the byte counts of its source region. -/
theorem exec_fcnt_adds_counts {o : Latched} {s t : State} (h : exec .fcnt { s with engine := some o } = .next t)
    (he : t.status.err = false) :
    t.dmem = s.dmem ∧
      ∀ b, (freqAt t.freq b).toNat =
        (freqAt s.freq b).toNat + (s.dmem.readBytes o.srcAddr.toNat o.srcLen.toNat).count b := by
  rw [exec_fcnt] at h
  cases h
  rcases runFcnt_cases o { s with engine := some o } with ⟨p, -, hrun⟩ | ⟨i, f, -, -, hrun⟩ | ⟨f, -, hcount, hrun⟩ <;>
    rw [State.operands_withEngine, hrun] at he ⊢
  · cases he
  · cases he
  · exact ⟨rfl, freqAt_of_countBytes hcount⟩

/-! ### The counting law (`40_frequency.md` R112) -/

/-- A counter that holds the number of occurrences of a byte is nonzero exactly when the byte occurs. -/
theorem counter_ne_zero_iff {w : Word} {b : Byte} {bs : List Byte} (h : w.toNat = bs.count b) : w ≠ 0#32 ↔ b ∈ bs :=
  calc w ≠ 0#32 ↔ 0 < bs.count b := by rw [← h]; bv_omega
    _ ↔ b ∈ bs := List.count_pos_iff

/-- Settles O30: each FCNT adds its own counts to the cleared table, and counts of lists add up in either order. -/
theorem countingLaw : Obligations.CountingLaw := by
  intro s s1 s2 s3 o1 o2 src1 src2 h1 h2 he2 h3 he3 b
  rw [exec_fclr] at h1
  cases h1
  obtain ⟨(hdmem : s2.dmem = s.dmem), hadd1⟩ := exec_fcnt_adds_counts h2 he2
  obtain ⟨-, hadd2⟩ := exec_fcnt_adds_counts h3 he3
  have hcount1 : (freqAt s2.freq b).toNat = src1.count b := by
    simpa using hadd1 b
  have hcount2 : (freqAt s3.freq b).toNat = (src1 ++ src2).count b := by
    rw [hadd2, hcount1, hdmem, List.count_append]
  exact ⟨hcount1, counter_ne_zero_iff hcount1, hcount2, hcount2.trans (List.perm_append_comm.count_eq b)⟩

end Sys2Proof.Machine
end

section
/-! SUPPORT. What BUILD leaves behind: the forest that the merge loop keeps (`41_tree_builder.md` R121 to R124), the sum of
the counts, and the three ways BUILD completes (R120). -/

namespace Sys2Proof.Machine

/-! ### The working arena as a function of the index (`41_tree_builder.md` R121) -/

/-- The working arena's entry n. An index past its end reads as the reset entry, whose frequency is 0 as in `arenaFreq`. -/
def arenaEntry (ar : List Node) (n : Nat) : Node := ar.getD n Node.zero

theorem arenaFreq_eq (ar : List Node) (n : Nat) : arenaFreq ar n = (arenaEntry ar n).freq.toNat := by
  unfold arenaFreq arenaEntry
  cases h : ar[n]? <;> simp [h, Node.zero]

theorem arenaEntry_append_left {ar : List Node} {n : Nat} (x : Node) (h : n < ar.length) :
    arenaEntry (ar ++ [x]) n = arenaEntry ar n :=
  List.getD_append _ _ _ _ h

@[simp] theorem arenaEntry_append_length (ar : List Node) (x : Node) : arenaEntry (ar ++ [x]) ar.length = x := by
  simp [arenaEntry]

theorem arenaFreq_append_left {ar : List Node} {n : Nat} (x : Node) (h : n < ar.length) :
    arenaFreq (ar ++ [x]) n = arenaFreq ar n := by
  rw [arenaFreq_eq, arenaFreq_eq, arenaEntry_append_left x h]

/-- NODE after the arena is written to its front. -/
theorem nodeAt_overlay_arena {ar : List Node} {n : Nat} (v : Vector Node 511) (hn : n < ar.length) (h : n < 511) :
    nodeAt (overlay ar v) n = arenaEntry ar n := by
  rw [nodeAt_overlay _ _ _ h, dif_pos hn, arenaEntry, List.getD_eq_getElem _ _ hn]

/-- Two tables that BUILD overlays with the same arena agree on the arena's entries, the absent index included. -/
theorem nodeAt_overlay_eq (ar : List Node) (v v' : Vector Node 511) {n : Nat} (hn : n < ar.length) :
    nodeAt (overlay ar v) n = nodeAt (overlay ar v') n := by
  by_cases h : n < 511
  · rw [nodeAt_overlay_arena v hn h, nodeAt_overlay_arena v' hn h]
  · simp [nodeAt, h]

/-! ### Forests (`41_tree_builder.md` R123, R124) -/

/-- One of the two child fields of the node is c. -/
def Node.HasChild (x : Node) (c : Nat) : Prop := x.left.toNat = c ∨ x.right.toNat = c

theorem Node.inner_hasChild {f : Word} {x y : Nat} (hx : x < 512) (hy : y < 512) (c : Nat) :
    (Node.inner f x y).HasChild c ↔ x = c ∨ y = c := by
  simp [Node.HasChild, Node.inner, Nat.mod_eq_of_lt hx, Nat.mod_eq_of_lt hy]

/-- Entry n is what a merge writes: internal, SYM 0, over two different earlier entries whose frequencies it sums. -/
structure MergedAt (nd : Nat → Node) (n : Nat) : Prop where
  internal : (nd n).internal = true
  sym : (nd n).sym = 0#8
  left_lt : (nd n).left.toNat < n
  right_lt : (nd n).right.toNat < n
  left_ne_right : (nd n).left ≠ (nd n).right
  freq_eq : (nd n).freq.toNat = (nd (nd n).left.toNat).freq.toNat + (nd (nd n).right.toNat).freq.toNat

theorem MergedAt.child_lt {nd : Nat → Node} {n c : Nat} (h : MergedAt nd n) (hc : (nd n).HasChild c) : c < n := by
  rcases hc with rfl | rfl
  · exact h.left_lt
  · exact h.right_lt

/-- The entries below N are the leaves of the present symbols in order, then merged nodes that share no child. -/
structure Forest (ps : List (Byte × Word)) (nd : Nat → Node) (N : Nat) : Prop where
  leaf : ∀ j b w, ps[j]? = some (b, w) → nd j = Node.leaf b w
  merged : ∀ n, ps.length ≤ n → n < N → MergedAt nd n
  owner_unique : ∀ c n m, ps.length ≤ n → n < N → ps.length ≤ m → m < N →
    (nd n).HasChild c → (nd m).HasChild c → n = m

/-- What a merged node says depends on the entries up to it only. -/
theorem MergedAt.congr {nd nd' : Nat → Node} {n : Nat} (h : MergedAt nd n) (e : ∀ i, i ≤ n → nd' i = nd i) :
    MergedAt nd' n := by
  obtain ⟨hi, hs, hl, hr, hne, hf⟩ := h
  have hn := e n le_rfl
  constructor <;> rw [hn]
  · exact hi
  · exact hs
  · exact hl
  · exact hr
  · exact hne
  · rw [e _ hl.le, e _ hr.le]; exact hf

theorem Forest.congr {ps : List (Byte × Word)} {nd nd' : Nat → Node} {N : Nat} (h : Forest ps nd N)
    (hN : ps.length ≤ N) (e : ∀ i, i < N → nd' i = nd i) : Forest ps nd' N where
  leaf j b w hj := by
    have hlt : j < ps.length := (List.getElem?_eq_some_iff.1 hj).1
    rw [e j (by omega)]
    exact h.leaf j b w hj
  merged n hk hn := (h.merged n hk hn).congr (fun i hi => e i (by omega))
  owner_unique c n m hkn hn hkm hm hcn hcm := by
    rw [e n hn] at hcn
    rw [e m hm] at hcm
    exact h.owner_unique c n m hkn hn hkm hm hcn hcm

/-- A forest grows by a merged node over entries that no node owns. -/
theorem Forest.succ {ps : List (Byte × Word)} {nd : Nat → Node} {N : Nat} (h : Forest ps nd N) (hmerged : MergedAt nd N)
    (hfree : ∀ c n, (nd N).HasChild c → ps.length ≤ n → n < N → ¬ (nd n).HasChild c) : Forest ps nd (N + 1) where
  leaf := h.leaf
  merged n hk hn := by
    rcases Nat.lt_succ_iff_lt_or_eq.1 hn with hn | rfl
    · exact h.merged n hk hn
    · exact hmerged
  owner_unique c n m hkn hn hkm hm hcn hcm := by
    rcases Nat.lt_succ_iff_lt_or_eq.1 hn with hn | rfl <;> rcases Nat.lt_succ_iff_lt_or_eq.1 hm with hm | rfl
    · exact h.owner_unique c n m hkn hn hkm hm hcn hcm
    · exact absurd hcn (hfree c n hcm hkn hn)
    · exact absurd hcm (hfree c m hcn hkm hm)
    · rfl

/-! ### The merge loop keeps a forest (`41_tree_builder.md` R121) -/

/-- The sum of the counts of the present symbols. -/
def countSum (ps : List (Byte × Word)) : Nat := (ps.map (fun p => p.2.toNat)).sum

/-- The invariant of the merge loop: the arena is a forest, and the collection holds its roots, each once, the newest entry
last, with the total of the counts. -/
structure Merging (ps : List (Byte × Word)) (ar : List Node) (q : List Nat) : Prop where
  forest : Forest ps (arenaEntry ar) ar.length
  leaves_le : ps.length ≤ ar.length
  length_add : ar.length + q.length = 2 * ps.length
  getLast : q.getLast? = some (ar.length - 1)
  nodup : q.Nodup
  mem_iff : ∀ c, c ∈ q ↔
    c < ar.length ∧ ∀ n, ps.length ≤ n → n < ar.length → ¬ (arenaEntry ar n).HasChild c
  total : (q.map (arenaFreq ar)).sum = countSum ps

/-- The arena of the leaves alone. -/
theorem arenaEntry_leaves {ps : List (Byte × Word)} {j : Nat} {b : Byte} {w : Word} (h : ps[j]? = some (b, w)) :
    arenaEntry (ps.map (fun p => Node.leaf p.1 p.2)) j = Node.leaf b w := by
  simp [arenaEntry, h]

theorem arenaFreq_leaves (ps : List (Byte × Word)) :
    (List.range ps.length).map (arenaFreq (ps.map (fun p => Node.leaf p.1 p.2))) = ps.map (fun p => p.2.toNat) := by
  refine List.ext_getElem (by simp) (fun i _ h => ?_)
  have hi : i < ps.length := by simpa using h
  simp [arenaFreq, Node.leaf, hi]

/-- The invariant holds before the first turn: every leaf is a root. -/
theorem Merging.leaves {ps : List (Byte × Word)} (h : ps ≠ []) :
    Merging ps (ps.map (fun p => Node.leaf p.1 p.2)) (List.range ps.length) where
  forest :=
    { leaf := fun _ _ _ hj => arenaEntry_leaves hj
      merged := fun n hk hn => by rw [List.length_map] at hn; omega
      owner_unique := fun c n m hk hn => by rw [List.length_map] at hn; omega }
  leaves_le := by simp
  length_add := by simp; omega
  getLast := by simp [List.getLast?_range, h]
  nodup := List.nodup_range
  mem_iff c := by
    simp only [List.mem_range, List.length_map, iff_self_and]
    omega
  total := by rw [arenaFreq_leaves, countSum]

/-! ### One merge (`41_tree_builder.md` R121) -/

/-- The node that a merge of x and y appends. -/
def mergedNode (ar : List Node) (x y : Nat) : Node := Node.inner (BitVec.ofNat 32 (arenaFreq ar x + arenaFreq ar y)) x y

/-- A merge of two different entries appends a merged node when its frequency fits in 32 bits. -/
theorem mergedAt_mergedNode {ar : List Node} {x y : Nat} (hlen : ar.length ≤ 512) (hx : x < ar.length)
    (hy : y < ar.length) (hne : x ≠ y) (hsum : arenaFreq ar x + arenaFreq ar y < 2 ^ 32) :
    MergedAt (arenaEntry (ar ++ [mergedNode ar x y])) ar.length := by
  have hl : (mergedNode ar x y).left.toNat = x := Nat.mod_eq_of_lt (by omega)
  have hr : (mergedNode ar x y).right.toNat = y := Nat.mod_eq_of_lt (by omega)
  have hf : (mergedNode ar x y).freq.toNat = arenaFreq ar x + arenaFreq ar y := Nat.mod_eq_of_lt hsum
  constructor <;> rw [arenaEntry_append_length]
  · rfl
  · rfl
  · rwa [hl]
  · rwa [hr]
  · intro e
    exact hne (hl.symm.trans ((congrArg BitVec.toNat e).trans hr))
  · rw [hf, hl, hr, ← arenaFreq_eq, ← arenaFreq_eq, arenaFreq_append_left _ hx, arenaFreq_append_left _ hy]

/-- The collection after a merge: x and y are out, the new node is in. -/
theorem mem_collection {q : List Nat} (hq : q.Nodup) (x y N c : Nat) :
    c ∈ (q.erase x).erase y ++ [N] ↔ (c ≠ y ∧ c ≠ x ∧ c ∈ q) ∨ c = N := by
  rw [List.mem_append, (hq.erase x).mem_erase_iff, hq.mem_erase_iff, List.mem_singleton]

/-- Two nodes out and one in: the collection is one smaller. -/
theorem length_collection {q : List Nat} {x y : Nat} (hx : x ∈ q) (hy : y ∈ q.erase x) (N : Nat) :
    ((q.erase x).erase y ++ [N]).length + 1 = q.length := by
  have herasex := List.length_erase_of_mem hx
  have herasey := List.length_erase_of_mem hy
  have := List.length_pos_of_mem hy
  rw [List.length_append, List.length_singleton]
  omega

section
variable {ps : List (Byte × Word)} {ar : List Node} {q : List Nat} {x y : Nat}

/-- What the collection holds, with two of its elements taken apart. -/
theorem Merging.total_pair (h : Merging ps ar q) (hx : x ∈ q) (hy : y ∈ q.erase x) :
    arenaFreq ar x + (arenaFreq ar y + (((q.erase x).erase y).map (arenaFreq ar)).sum) = countSum ps := by
  rw [List.sum_map_erase _ hy, List.sum_map_erase _ hx, h.total]

theorem Merging.lt_length (h : Merging ps ar q) {c : Nat} (hc : c ∈ q) : c < ar.length := ((h.mem_iff c).1 hc).1

/-- An element of the collection is nobody's child. -/
theorem Merging.not_hasChild (h : Merging ps ar q) {c n : Nat} (hc : c ∈ q) (hk : ps.length ≤ n) (hn : n < ar.length) :
    ¬ (arenaEntry ar n).HasChild c :=
  ((h.mem_iff c).1 hc).2 n hk hn

/-- An index past the arena is nobody's child. -/
theorem Merging.not_hasChild_length (h : Merging ps ar q) {n : Nat} (hk : ps.length ≤ n) (hn : n < ar.length) :
    ¬ (arenaEntry ar n).HasChild ar.length := by
  intro hc
  have := (h.forest.merged n hk hn).child_lt hc
  omega

/-- The children of the node that a merge appends. -/
theorem Merging.mergedNode_hasChild (h : Merging ps ar q) (hx : x ∈ q) (hy : y ∈ q) (hk : ps.length ≤ 256) (c : Nat) :
    (mergedNode ar x y).HasChild c ↔ x = c ∨ y = c := by
  have hlen := h.length_add
  have hxlt := h.lt_length hx
  have hylt := h.lt_length hy
  exact Node.inner_hasChild (by omega) (by omega) c

/-- After a merge the collection is again the nodes that nobody owns. -/
theorem Merging.mem_iff_merge (h : Merging ps ar q) (hx : x ∈ q) (hy : y ∈ q) (hk : ps.length ≤ 256) (c : Nat) :
    c ∈ (q.erase x).erase y ++ [ar.length] ↔ c < ar.length + 1 ∧ ∀ n, ps.length ≤ n → n < ar.length + 1 →
      ¬ (arenaEntry (ar ++ [mergedNode ar x y]) n).HasChild c := by
  have hnew := h.mergedNode_hasChild hx hy hk
  have hxlt := h.lt_length hx
  have hylt := h.lt_length hy
  rw [mem_collection h.nodup]
  constructor
  · intro hc
    refine ⟨?_, fun n hkn hn => ?_⟩
    · rcases hc with ⟨-, -, hcq⟩ | rfl
      · exact Nat.lt_succ_of_lt (h.lt_length hcq)
      · exact Nat.lt_succ_self _
    rcases Nat.lt_succ_iff_lt_or_eq.1 hn with hn | rfl
    · rw [arenaEntry_append_left _ hn]
      rcases hc with ⟨-, -, hcq⟩ | rfl
      · exact h.not_hasChild hcq hkn hn
      · exact h.not_hasChild_length hkn hn
    · rw [arenaEntry_append_length, hnew]
      omega
  · rintro ⟨hc, hfree⟩
    rcases Nat.lt_succ_iff_lt_or_eq.1 hc with hc | rfl
    · have hlast := hfree ar.length h.leaves_le (Nat.lt_succ_self _)
      rw [arenaEntry_append_length, hnew, not_or] at hlast
      refine Or.inl ⟨Ne.symm hlast.2, Ne.symm hlast.1, (h.mem_iff c).2 ⟨hc, fun n hkn hn => ?_⟩⟩
      rw [← arenaEntry_append_left (mergedNode ar x y) hn]
      exact hfree n hkn (Nat.lt_succ_of_lt hn)
    · exact Or.inr rfl

/-- After a merge the collection still holds the total. -/
theorem Merging.total_merge (h : Merging ps ar q) (hx : x ∈ q) (hy : y ∈ q.erase x) (hsum : countSum ps < 2 ^ 32) :
    (((q.erase x).erase y ++ [ar.length]).map (arenaFreq (ar ++ [mergedNode ar x y]))).sum = countSum ps := by
  have hpair := h.total_pair hx hy
  have hold : ((q.erase x).erase y).map (arenaFreq (ar ++ [mergedNode ar x y])) =
      ((q.erase x).erase y).map (arenaFreq ar) := by
    refine List.map_congr_left (fun c hc => arenaFreq_append_left _ (h.lt_length ?_))
    exact List.mem_of_mem_erase (List.mem_of_mem_erase hc)
  have hnew : arenaFreq (ar ++ [mergedNode ar x y]) ar.length = arenaFreq ar x + arenaFreq ar y := by
    rw [arenaFreq_eq, arenaEntry_append_length]
    exact Nat.mod_eq_of_lt (by omega)
  rw [List.map_append, List.sum_append, hold, List.map_singleton, List.sum_singleton, hnew]
  omega

/-- One merge keeps the invariant: two roots of the collection become the children of a new one. -/
theorem Merging.merge_pair (h : Merging ps ar q) (hx : x ∈ q) (hy : y ∈ q.erase x) (hk : ps.length ≤ 256)
    (hsum : countSum ps < 2 ^ 32) :
    Merging ps (ar ++ [mergedNode ar x y]) ((q.erase x).erase y ++ [ar.length]) := by
  obtain ⟨hyx, hyq⟩ := h.nodup.mem_erase_iff.1 hy
  have hlen := h.length_add
  have hpos := List.length_pos_of_mem hx
  have hxlt := h.lt_length hx
  have hpair := h.total_pair hx hy
  have harena : (ar ++ [mergedNode ar x y]).length = ar.length + 1 := by simp
  have hcoll := length_collection hx hy ar.length
  constructor
  case forest =>
    rw [harena]
    refine (h.forest.congr h.leaves_le fun i hi => arenaEntry_append_left _ hi).succ
      (mergedAt_mergedNode (by omega) hxlt (h.lt_length hyq) (Ne.symm hyx) (by omega)) ?_
    intro c n hc hkn hn
    rw [arenaEntry_append_length, h.mergedNode_hasChild hx hyq hk] at hc
    rw [arenaEntry_append_left _ hn]
    rcases hc with rfl | rfl
    · exact h.not_hasChild hx hkn hn
    · exact h.not_hasChild hyq hkn hn
  case leaves_le => rw [harena]; exact Nat.le_succ_of_le h.leaves_le
  case length_add => omega
  case getLast => simp
  case nodup =>
    refine List.Nodup.append ((h.nodup.erase x).erase y) (List.nodup_singleton _) ?_
    rw [List.disjoint_singleton]
    intro hmem
    exact Nat.lt_irrefl _ (h.lt_length (List.mem_of_mem_erase (List.mem_of_mem_erase hmem)))
  case mem_iff => rw [harena]; exact h.mem_iff_merge hx hyq hk
  case total => exact h.total_merge hx hy hsum

end

/-! ### The whole merge (`41_tree_builder.md` R121) -/

/-- n turns on a collection of n + 1 keep the invariant and leave one root. -/
theorem Merging.mergeLoop_single {ps : List (Byte × Word)} (hk : ps.length ≤ 256) (hsum : countSum ps < 2 ^ 32) {n : Nat}
    {ar : List Node} {q : List Nat} (h : Merging ps ar q) (hq : q.length = n + 1) :
    ∃ ar' r, mergeLoop n ar q = (ar', [r]) ∧ Merging ps ar' [r] := by
  induction n generalizing ar q with
  | zero =>
    obtain ⟨r, rfl⟩ := List.length_eq_one_iff.1 hq
    exact ⟨ar, r, rfl, h⟩
  | succ n ih =>
    obtain ⟨x, y, hx, hy, -, -, hturn⟩ := mergeLoop_succ n ar (q := q) (by omega)
    rw [hturn]
    have hcoll := length_collection hx hy ar.length
    exact ih (h.merge_pair hx hy hk hsum) (by omega)

/-- The merge of the present symbols ends with a forest of one root. -/
theorem merging_merge {ps : List (Byte × Word)} (h : ps ≠ []) (hk : ps.length ≤ 256) (hsum : countSum ps < 2 ^ 32) :
    Merging ps (merge ps).1 [(merge ps).2] := by
  have hpos : 0 < ps.length := List.length_pos_iff.2 h
  obtain ⟨ar, r, hloop, hm⟩ := (Merging.leaves h).mergeLoop_single hk hsum (n := ps.length - 1) (by simp; omega)
  have hmerge : merge ps = (ar, r) := by simp [merge, hloop]
  rw [hmerge]
  exact hm

section
variable {ps : List (Byte × Word)} {ar : List Node} {r : Nat}

theorem Merging.single_length (h : Merging ps ar [r]) : ar.length = 2 * ps.length - 1 := by
  have := h.length_add
  rw [List.length_singleton] at this
  omega

/-- The last node made is the root. -/
theorem Merging.single_root (h : Merging ps ar [r]) : r = 2 * ps.length - 2 := by
  have hlast : r = ar.length - 1 := by simpa using h.getLast
  have := h.single_length
  omega

/-- Every node but the root has an owner. -/
theorem Merging.exists_owner (h : Merging ps ar [r]) {c : Nat} (hc : c < 2 * ps.length - 2) :
    ∃ n, ps.length ≤ n ∧ n < ar.length ∧ (arenaEntry ar n).HasChild c := by
  have hroot := h.single_root
  have hlen := h.single_length
  have hnot : c ∉ [r] := by
    rw [List.mem_singleton]
    omega
  rw [h.mem_iff, not_and] at hnot
  by_contra hno
  exact hnot (by omega) fun n hkn hn hchild => hno ⟨n, hkn, hn, hchild⟩

/-- The root holds the total. -/
theorem Merging.freq_root (h : Merging ps ar [r]) : (arenaEntry ar r).freq.toNat = countSum ps := by
  rw [← arenaFreq_eq, ← h.total, List.map_singleton, List.sum_singleton]

end

/-! ### The counts of the present symbols (`41_tree_builder.md` R120) -/

theorem length_present_le (f : Vector Word 256) : (present f).length ≤ 256 := by
  rw [present, List.length_map]
  exact (List.length_filter_le _ _).trans (by simp)

/-- Leaving out the zero counts does not change a sum. -/
theorem sum_filter_ne_zero (l : List (Word × Nat)) :
    ((l.filter (fun p => p.1 ≠ 0)).map (fun p => p.1.toNat)).sum = (l.map (fun p => p.1.toNat)).sum := by
  induction l with
  | nil => rfl
  | cons p l ih =>
    by_cases hp : p.1 = 0
    · rw [List.filter_cons_of_neg (by simpa using hp), ih, List.map_cons, List.sum_cons, hp]
      exact (Nat.zero_add _).symm
    · rw [List.filter_cons_of_pos (by simpa using hp), List.map_cons, List.sum_cons, ih, List.map_cons, List.sum_cons]

/-- The counts of the present symbols add up to the total of the table. -/
theorem countSum_present (f : Vector Word 256) : countSum (present f) = freqTotal f := by
  have hlist : f.toList.zipIdx.map (fun p => p.1.toNat) =
      (List.range 256).map (fun j => (freqAt f (BitVec.ofNat 8 j)).toNat) := by
    refine List.ext_getElem (by simp) (fun i _ hi => ?_)
    have hi : i < 256 := by simpa using hi
    simp [freqAt, Nat.mod_eq_of_lt hi]
  rw [freqTotal, freqSumBelow, ← hlist, ← sum_filter_ne_zero, countSum, present, List.map_map]
  rfl

/-- Without an overflow the running total ends below 2^32. -/
theorem countSum_le_of_sumOverflow {ps : List (Byte × Word)} {acc : Nat} (hacc : acc ≤ 0xFFFFFFFF)
    (h : sumOverflow ps acc = none) : acc + countSum ps ≤ 0xFFFFFFFF := by
  induction ps generalizing acc with
  | nil => exact hacc
  | cons p ps ih =>
    rw [sumOverflow] at h
    split at h
    · cases h
    · next hle =>
      have := ih (by omega) h
      rw [countSum, List.map_cons, List.sum_cons, ← countSum]
      omega

/-! ### How BUILD completes (`41_tree_builder.md` R120) -/

@[simp] theorem exec_build (s : State) : exec .build s = .next (runBuild s) := rfl

theorem runBuild_emptyTable {s : State} (h : present s.freq = []) : runBuild s = s.raise .emptyTable 0 := by
  simp [runBuild, buildTree, h]

theorem runBuild_sumOvf {s : State} {b : Byte} (h : present s.freq ≠ []) (hb : sumOverflow (present s.freq) 0 = some b) :
    runBuild s = s.raise .sumOvf b.toNat := by
  simp [runBuild, buildTree, h, hb]

theorem runBuild_ok {s : State} (h : present s.freq ≠ []) (hn : sumOverflow (present s.freq) 0 = none) :
    runBuild s = (writeTree (present s.freq) s).finish 0 0 := by
  simp [runBuild, buildTree, h, hn]

/-- BUILD without error found a table that is not empty, with a total that fits in 32 bits, and wrote its tree. -/
theorem runBuild_of_err_eq_false {s : State} (h : (runBuild s).status.err = false) :
    present s.freq ≠ [] ∧ countSum (present s.freq) < 2 ^ 32 ∧
      runBuild s = (writeTree (present s.freq) s).finish 0 0 := by
  by_cases hp : present s.freq = []
  · rw [runBuild_emptyTable hp] at h
    cases h
  cases ho : sumOverflow (present s.freq) 0 with
  | some b =>
    rw [runBuild_sumOvf hp ho] at h
    cases h
  | none =>
    have := countSum_le_of_sumOverflow (by decide) ho
    exact ⟨hp, by omega, runBuild_ok hp ho⟩

theorem writeTree_node (ps : List (Byte × Word)) (s : State) : (writeTree ps s).node = overlay (merge ps).1 s.node := rfl

theorem writeTree_nodeCount (ps : List (Byte × Word)) (s : State) :
    (writeTree ps s).nodeCount = BitVec.ofNat 10 (merge ps).1.length := rfl

theorem writeTree_root (ps : List (Byte × Word)) (s : State) :
    (writeTree ps s).root = BitVec.ofNat 9 (merge ps).2 := rfl

/-- Settles O33: the merge loop keeps a forest whose roots, the collection, hold the total; when one root is left, the
forest is a tree and every other node has its one owner. -/
theorem builtTreeIsFullAndOwnedOnce : Obligations.BuiltTreeIsFullAndOwnedOnce := by
  intro s t hexec herr ps k nd
  rw [exec_build] at hexec
  cases hexec
  obtain ⟨hne, hsum, hrun⟩ := runBuild_of_err_eq_false herr
  have hk : k ≤ 256 := length_present_le s.freq
  have hm : Merging ps (merge ps).1 [(merge ps).2] := merging_merge hne hk hsum
  have hroot : (merge ps).2 = 2 * k - 2 := hm.single_root
  have hlen : (merge ps).1.length = 2 * k - 1 := hm.single_length
  have hpos : 0 < k := List.length_pos_iff.2 hne
  have hnd : ∀ n, n < 2 * k - 1 → nd n = arenaEntry (merge ps).1 n := by
    intro n hn
    change nodeAt (runBuild s).node n = _
    rw [hrun, State.finish_node, writeTree_node, nodeAt_overlay_arena s.node (hlen ▸ hn) (by omega)]
  have hforest : Forest ps nd (2 * k - 1) :=
    hlen ▸ hm.forest.congr hm.leaves_le fun i hi => hnd i (by omega)
  refine ⟨?_, hforest.leaf, ?_, ?_, ?_⟩
  · rw [hrun, State.finish_root, writeTree_root, BitVec.toNat_ofNat, Nat.mod_eq_of_lt (hroot.trans_lt (by omega))]
    exact hroot
  · intro n hkn hn
    have h := hforest.merged n hkn hn
    exact ⟨h.internal, h.sym, h.left_lt, h.right_lt, h.left_ne_right, h.freq_eq⟩
  · intro c hc
    obtain ⟨n, hkn, hn, hchild⟩ := hm.exists_owner hc
    rw [← hnd n (by omega)] at hchild
    refine ⟨n, ⟨hkn, by omega, hchild⟩, fun m hkm hm hchild' => ?_⟩
    exact hforest.owner_unique c m n hkm hm hkn (by omega) hchild' hchild
  · rw [hnd _ (by omega), ← hroot, hm.freq_root]
    exact countSum_present s.freq

/-- Settles O35: the branch BUILD takes, and what it writes there, are functions of the present symbols. -/
theorem buildDependsOnFreqAlone : Obligations.BuildDependsOnFreqAlone := by
  intro s s' t t' hfreq hexec hexec'
  rw [exec_build] at hexec hexec'
  cases hexec
  cases hexec'
  by_cases hp : present s.freq = []
  · rw [runBuild_emptyTable hp, runBuild_emptyTable (hfreq ▸ hp)]
    exact ⟨rfl, rfl, nofun⟩
  cases ho : sumOverflow (present s.freq) 0 with
  | some b =>
    rw [runBuild_sumOvf hp ho, runBuild_sumOvf (hfreq ▸ hp) (hfreq ▸ ho)]
    exact ⟨rfl, rfl, nofun⟩
  | none =>
    rw [runBuild_ok hp ho, runBuild_ok (hfreq ▸ hp) (hfreq ▸ ho), ← hfreq]
    refine ⟨rfl, rfl, fun _ => ⟨rfl, rfl, rfl, fun n hn => ?_⟩⟩
    rw [State.finish_nodeCount, writeTree_nodeCount, BitVec.toNat_ofNat] at hn
    rw [State.finish_node, State.finish_node, writeTree_node, writeTree_node]
    exact nodeAt_overlay_eq _ s.node s'.node (hn.trans_le (Nat.mod_le _ _))

end Sys2Proof.Machine
end

section
/-! SUPPORT. What CGEN's walk leaves in CODE: each reached leaf's path under the leaf's symbol (`42_code_table.md` R131,
R133), and why no path is a prefix of another (R135). -/

namespace Sys2Proof.Machine

/-! ### Paths to leaves (`42_code_table.md` R131) -/

theorem leafPath_nil {node : Vector Node 511} {n : Nat} {b : Byte} :
    LeafPath node n [] b ↔ (nodeAt node n).internal = false ∧ (nodeAt node n).sym = b := by
  simp [LeafPath, followPath]

theorem leafPath_cons {node : Vector Node 511} {n : Nat} {c : Bool} {p : Bits} {b : Byte} :
    LeafPath node n (c :: p) b ↔ (nodeAt node n).internal = true ∧
      LeafPath node (if c then (nodeAt node n).right.toNat else (nodeAt node n).left.toNat) p b := by
  cases hi : (nodeAt node n).internal <;> simp [LeafPath, followPath, hi]

/-- From a leaf only the empty path leads to a leaf. -/
theorem leafPath_of_leaf {node : Vector Node 511} {n : Nat} (hi : (nodeAt node n).internal = false) {p : Bits} {b : Byte} :
    LeafPath node n p b ↔ p = [] ∧ (nodeAt node n).sym = b := by
  cases p with
  | nil => simp [leafPath_nil, hi]
  | cons c p => simp [leafPath_cons, hi]

/-- From an internal node the paths to leaves are those of its two subtrees, with the step to the child in front. -/
theorem leafPath_of_internal {node : Vector Node 511} {n : Nat} (hi : (nodeAt node n).internal = true) {p : Bits}
    {b : Byte} :
    LeafPath node n p b ↔
      (∃ q, p = false :: q ∧ LeafPath node (nodeAt node n).left.toNat q b) ∨
      (∃ q, p = true :: q ∧ LeafPath node (nodeAt node n).right.toNat q b) := by
  cases p with
  | nil => simp [leafPath_nil, hi]
  | cons c p => cases c <;> simp [leafPath_cons, hi]

/-- The symbols under an internal node are those of its two subtrees. -/
theorem exists_leafPath_of_internal {node : Vector Node 511} {n : Nat} (hi : (nodeAt node n).internal = true) (b : Byte) :
    (∃ p, LeafPath node n p b) ↔
      (∃ p, LeafPath node (nodeAt node n).left.toNat p b) ∨ ∃ p, LeafPath node (nodeAt node n).right.toNat p b := by
  constructor
  · rintro ⟨p, hp⟩
    exact ((leafPath_of_internal hi).1 hp).imp (fun ⟨q, _, hq⟩ => ⟨q, hq⟩) (fun ⟨q, _, hq⟩ => ⟨q, hq⟩)
  · rintro (⟨q, hq⟩ | ⟨q, hq⟩)
    · exact ⟨_, (leafPath_of_internal hi).2 (Or.inl ⟨q, rfl, hq⟩)⟩
    · exact ⟨_, (leafPath_of_internal hi).2 (Or.inr ⟨q, rfl, hq⟩)⟩

/-- Below a leaf there is no other leaf: a path to a leaf goes on beyond no leaf (`42_code_table.md` R135). -/
theorem LeafPath.eq_of_prefix {node : Vector Node 511} {n : Nat} {p q : Bits} {a b : Byte} (hp : LeafPath node n p a)
    (hq : LeafPath node n q b) (h : p <+: q) : a = b := by
  induction p generalizing n q with
  | nil =>
    obtain ⟨hi, ha⟩ := leafPath_nil.1 hp
    exact ha.symm.trans ((leafPath_of_leaf hi).1 hq).2
  | cons c p ih =>
    obtain ⟨r, rfl⟩ := h
    exact ih (leafPath_cons.1 hp).2 (leafPath_cons.1 hq).2 (List.prefix_append p r)

theorem pathCode_ne_nil (p : Bits) : pathCode p ≠ [] := by
  unfold pathCode
  split
  · simp
  · assumption

theorem pathCode_length (p : Bits) : (pathCode p).length = max 1 p.length := by
  cases p <;> simp [pathCode]

/-- Under an internal root a code is its path. -/
theorem LeafPath.pathCode_eq {node : Vector Node 511} {n : Nat} (hi : (nodeAt node n).internal = true) {p : Bits}
    {b : Byte} (hp : LeafPath node n p b) : pathCode p = p := by
  refine if_neg ?_
  rintro rfl
  simp [leafPath_nil, hi] at hp

/-- The single-leaf code "0" stands alone in its tree, so the codes are as prefix-free as the paths (`42_code_table.md` R135). -/
theorem LeafPath.eq_of_pathCode_prefix {node : Vector Node 511} {n : Nat} {p q : Bits} {a b : Byte}
    (hp : LeafPath node n p a) (hq : LeafPath node n q b) (h : pathCode p <+: pathCode q) : a = b := by
  cases hi : (nodeAt node n).internal with
  | false => exact ((leafPath_of_leaf hi).1 hp).2.symm.trans ((leafPath_of_leaf hi).1 hq).2
  | true =>
    rw [hp.pathCode_eq hi, hq.pathCode_eq hi] at h
    exact hp.eq_of_prefix hq h

/-! ### The walk of a subtree (`42_code_table.md` R131) -/

/-- The walk of the subtree at n, reached along `path`, took k to k': the symbols of its leaves were new and are all
different, each got its leaf's path as code, and no other symbol is touched. -/
structure WalkedSubtree (node : Vector Node 511) (n : Nat) (path : Bits) (k k' : Walk) : Prop where
  seen_iff : ∀ b, b ∈ k'.seen ↔ b ∈ k.seen ∨ ∃ p, LeafPath node n p b
  fresh : ∀ p b, LeafPath node n p b → b ∉ k.seen
  symbols : ∀ p q b, LeafPath node n p b → LeafPath node n q b → p = q
  leaf : ∀ p b, LeafPath node n p b → codeAt k'.code b = pathCode (path ++ p)
  absent : ∀ b, (∀ p, ¬ LeafPath node n p b) → codeAt k'.code b = codeAt k.code b

/-- A reached leaf with a new symbol. -/
theorem WalkedSubtree.of_leaf {node : Vector Node 511} {n : Nat} {path : Bits} {k : Walk}
    (hi : (nodeAt node n).internal = false) (hs : (nodeAt node n).sym ∉ k.seen) :
    WalkedSubtree node n path k
      { visited := n :: k.visited
        seen := (nodeAt node n).sym :: k.seen
        leaves := k.leaves + 1
        code := k.code.set (nodeAt node n).sym.toNat (pathCode path) (nodeAt node n).sym.isLt } where
  seen_iff b := by simp [leafPath_of_leaf hi, eq_comm, or_comm]
  fresh p b hp := ((leafPath_of_leaf hi).1 hp).2 ▸ hs
  symbols p q b hp hq := ((leafPath_of_leaf hi).1 hp).1.trans ((leafPath_of_leaf hi).1 hq).1.symm
  leaf p b hp := by
    obtain ⟨rfl, rfl⟩ := (leafPath_of_leaf hi).1 hp
    rw [codeAt_set, if_pos rfl, List.append_nil]
  absent b hb := by
    have hne : b ≠ (nodeAt node n).sym := fun e => hb [] ((leafPath_of_leaf hi).2 ⟨rfl, e.symm⟩)
    rw [codeAt_set, if_neg hne]

/-- A symbol of the left subtree is seen before the walk enters the right subtree, so it is not there again. -/
theorem WalkedSubtree.disjoint {node : Vector Node 511} {l r : Nat} {path path' : Bits} {k k1 k' : Walk}
    (hl : WalkedSubtree node l path k k1) (hr : WalkedSubtree node r path' k1 k') {p q : Bits} {b : Byte}
    (hp : LeafPath node l p b) : ¬ LeafPath node r q b :=
  fun hq => hr.fresh q b hq ((hl.seen_iff b).2 (Or.inr ⟨p, hp⟩))

/-- An internal node whose two subtrees were walked, left before right. -/
theorem WalkedSubtree.of_internal {node : Vector Node 511} {n : Nat} {path : Bits} {k k1 k' : Walk}
    (hi : (nodeAt node n).internal = true)
    (hl : WalkedSubtree node (nodeAt node n).left.toNat (path ++ [false]) { k with visited := n :: k.visited } k1)
    (hr : WalkedSubtree node (nodeAt node n).right.toNat (path ++ [true]) k1 k') :
    WalkedSubtree node n path k k' where
  seen_iff b := by rw [hr.seen_iff, hl.seen_iff, or_assoc, exists_leafPath_of_internal hi]
  fresh p b hp := by
    rcases (leafPath_of_internal hi).1 hp with ⟨p, rfl, hp'⟩ | ⟨p, rfl, hp'⟩
    · exact hl.fresh p b hp'
    · exact fun hb => hr.fresh p b hp' ((hl.seen_iff b).2 (Or.inl hb))
  symbols p q b hp hq := by
    rcases (leafPath_of_internal hi).1 hp with ⟨p, rfl, hp'⟩ | ⟨p, rfl, hp'⟩ <;>
      rcases (leafPath_of_internal hi).1 hq with ⟨q, rfl, hq'⟩ | ⟨q, rfl, hq'⟩
    · rw [hl.symbols p q b hp' hq']
    · exact absurd hq' (hl.disjoint hr hp')
    · exact absurd hp' (hl.disjoint hr hq')
    · rw [hr.symbols p q b hp' hq']
  leaf p b hp := by
    rcases (leafPath_of_internal hi).1 hp with ⟨p, rfl, hp'⟩ | ⟨p, rfl, hp'⟩
    · rw [hr.absent b fun _ => hl.disjoint hr hp', hl.leaf p b hp', List.append_assoc, List.singleton_append]
    · rw [hr.leaf p b hp', List.append_assoc, List.singleton_append]
  absent b hb := by
    rw [hr.absent b fun q hq => hb _ ((leafPath_of_internal hi).2 (Or.inr ⟨q, rfl, hq⟩)),
      hl.absent b fun q hq => hb _ ((leafPath_of_internal hi).2 (Or.inl ⟨q, rfl, hq⟩))]

theorem walkedSubtree_of_walkTree {node : Vector Node 511} {count room n : Nat} {path : Bits} {k k' : Walk}
    (h : walkTree node count room n path k = .ok k') : WalkedSubtree node n path k k' := by
  induction room generalizing n path k k' with
  | zero => cases h
  | succ room ih =>
    obtain ⟨_, e, -, -, hcase⟩ := walkTree_ok h
    cases e
    rcases hcase with ⟨hi, k1, hleft, hright⟩ | ⟨hi, hs, rfl⟩
    · exact .of_internal hi (ih hleft) (ih hright)
    · exact .of_leaf hi hs

/-- The walk that ends without fail has room for every path from its node. -/
theorem followPath_length_lt {node : Vector Node 511} {count room n m : Nat} {path p : Bits} {k k' : Walk}
    (h : walkTree node count room n path k = .ok k') (hp : followPath node n p = some m) : p.length < room := by
  induction p generalizing room n path k k' with
  | nil =>
    obtain ⟨room', rfl, -⟩ := walkTree_ok h
    exact Nat.succ_pos room'
  | cons c p ih =>
    obtain ⟨room', rfl, -, -, ⟨hi, k1, hleft, hright⟩ | ⟨hi, -⟩⟩ := walkTree_ok h
    · rw [followPath, if_pos hi] at hp
      cases c
      · exact Nat.succ_lt_succ (ih hleft hp)
      · exact Nat.succ_lt_succ (ih hright hp)
    · simp [followPath, hi] at hp

/-! ### The whole walk (`42_code_table.md` R130) -/

theorem codeAt_clearedCode (b : Byte) : codeAt clearedCode b = [] :=
  Vector.getElem_replicate b.isLt

section
variable {node : Vector Node 511} {count : BitVec 10} {root : BitVec 9} {k : Walk}

theorem walkTree_of_deriveCodes (h : deriveCodes node count root = .ok k) :
    walkTree node count.toNat 256 root.toNat [] Walk.start = .ok k := by
  unfold deriveCodes at h
  split at h
  · cases h
  · exact h

/-- The table of the walk is the table of the tree (`42_code_table.md` R135). -/
theorem tableOfTree_of_deriveCodes (h : deriveCodes node count root = .ok k) : TableOfTree node root.toNat k.code where
  leaf := (walkedSubtree_of_walkTree (walkTree_of_deriveCodes h)).leaf
  absent b hb :=
    ((walkedSubtree_of_walkTree (walkTree_of_deriveCodes h)).absent b hb).trans (codeAt_clearedCode b)

theorem leafPath_unique_of_deriveCodes (h : deriveCodes node count root = .ok k) {p q : Bits} {b : Byte}
    (hp : LeafPath node root.toNat p b) (hq : LeafPath node root.toNat q b) : p = q :=
  (walkedSubtree_of_walkTree (walkTree_of_deriveCodes h)).symbols p q b hp hq

/-- The length bound of a code (`42_code_table.md` R134). -/
theorem pathCode_length_le_of_deriveCodes (h : deriveCodes node count root = .ok k) {p : Bits} {b : Byte}
    (hp : LeafPath node root.toNat p b) : (pathCode p).length ≤ 255 := by
  obtain ⟨m, hm, -, -⟩ := hp
  have hlt : p.length < 256 := followPath_length_lt (walkTree_of_deriveCodes h) hm
  rw [pathCode_length]
  omega

end

/-- In the table of a tree the coded symbols are those of the reached leaves (`42_code_table.md` R133, R135). -/
theorem TableOfTree.codeAt_ne_nil_iff {node : Vector Node 511} {root : Nat} {code : Vector Code 256}
    (h : TableOfTree node root code) (b : Byte) : codeAt code b ≠ [] ↔ ∃ p, LeafPath node root p b := by
  constructor
  · intro hb
    by_contra hno
    exact hb (h.absent b fun p hp => hno ⟨p, hp⟩)
  · rintro ⟨p, hp⟩
    rw [h.leaf p b hp]
    exact pathCode_ne_nil p

/-! ### How CGEN completes (`42_code_table.md` R130, R136) -/

@[simp] theorem exec_cgen (s : State) : exec .cgen s = .next (runCgen s) := rfl

theorem runCgen_ok {s : State} {k : Walk} (h : deriveCodes s.node s.nodeCount s.root = .ok k) :
    runCgen s =
      (State.setValid true true { s with code := k.code, symCount := BitVec.ofNat 9 k.leaves }).finish 0 0 := by
  simp [runCgen, generateCodes, h]

theorem runCgen_error {s : State} {p : Nat} (h : deriveCodes s.node s.nodeCount s.root = .error p) :
    runCgen s = State.raise .badTree p (State.setValid false false { s with code := clearedCode }) := by
  simp [runCgen, generateCodes, h]

/-- CGEN without error found a walk that ends without fail, and stored its table. -/
theorem deriveCodes_of_err_eq_false {s : State} (h : (runCgen s).status.err = false) :
    ∃ k, deriveCodes s.node s.nodeCount s.root = .ok k ∧ (runCgen s).code = k.code := by
  cases hd : deriveCodes s.node s.nodeCount s.root with
  | error p =>
    rw [runCgen_error hd] at h
    cases h
  | ok k => exact ⟨k, rfl, by rw [runCgen_ok hd]; rfl⟩

/-- Settles O39: the table is the table of the tree, so a code is the path to its symbol's one leaf, and no path to a leaf
goes on beyond another leaf. -/
theorem codesArePrefixFree : Obligations.CodesArePrefixFree := by
  intro s t hexec herr
  rw [exec_cgen] at hexec
  cases hexec
  obtain ⟨k, hk, hcode⟩ := deriveCodes_of_err_eq_false herr
  have htable : TableOfTree s.node s.root.toNat (runCgen s).code := hcode ▸ tableOfTree_of_deriveCodes hk
  refine ⟨fun a b hab ha hb hpre => ?_, fun b => ?_, htable.codeAt_ne_nil_iff, fun p q b =>
    leafPath_unique_of_deriveCodes hk⟩
  · obtain ⟨p, hp⟩ := (htable.codeAt_ne_nil_iff a).1 ha
    obtain ⟨q, hq⟩ := (htable.codeAt_ne_nil_iff b).1 hb
    rw [htable.leaf p a hp, htable.leaf q b hq] at hpre
    exact hab (hp.eq_of_pathCode_prefix hq hpre)
  · by_cases hb : codeAt (runCgen s).code b = []
    · simp [hb]
    · obtain ⟨p, hp⟩ := (htable.codeAt_ne_nil_iff b).1 hb
      rw [htable.leaf p b hp]
      exact pathCode_length_le_of_deriveCodes hk hp

end Sys2Proof.Machine
end

section
/-! SUPPORT. The bit packer (`43_bit_packer.md`): the layout of a packed stream (R140, R141), unpacking inverts packing
(R145), and what PACK and UNPK deliver (R143, R144). -/

namespace Sys2Proof.Machine

/-! ### Bits in whole bytes (`00_scope.md` R10) -/

/-- The bits of `bits_to_bytes(s)`, read up to any length, are those of s. -/
theorem bytesToBits_bitsToBytes {b : Bits} (h : b.length % 8 = 0) (n : Nat) : bytesToBits (bitsToBytes b) n = b.take n := by
  rw [bytesToBits, flatMap_byteBits_bitsToBytes b h]

/-- MSB first, with the bit counted from the least significant end (`20_memory.md` R66). -/
theorem bytesToBits_getElem?_getLsbD (bs : List Byte) {n j : Nat} (hj : j < n) :
    (bytesToBits bs n)[j]? = bs[j / 8]?.map (fun x => x.getLsbD (7 - j % 8)) := by
  have hmod : j % 8 < 8 := Nat.mod_lt j (by decide)
  have hbit : (fun x : Byte => x.getMsbD (j % 8)) = fun x => x.getLsbD (7 - j % 8) := by
    funext x
    simp [BitVec.getMsbD, hmod]
  rw [bytesToBits_getElem? bs hj, hbit]

/-- The raw form holds its bit sequence from the first bit on (`43_bit_packer.md` R144). -/
theorem bytesToBits_rawBytes (b : Bits) : bytesToBits (rawBytes b) b.length = b := by
  have haligned : (b ++ zeros (8 * ceil8 b.length - b.length)).length % 8 = 0 := by
    have := le_eight_ceil8 b.length
    rw [List.length_append, zeros_length]
    omega
  rw [rawBytes, bytesToBits_bitsToBytes haligned, List.take_left]

/-! ### The padding count (`43_bit_packer.md` R140) -/

@[simp] theorem padCount_minimal (len : Nat) : padCount len false = (8 - len % 8) % 8 := rfl

@[simp] theorem padCount_reference (len : Nat) : padCount len true = 8 - len % 8 := rfl

/-- The two modes differ only on whole bytes. -/
theorem padCount_minimal_eq_reference {len : Nat} (h : len % 8 ≠ 0) : padCount len false = padCount len true := by
  rw [padCount_minimal, padCount_reference]
  omega

/-! ### The packed stream (`43_bit_packer.md` R141) -/

theorem packBits_eq_cons (b : Bits) (mode : Bool) :
    packBits b mode =
      BitVec.ofNat 8 (padCount b.length mode) :: bitsToBytes (b ++ zeros (padCount b.length mode)) := rfl

theorem padded_length_mod (b : Bits) (mode : Bool) : (b ++ zeros (padCount b.length mode)).length % 8 = 0 := by
  rw [List.length_append, zeros_length]
  exact padCount_aligns b.length mode

/-- The payload is as long as the padded sequence. -/
theorem packBits_tail_bits (b : Bits) (mode : Bool) :
    8 * (packBits b mode).tail.length = b.length + padCount b.length mode := by
  have := padCount_aligns b.length mode
  rw [packBits_eq_cons, List.tail_cons, bitsToBytes_length _ (padded_length_mod b mode), List.length_append, zeros_length]
  omega

/-- The payload's bits are the sequence and then the padding. -/
theorem bytesToBits_packBits_tail (b : Bits) (mode : Bool) :
    bytesToBits (packBits b mode).tail (b.length + padCount b.length mode) = b ++ zeros (padCount b.length mode) := by
  rw [packBits_eq_cons, List.tail_cons, bytesToBits_bitsToBytes (padded_length_mod b mode)]
  exact List.take_of_length_le (by simp)

/-- The size in each mode. -/
theorem packBits_length_of_mode (b : Bits) (mode : Bool) :
    (packBits b mode).length = if mode then 2 + b.length / 8 else 1 + (b.length + 7) / 8 := by
  rw [packBits_length_eq]
  cases mode with
  | false => simp only [padCount_minimal, Bool.false_eq_true, if_false]; omega
  | true => simp only [padCount_reference, if_true]; omega

/-- Settles O41: the payload bytes are the padded sequence eight bits at a time, and the padding fills the last byte. -/
theorem packedStreamLayout : Obligations.PackedStreamLayout := by
  refine ⟨fun bs len => ⟨bytesToBits_length bs len, fun j hj _ => bytesToBits_getElem?_getLsbD bs hj⟩, fun b mode => ?_⟩
  refine ⟨rfl, padCount_aligns b.length mode, padCount_le b.length mode, ?_, ?_, padCount_minimal_eq_reference,
    packBits_length_of_mode b mode, rfl, bytesToBits_packBits_tail b mode⟩
  · rintro rfl
    exact Nat.le_of_lt_succ (Nat.mod_lt _ (by decide))
  · rintro rfl
    exact Nat.sub_pos_of_lt (Nat.mod_lt _ (by decide))

/-! ### Unpacking inverts packing (`43_bit_packer.md` R142, R145) -/

/-- The header byte holds the padding count, which tells the sequence from the zeros behind it. -/
theorem unpackBytes_packBits (b : Bits) (mode : Bool) : unpackBytes (packBits b mode) = .ok b := by
  have hpad := padCount_le b.length mode
  have hhdr : (BitVec.ofNat 8 (padCount b.length mode)).toNat = padCount b.length mode :=
    Nat.mod_eq_of_lt (hpad.trans_lt (by decide))
  have htotal := packBits_tail_bits b mode
  have hbits := bytesToBits_packBits_tail b mode
  rw [packBits_eq_cons, List.tail_cons] at htotal hbits
  rw [packBits_eq_cons, unpackBytes_ok, hhdr, htotal, hbits, Nat.add_sub_cancel, List.drop_left, List.take_left]
  exact ⟨hpad, Nat.le_add_left _ _, fun x => List.eq_of_mem_replicate, rfl⟩

/-! ### What `deliver` leaves behind (`43_bit_packer.md` R143) -/

/-- Output delivered without error had room. -/
theorem State.length_le_of_deliver_ok {o : Latched} {out : List Byte} {n : Nat} {s : State}
    (h : (s.deliver o out n).status.err = false) : out.length ≤ o.dstCap.toNat := by
  rcases State.deliver_cases o out n s with ⟨hfits, -⟩ | ⟨-, hovf⟩
  · exact hfits
  · rw [hovf] at h
    cases h

/-- RES_LEN says how many bytes of the destination are the output. -/
theorem State.readBytes_deliver_resLen {o : Latched} {out : List Byte} {n : Nat} {s : State} (hw : s.dmem.wf)
    (h : out.length ≤ o.dstCap.toNat) :
    (s.deliver o out n).dmem.readBytes o.dstAddr.toNat (s.deliver o out n).resLen.toNat = out := by
  have hlen : (s.deliver o out n).resLen.toNat = out.length := by
    rw [State.deliver_fits h]
    exact Nat.mod_eq_of_lt (h.trans_lt o.dstCap.isLt)
  rw [hlen, State.readBytes_deliver hw h]

theorem State.deliver_wf {o : Latched} {out : List Byte} {n : Nat} {s : State} (hw : s.dmem.wf)
    (h : out.length ≤ o.dstCap.toNat) : (s.deliver o out n).dmem.wf := by
  rw [State.deliver_fits h]
  exact Memory.writeBytes_wf hw _ _

/-! ### PACK and UNPK (`43_bit_packer.md` R143, R144) -/

@[simp] theorem exec_pack (s : State) : exec .pack s = .next (runPack s.operands s) := rfl

@[simp] theorem exec_unpk (s : State) : exec .unpk s = .next (runUnpk s.operands s) := rfl

/-- The bits PACK reads: the first SRC_LEN of its source region (`20_memory.md` R66). -/
def State.packInput (o : Latched) (s : State) : Bits := bytesToBits (s.source o o.packSrcBytes) o.srcLen.toNat

theorem State.packInput_length (o : Latched) (s : State) : (s.packInput o).length = o.srcLen.toNat := by
  rw [State.packInput, bytesToBits_length, State.source, Memory.readBytes_length]
  exact Nat.min_eq_left (le_eight_ceil8 o.srcLen.toNat)

/-- With legal regions PACK delivers the packed form of its input. -/
theorem runPack_of_regionsOk {o : Latched} {s : State} (h : RegionsOk s.dmemSize o o.packSrcBytes) :
    runPack o s = s.deliver o (packBits (s.packInput o) o.padMode) o.srcLen.toNat := by
  simp [runPack, badRegion_eq_none.2 h, State.packInput]

/-- PACK that completes without error leaves the packed form of its input at DST_ADDR, RES_LEN bytes long. -/
theorem runPack_leaves_packBits {o : Latched} {s : State} (hw : s.dmem.wf) (herr : (runPack o s).status.err = false) :
    (runPack o s).dmem.wf ∧
      (runPack o s).dmem.readBytes o.dstAddr.toNat (runPack o s).resLen.toNat = packBits (s.packInput o) o.padMode := by
  cases hr : badRegion s.dmemSize o o.packSrcBytes with
  | some p => simp [runPack, hr] at herr
  | none =>
    rw [runPack_of_regionsOk (badRegion_eq_none.1 hr)] at herr ⊢
    have hroom := State.length_le_of_deliver_ok herr
    exact ⟨State.deliver_wf hw hroom, State.readBytes_deliver_resLen hw hroom⟩

/-- UNPK of a well-formed stream with room completes without error, leaves the raw form of the logical bits at DST_ADDR,
RES_LEN bytes long, and says in RES_BITS how many bits they are. -/
theorem runUnpk_leaves_rawBytes {o : Latched} {s : State} {bits : Bits} (hw : s.dmem.wf)
    (hreg : RegionsOk s.dmemSize o o.srcBytes) (hbits : unpackBytes (s.source o o.srcBytes) = .ok bits)
    (hroom : ceil8 bits.length ≤ o.dstCap.toNat) :
    (runUnpk o s).status.err = false ∧ (runUnpk o s).resBits = BitVec.ofNat 32 bits.length ∧
      (runUnpk o s).dmem.readBytes o.dstAddr.toNat (runUnpk o s).resLen.toNat = rawBytes bits := by
  have hfits : (rawBytes bits).length ≤ o.dstCap.toNat := by rwa [rawBytes_length]
  have hrun : runUnpk o s = s.deliver o (rawBytes bits) bits.length := by
    simp [runUnpk, badRegion_eq_none.2 hreg, hbits]
  rw [hrun]
  exact ⟨by rw [State.deliver_fits hfits, State.finish_status], by rw [State.deliver_fits hfits, State.finish_resBits],
    State.readBytes_deliver_resLen hw hfits⟩

/-- Settles O45: PACK leaves the packed form of its input where UNPK reads, and the raw form UNPK writes holds the input's
bits. -/
theorem unpackInvertsPack : Obligations.UnpackInvertsPack := by
  refine ⟨unpackBytes_packBits, fun s t o hw hexec herr hsrc hlen hreg hcap => ?_⟩
  rw [exec_pack] at hexec
  cases hexec
  obtain ⟨hwt, hpacked⟩ := runPack_leaves_packBits hw herr
  have hinput := s.packInput_length s.operands
  have hstream : unpackBytes ((runPack s.operands s).source o o.srcBytes) = .ok (s.packInput s.operands) := by
    rw [State.source, Latched.srcBytes, hsrc, hlen, hpacked, unpackBytes_packBits]
  obtain ⟨herr', hbits, hraw⟩ := runUnpk_leaves_rawBytes (s := { runPack s.operands s with engine := some o }) hwt hreg
    hstream (by rwa [hinput])
  refine ⟨_, exec_unpk _, herr', ?_, ?_⟩
  · rw [State.operands_withEngine, hbits, hinput, BitVec.ofNat_toNat, BitVec.setWidth_eq]
  · rw [State.operands_withEngine, hraw]
    calc bytesToBits (rawBytes (s.packInput s.operands)) s.operands.srcLen.toNat
        = s.packInput s.operands := by rw [← hinput, bytesToBits_rawBytes]
      _ = bytesToBits (s.dmem.readBytes s.operands.srcAddr.toNat ((s.operands.srcLen.toNat + 7) / 8))
            s.operands.srcLen.toNat := rfl

end Sys2Proof.Machine
end

section
/-! SUPPORT. The round trip of COMP and DEC (`45_decoder.md` R164): the walk of DEC over codes of the tree's table, the tree
that COMP's stages leave, and that BUILD makes the same codes of COMP's FREQ. -/

namespace Sys2Proof.Machine

/-! ### The walk over codes (`45_decoder.md` R161, R162) -/

/-- From an internal node the walk takes a path to a leaf as one step: it emits the leaf's symbol and is at the root again. -/
theorem walkFrom_leafPath {node : Vector Node 511} {r n : Nat} {p : Bits} {b : Byte} (room i : Nat) (rest : Bits)
    (hi : (nodeAt node n).internal = true) (hp : LeafPath node n p b) :
    walkFrom node r n (room + 1) i (p ++ rest) = emitByte b (walkFrom node r r room (i + p.length) rest) := by
  induction p generalizing n i with
  | nil =>
    rw [(leafPath_nil.1 hp).1] at hi
    cases hi
  | cons c p ih =>
    obtain ⟨-, hp⟩ := leafPath_cons.1 hp
    rw [List.cons_append, walkFrom]
    generalize (if c then (nodeAt node n).right.toNat else (nodeAt node n).left.toNat) = m at hp ⊢
    cases hm : (nodeAt node m).internal with
    | true => simp [ih (i + 1) hm hp, Nat.add_assoc, Nat.add_comm 1]
    | false =>
      obtain ⟨rfl, rfl⟩ := (leafPath_of_leaf hm).1 hp
      simp

section
variable {node : Vector Node 511} {r : Nat} {code : Vector Code 256} (htable : TableOfTree node r code)
include htable

/-- Under an internal root the walk of the codes of some bytes gives the bytes. -/
theorem TableOfTree.walkFrom_codes (hi : (nodeAt node r).internal = true) {bs : List Byte} {room : Nat} (i : Nat)
    (hb : ∀ b ∈ bs, codeAt code b ≠ []) (hroom : bs.length ≤ room) :
    walkFrom node r r room i (bs.flatMap (codeAt code)) = .ok bs := by
  induction bs generalizing room i with
  | nil => simp [walkFrom]
  | cons b bs ih =>
    obtain ⟨hhead, htail⟩ := List.forall_mem_cons.1 hb
    obtain ⟨room, rfl⟩ := Nat.exists_eq_add_of_le' ((Nat.succ_pos _).trans_le hroom)
    obtain ⟨p, hp⟩ := (htable.codeAt_ne_nil_iff b).1 hhead
    rw [List.flatMap_cons, htable.leaf p b hp, hp.pathCode_eq hi, walkFrom_leafPath room i _ hi hp,
      ih _ htail (Nat.le_of_succ_le_succ hroom)]
    rfl

/-- Under a single-leaf root the code of its symbol is "0", and the walk of such codes gives the bytes. -/
theorem TableOfTree.walkSingle_codes (hi : (nodeAt node r).internal = false) {bs : List Byte} {room : Nat} (i : Nat)
    (hb : ∀ b ∈ bs, codeAt code b ≠ []) (hroom : bs.length ≤ room) :
    walkSingle (nodeAt node r).sym room i (bs.flatMap (codeAt code)) = .ok bs := by
  induction bs generalizing room i with
  | nil => simp [walkSingle]
  | cons b bs ih =>
    obtain ⟨hhead, htail⟩ := List.forall_mem_cons.1 hb
    obtain ⟨room, rfl⟩ := Nat.exists_eq_add_of_le' ((Nat.succ_pos _).trans_le hroom)
    obtain ⟨p, hp⟩ := (htable.codeAt_ne_nil_iff b).1 hhead
    obtain ⟨rfl, rfl⟩ := (leafPath_of_leaf hi).1 hp
    have hcode : codeAt code (nodeAt node r).sym = [false] := htable.leaf [] _ hp
    rw [List.flatMap_cons, hcode, List.singleton_append, walkSingle,
      ih _ htail (Nat.le_of_succ_le_succ hroom)]
    rfl

/-- The walk of the codes of some bytes, with room for the bytes, gives the bytes (`45_decoder.md` R162). -/
theorem TableOfTree.walkDecode_codes {bs : List Byte} {cap : Nat} (hb : ∀ b ∈ bs, codeAt code b ≠ [])
    (hroom : bs.length ≤ cap) : walkDecode node r cap (bs.flatMap (codeAt code)) = .ok bs := by
  cases hi : (nodeAt node r).internal with
  | true => simpa [walkDecode, hi] using htable.walkFrom_codes hi 0 hb hroom
  | false => simpa [walkDecode, hi] using htable.walkSingle_codes hi 0 hb hroom

end

/-! ### DEC of codes (`45_decoder.md` R160) -/

@[simp] theorem exec_dec (s : State) : exec .dec s = .next (runDec s.operands s) := rfl

/-- Codes of some bytes have no bits only when there are no bytes. -/
theorem flatMap_codes_eq_nil {code : Vector Code 256} {bs : List Byte} (hb : ∀ b ∈ bs, codeAt code b ≠ []) :
    bs.flatMap (codeAt code) = [] ↔ bs = [] := by
  rw [List.flatMap_eq_nil_iff]
  exact ⟨fun h => List.eq_nil_iff_forall_not_mem.2 fun b hm => hb b hm (h b hm), fun h => by simp [h]⟩

/-- Delivering no bytes is only the completion. -/
theorem State.deliver_nil (o : Latched) (n : Nat) (s : State) : s.deliver o [] n = s.finish 0 n := rfl

/-- DEC of a stream that unpacks to the codes of some bytes delivers the bytes; only bytes ask for a tree. -/
theorem runDec_of_codes {o : Latched} {s : State} {code : Vector Code 256} {bs : List Byte}
    (hreg : RegionsOk s.dmemSize o o.srcBytes)
    (hstream : unpackBytes (s.source o o.srcBytes) = .ok (bs.flatMap (codeAt code)))
    (hcodes : ∀ b ∈ bs, codeAt code b ≠ [])
    (htree : bs = [] ∨ s.status.treeValid = true ∧ TableOfTree s.node s.root.toNat code)
    (hroom : bs.length ≤ o.dstCap.toNat) :
    runDec o s = s.deliver o bs (bs.flatMap (codeAt code)).length := by
  rcases htree with rfl | ⟨hvalid, htable⟩
  · simp [runDec, badRegion_eq_none.2 hreg, hstream, State.deliver_nil]
  by_cases hbs : bs = []
  · subst hbs
    simp [runDec, badRegion_eq_none.2 hreg, hstream, State.deliver_nil]
  · have hbits : (bs.flatMap (codeAt code)).length ≠ 0 := by
      rwa [ne_eq, List.length_eq_zero_iff, flatMap_codes_eq_nil hcodes]
    simp only [runDec, badRegion_eq_none.2 hreg, hstream, if_neg hbits, hvalid, htable.walkDecode_codes hcodes hroom]
    rfl

/-! ### The tree that COMP leaves (`44_encoder.md` R152) -/

/-- The walk of CGEN reads the arena below NODE_COUNT only (`42_code_table.md` R131). -/
theorem walkTree_congr {node node' : Vector Node 511} {count : Nat}
    (h : ∀ n, n < count → nodeAt node n = nodeAt node' n) (room n : Nat) (path : Bits) (k : Walk) :
    walkTree node count room n path k = walkTree node' count room n path k := by
  induction room generalizing n path k with
  | zero => rfl
  | succ room ih =>
    rw [walkTree, walkTree]
    by_cases hn : n ≥ count
    · rw [if_pos hn, if_pos hn]
    · rw [if_neg hn, if_neg hn, h n (by omega)]
      simp only [ih]

theorem deriveCodes_congr {node node' : Vector Node 511} {count : BitVec 10} (root : BitVec 9)
    (h : ∀ n, n < count.toNat → nodeAt node n = nodeAt node' n) :
    deriveCodes node count root = deriveCodes node' count root := by
  rw [deriveCodes, deriveCodes, walkTree_congr h]

/-- TREE_VALID is 1, the tree is the one BUILD makes of FREQ, and CODE is the table CGEN derives from it. -/
structure PipelineTree (s : State) : Prop where
  valid : s.status.treeValid = true
  present_ne_nil : present s.freq ≠ []
  sum_fits : sumOverflow (present s.freq) 0 = none
  built : ∃ s0, s.node = (writeTree (present s.freq) s0).node ∧ s.nodeCount = (writeTree (present s.freq) s0).nodeCount ∧
    s.root = (writeTree (present s.freq) s0).root
  derived : ∃ k, deriveCodes s.node s.nodeCount s.root = .ok k ∧ s.code = k.code

theorem PipelineTree.tableOfTree {s : State} (h : PipelineTree s) : TableOfTree s.node s.root.toNat s.code := by
  obtain ⟨k, hk, hcode⟩ := h.derived
  exact hcode ▸ tableOfTree_of_deriveCodes hk

/-- What keeps the tree and FREQ keeps the tree of the pipeline. -/
theorem PipelineTree.of_kept {s t : State} (h : PipelineTree s) (htree : TreeKept s t) (hfreq : t.freq = s.freq) :
    PipelineTree t := by
  obtain ⟨hnode, hcount, hroot, -, hcode, hvalid, -⟩ := htree
  obtain ⟨hv, hne, hfits, hbuilt, hderived⟩ := h
  constructor <;> simpa only [hnode, hcount, hroot, hcode, hvalid, hfreq]

/-- BUILD of the same FREQ on another machine makes a tree with the same table: CGEN's walk stays on the entries that BUILD
wrote (`41_tree_builder.md` R127). -/
theorem PipelineTree.rebuild {s v : State} (h : PipelineTree s) (hfreq : v.freq = s.freq) :
    (runBuild v).status.treeValid = true ∧ TableOfTree (runBuild v).node (runBuild v).root.toNat s.code := by
  obtain ⟨s0, hnode, hcount, hroot⟩ := h.built
  obtain ⟨k, hk, hcode⟩ := h.derived
  have hrun : runBuild v = (writeTree (present s.freq) v).finish 0 0 :=
    hfreq ▸ runBuild_ok (hfreq ▸ h.present_ne_nil) (hfreq ▸ h.sum_fits)
  have hagree : ∀ n, n < s.nodeCount.toNat → nodeAt s.node n = nodeAt (runBuild v).node n := by
    intro n hn
    rw [hcount, writeTree_nodeCount, BitVec.toNat_ofNat] at hn
    rw [hnode, hrun, State.finish_node, writeTree_node, writeTree_node]
    exact nodeAt_overlay_eq _ s0.node v.node (hn.trans_le (Nat.mod_le _ _))
  have hroot' : (runBuild v).root = s.root := by rw [hroot, hrun]; rfl
  rw [deriveCodes_congr _ hagree] at hk
  rw [hroot', hcode]
  exact ⟨by rw [hrun]; rfl, tableOfTree_of_deriveCodes hk⟩

/-! ### How COMP completes without error (`44_encoder.md` R152) -/

@[simp] theorem exec_comp (s : State) : exec .comp s = .next (runComp s.operands s) := rfl

theorem buildTree_ok {s t : State} (h : buildTree s = .ok t) :
    present s.freq ≠ [] ∧ sumOverflow (present s.freq) 0 = none ∧ t = writeTree (present s.freq) s := by
  unfold buildTree at h
  dsimp only at h
  split at h
  · cases h
  next hp =>
  split at h
  · cases h
  next hn => exact ⟨by simpa using hp, hn, (Except.ok.inj h).symm⟩

theorem generateCodes_ok {s t : State} (h : generateCodes s = .ok t) :
    ∃ k, deriveCodes s.node s.nodeCount s.root = .ok k ∧
      t = State.setValid true true { s with code := k.code, symCount := BitVec.ofNat 9 k.leaves } := by
  unfold generateCodes at h
  split at h
  · next k hk => exact ⟨k, hk, (Except.ok.inj h).symm⟩
  · cases h

theorem countSource_ok {o : Latched} {s t : State} (h : countSource o s = .ok t) : ∃ f, t = { s with freq := f } := by
  unfold countSource at h
  split at h
  · next f _ => exact ⟨f, (Except.ok.inj h).symm⟩
  · cases h

/-- The stages that end without error keep DMEM and leave a tree of the pipeline. -/
theorem compStages_ok {o : Latched} {s t : State} (h : compStages o s = .ok t) : t.dmem = s.dmem ∧ PipelineTree t := by
  unfold compStages at h
  split at h
  · cases h
  next s1 h1 =>
  split at h
  · cases h
  next s2 h2 =>
  obtain ⟨f, rfl⟩ := countSource_ok h1
  obtain ⟨hne, hfits, rfl⟩ := buildTree_ok h2
  obtain ⟨k, hk, rfl⟩ := generateCodes_ok h
  exact ⟨rfl, rfl, hne, hfits, ⟨_, rfl, rfl, rfl⟩, k, hk, rfl⟩

/-- Encoding that ends without error found a code for every byte. -/
theorem encodeBytes_eq_ok {code : Vector Code 256} {bs : List Byte} {i : Nat} {bits : Bits}
    (h : encodeBytes code bs i = .ok bits) : (∀ b ∈ bs, codeAt code b ≠ []) ∧ bits = bs.flatMap (codeAt code) := by
  have hcodes : ∀ b ∈ bs, codeAt code b ≠ [] := by
    induction bs generalizing i bits with
    | nil => simp
    | cons b bs ih =>
      rw [encodeBytes] at h
      split at h
      · cases h
      next hb =>
      split at h
      · next rest hrest => exact List.forall_mem_cons.2 ⟨by simpa using hb, ih hrest⟩
      · cases h
  exact ⟨hcodes, (Except.ok.inj ((encodeBytes_ok code bs i hcodes).symm.trans h)).symm⟩

/-- The tail of COMP without error delivers the packed codes of the source. -/
theorem encodeSource_of_err_eq_false {o : Latched} {s : State} (h : (encodeSource o s).status.err = false) :
    (∀ b ∈ s.source o o.srcBytes, codeAt s.code b ≠ []) ∧
      encodeSource o s =
        s.deliver o (packBits ((s.source o o.srcBytes).flatMap (codeAt s.code)) o.padMode)
          ((s.source o o.srcBytes).flatMap (codeAt s.code)).length := by
  cases hc : encodeBytes s.code (s.source o o.srcBytes) 0 with
  | error i =>
    simp [encodeSource, hc] at h
  | ok bits =>
    obtain ⟨hcodes, rfl⟩ := encodeBytes_eq_ok hc
    exact ⟨hcodes, by simp [encodeSource, hc]⟩

/-! ### A stage that ends COMP has raised its error (`44_encoder.md` R152) -/

theorem countSource_error {o : Latched} {s t : State} (h : countSource o s = .error t) : t.status.err = true := by
  unfold countSource at h
  split at h
  · cases h
  · cases h
    rfl

theorem buildTree_error {s t : State} (h : buildTree s = .error t) : t.status.err = true := by
  unfold buildTree at h
  dsimp only at h
  split at h
  · cases h
    rfl
  split at h
  · cases h
    rfl
  · cases h

theorem generateCodes_error {s t : State} (h : generateCodes s = .error t) : t.status.err = true := by
  unfold generateCodes at h
  split at h
  · cases h
  · cases h
    rfl

theorem compStages_error {o : Latched} {s t : State} (h : compStages o s = .error t) : t.status.err = true := by
  unfold compStages at h
  split at h
  · next h1 =>
    cases h
    exact countSource_error h1
  split at h
  · next h2 =>
    cases h
    exact buildTree_error h2
  · exact generateCodes_error h

/-! ### What COMP delivers -/

/-- COMP without error delivers the packed codes of its source, from a state with the tree of the pipeline unless the source
is empty. -/
theorem runComp_of_err_eq_false {o : Latched} {s : State} (h : (runComp o s).status.err = false) :
    ∃ s', s'.dmem = s.dmem ∧ (s.source o o.srcBytes = [] ∨ PipelineTree s') ∧
      (∀ b ∈ s.source o o.srcBytes, codeAt s'.code b ≠ []) ∧
      runComp o s =
        s'.deliver o (packBits ((s.source o o.srcBytes).flatMap (codeAt s'.code)) o.padMode)
          ((s.source o o.srcBytes).flatMap (codeAt s'.code)).length := by
  unfold runComp at h ⊢
  split at h
  · cases h
  split at h
  next hempty =>
    have hsrc : s.source o o.srcBytes = [] := by rw [hempty]; rfl
    split at h
    · cases h
    next hpol => exact ⟨clearForEmpty s, rfl, .inl hsrc, by simp [hsrc], by rw [hsrc]; simp [hempty, hpol]⟩
  next hdata =>
    split at h
    next t ht => rw [compStages_error ht] at h; cases h
    next s' hs' =>
      obtain ⟨hdmem, hpipe⟩ := compStages_ok hs'
      obtain ⟨hcodes, hrun⟩ := encodeSource_of_err_eq_false h
      have hsource : s'.source o o.srcBytes = s.source o o.srcBytes := by rw [State.source, hdmem, State.source]
      rw [hsource] at hcodes hrun
      exact ⟨s', hdmem, .inr hpipe, hcodes, by simp [hdata, hrun]⟩

/-! ### The round trip (`45_decoder.md` R164) -/

/-- The output of a delivery that fits: no error, the output at DST_ADDR, and its length in RES_LEN. -/
theorem State.deliver_fits_results {o : Latched} {out : List Byte} {n : Nat} {s : State} (hw : s.dmem.wf)
    (h : out.length ≤ o.dstCap.toNat) :
    (s.deliver o out n).status.err = false ∧
      (s.deliver o out n).dmem.readBytes o.dstAddr.toNat (s.deliver o out n).resLen.toNat = out ∧
      (s.deliver o out n).resLen.toNat = out.length ∧ (s.deliver o out n).resBits = BitVec.ofNat 32 n := by
  refine ⟨?_, State.readBytes_deliver_resLen hw h, ?_, ?_⟩ <;> rw [State.deliver_fits h]
  · rfl
  · exact Nat.mod_eq_of_lt (h.trans_lt o.dstCap.isLt)
  · rfl

/-- COMP without error leaves the packed codes of its source at DST_ADDR, RES_LEN bytes long, says in RES_BITS how many bits
they are, and leaves the tree of the pipeline unless the source is empty. -/
theorem runComp_leaves_packed_codes {o : Latched} {s : State} (hw : s.dmem.wf) (h : (runComp o s).status.err = false) :
    (s.source o o.srcBytes = [] ∨ PipelineTree (runComp o s)) ∧
      (∀ b ∈ s.source o o.srcBytes, codeAt (runComp o s).code b ≠ []) ∧
      (runComp o s).dmem.readBytes o.dstAddr.toNat (runComp o s).resLen.toNat =
        packBits ((s.source o o.srcBytes).flatMap (codeAt (runComp o s).code)) o.padMode ∧
      (runComp o s).resBits =
        BitVec.ofNat 32 ((s.source o o.srcBytes).flatMap (codeAt (runComp o s).code)).length := by
  obtain ⟨s', hdmem, hpipe, hcodes, hrun⟩ := runComp_of_err_eq_false h
  rw [hrun] at h
  obtain ⟨-, hpacked, -, hbits⟩ := State.deliver_fits_results (hdmem ▸ hw) (State.length_le_of_deliver_ok h)
  have hkept : TreeKept s' (runComp o s) := hrun ▸ State.deliver_tree ..
  have hfreq : (runComp o s).freq = s'.freq := hrun ▸ State.deliver_freq ..
  rw [← hrun, ← hkept.code] at hpacked hbits
  exact ⟨hpipe.imp_right fun hp => hp.of_kept hkept hfreq, hkept.code ▸ hcodes, hpacked, hbits⟩

/-- Settles O55: COMP leaves the packed codes of its source, either tree has the table of these codes, and DEC's walk of the
codes of some bytes gives the bytes. -/
theorem decodeInvertsCompress : Obligations.DecodeInvertsCompress := by
  intro s t v o hws hwv src stream hexec herr htree hstream hreg hroom
  rw [exec_comp] at hexec
  cases hexec
  obtain ⟨hpipe, hcodes, (hpacked : stream = _), hbits⟩ := runComp_leaves_packed_codes hws herr
  have hdecTree : src = [] ∨ v.status.treeValid = true ∧
      TableOfTree v.node v.root.toNat (runComp s.operands s).code := by
    refine hpipe.imp_right fun hp => ?_
    rcases htree with ⟨hnode, hroot, hvalid⟩ | ⟨v0, v1, hfreq, hbuild, hnode, hroot, hvalid⟩
    · rw [hnode, hroot, hvalid]
      exact ⟨hp.valid, hp.tableOfTree⟩
    · rw [exec_build] at hbuild
      cases hbuild
      rw [hnode, hroot, hvalid]
      exact hp.rebuild hfreq
  have hrun := runDec_of_codes (s := { v with engine := some o }) hreg
    (by rw [State.source, Latched.srcBytes, hstream, hpacked, unpackBytes_packBits]) hcodes hdecTree hroom
  obtain ⟨herr', hout, hlen, hbits'⟩ := State.deliver_fits_results (s := { v with engine := some o }) hwv hroom
  exact ⟨_, (exec_dec _).trans (congrArg _ hrun), herr', hout, hlen, hbits'.trans hbits.symm⟩

end Sys2Proof.Machine
end

section
/-! SUPPORT. CGEN's walk meets the five conditions of a valid tree in walk order (`42_code_table.md` R131, R132): what the
walk has recorded when it enters and leaves a subtree, and that it fails at the first failing test and at no other. -/

namespace Sys2Proof.Machine

/-! ### The order of the walk (`42_code_table.md` R131) -/

@[simp] theorem walkedBefore_nil_cons (b : Bool) (q : Bits) : WalkedBefore [] (b :: q) :=
  Or.inl ⟨b :: q, List.cons_ne_nil _ _, rfl⟩

/-- Left before right at the first step; below the same child the rest of the paths decides. -/
theorem walkedBefore_cons_cons {a b : Bool} {p q : Bits} :
    WalkedBefore (a :: p) (b :: q) ↔ (a = false ∧ b = true) ∨ (a = b ∧ WalkedBefore p q) := by
  constructor
  · rintro (⟨x, hx, e⟩ | ⟨r, x, y, ep, eq⟩)
    · obtain ⟨rfl, rfl⟩ := List.cons.inj e
      exact Or.inr ⟨rfl, Or.inl ⟨x, hx, rfl⟩⟩
    · cases r with
      | nil => exact Or.inl ⟨(List.cons.inj ep).1, (List.cons.inj eq).1⟩
      | cons c r =>
        obtain ⟨rfl, rfl⟩ := List.cons.inj ep
        obtain ⟨rfl, rfl⟩ := List.cons.inj eq
        exact Or.inr ⟨rfl, Or.inr ⟨r, x, y, rfl, rfl⟩⟩
  · rintro (⟨rfl, rfl⟩ | ⟨rfl, ⟨x, hx, rfl⟩ | ⟨r, x, y, rfl, rfl⟩⟩)
    · exact Or.inr ⟨[], p, q, rfl, rfl⟩
    · exact Or.inl ⟨x, hx, rfl⟩
    · exact Or.inr ⟨a :: r, x, y, rfl, rfl⟩

theorem walkedBefore_irrefl (p : Bits) : ¬ WalkedBefore p p := by
  induction p with
  | nil => exact not_walkedBefore_root []
  | cons a p ih => cases a <;> simp [walkedBefore_cons_cons, ih]

/-- The walk is at two different paths one after the other. -/
theorem walkedBefore_total {p q : Bits} (h : p ≠ q) : WalkedBefore p q ∨ WalkedBefore q p := by
  induction p generalizing q with
  | nil =>
    cases q with
    | nil => exact absurd rfl h
    | cons b q => exact Or.inl (walkedBefore_nil_cons b q)
  | cons a p ih =>
    cases q with
    | nil => exact Or.inr (walkedBefore_nil_cons a p)
    | cons b q =>
      rw [walkedBefore_cons_cons, walkedBefore_cons_cons]
      by_cases hab : a = b
      · subst hab
        exact (ih fun e => h (congrArg _ e)).imp (fun hp => Or.inr ⟨rfl, hp⟩) (fun hq => Or.inr ⟨rfl, hq⟩)
      · cases a with
        | false => exact Or.inl (Or.inl ⟨rfl, Bool.eq_true_of_not_eq_false (Ne.symm hab)⟩)
        | true => exact Or.inr (Or.inl ⟨Bool.eq_false_of_not_eq_true (Ne.symm hab), rfl⟩)

/-- The walk has been at path p once it has left the subtree at path q. -/
def WalkedThrough (p q : Bits) : Prop := WalkedBefore p q ∨ q <+: p

theorem walkedThrough_root (p : Bits) : WalkedThrough p [] := Or.inr List.nil_prefix

/-- The walk enters the left subtree right after the node. -/
theorem walkedBefore_append_false {p q : Bits} : WalkedBefore p (q ++ [false]) ↔ WalkedBefore p q ∨ p = q := by
  induction q generalizing p with
  | nil => cases p <;> simp [walkedBefore_cons_cons, not_walkedBefore_root]
  | cons b q ih =>
    cases p with
    | nil => simp
    | cons a p =>
      rw [List.cons_append, walkedBefore_cons_cons, walkedBefore_cons_cons, ih, List.cons.injEq]
      tauto

/-- The walk enters the right subtree when it leaves the left one. -/
theorem walkedBefore_append_true {p q : Bits} : WalkedBefore p (q ++ [true]) ↔ WalkedThrough p (q ++ [false]) := by
  unfold WalkedThrough
  induction q generalizing p with
  | nil => cases p <;> simp [walkedBefore_cons_cons, not_walkedBefore_root]
  | cons b q ih =>
    cases p with
    | nil => simp
    | cons a p =>
      simp only [List.cons_append, walkedBefore_cons_cons, ih, List.cons_prefix_cons]
      grind

/-- The walk leaves a subtree when it leaves its right subtree. -/
theorem walkedThrough_append_true {p q : Bits} : WalkedThrough p (q ++ [true]) ↔ WalkedThrough p q := by
  unfold WalkedThrough
  induction q generalizing p with
  | nil =>
    cases p with
    | nil => simp
    | cons a p => cases a <;> simp [walkedBefore_cons_cons]
  | cons b q ih =>
    cases p with
    | nil => simp
    | cons a p =>
      have := ih (p := p)
      simp only [List.cons_append, walkedBefore_cons_cons, List.cons_prefix_cons]
      grind

/-! ### Paths through the arena (`42_code_table.md` R131) -/

theorem followPath_append (node : Vector Node 511) (n : Nat) (p q : Bits) :
    followPath node n (p ++ q) = (followPath node n p).bind fun m => followPath node m q := by
  induction p generalizing n with
  | nil => rfl
  | cons b p ih =>
    rw [List.cons_append, followPath, followPath]
    split
    · exact ih _
    · rfl

/-- The child of a node along one step, 0 left and 1 right. -/
def Node.child (x : Node) (b : Bool) : Nat := if b then x.right.toNat else x.left.toNat

/-- A path goes one step further exactly from an internal node, to its child. -/
theorem followPath_append_singleton {node : Vector Node 511} {n c : Nat} {p : Bits} {b : Bool} :
    followPath node n (p ++ [b]) = some c ↔
      ∃ m, followPath node n p = some m ∧ (nodeAt node m).internal = true ∧ (nodeAt node m).child b = c := by
  rw [followPath_append, Option.bind_eq_some_iff]
  refine exists_congr fun m => and_congr_right fun _ => ?_
  cases hi : (nodeAt node m).internal <;> simp [followPath, hi, Node.child]

/-- From a leaf no path goes on. -/
theorem eq_of_prefix_leaf {node : Vector Node 511} {root n m : Nat} {p q : Bits} (hp : followPath node root p = some n)
    (hi : (nodeAt node n).internal = false) (hq : followPath node root q = some m) (h : p <+: q) : q = p := by
  obtain ⟨r, rfl⟩ := h
  cases r with
  | nil => exact List.append_nil p
  | cons c r => simp [followPath_append, hp, followPath, hi] at hq

theorem LeafPath.of_followPath {node : Vector Node 511} {root n : Nat} {p : Bits} (hp : followPath node root p = some n)
    (hi : (nodeAt node n).internal = false) : LeafPath node root p (nodeAt node n).sym :=
  ⟨n, hp, hi, rfl⟩

/-- At a node known to be reached, a leaf path says what the node is. -/
theorem leafPath_iff_of_followPath {node : Vector Node 511} {root n : Nat} {p : Bits} {b : Byte}
    (hp : followPath node root p = some n) :
    LeafPath node root p b ↔ (nodeAt node n).internal = false ∧ (nodeAt node n).sym = b := by
  simp [LeafPath, hp]

/-! ### What the walk has recorded (`42_code_table.md` R130, R131) -/

/-- The walk's sets hold the nodes and the leaf symbols at the paths of W. -/
structure Recorded (node : Vector Node 511) (root : Nat) (W : Bits → Prop) (k : Walk) : Prop where
  visited : ∀ n, n ∈ k.visited ↔ ∃ p, W p ∧ followPath node root p = some n
  seen : ∀ b, b ∈ k.seen ↔ ∃ p, W p ∧ LeafPath node root p b

/-- No test fires at a path of W. -/
def Clean (node : Vector Node 511) (count root : Nat) (W : Bits → Prop) : Prop :=
  ∀ p, W p → ∀ m, ¬ FailsAt node count root p m

/-- How the walk of the subtree at a path ends: at the first failing test, or past the whole subtree with no test fired. -/
inductive WalkOutcome (node : Vector Node 511) (count root : Nat) (path : Bits) : Except Nat Walk → Prop
  | failed (m : Nat) : FirstFailure node count root m → WalkOutcome node count root path (.error m)
  | done (k : Walk) : Recorded node root (WalkedThrough · path) k → Clean node count root (WalkedThrough · path) →
      WalkOutcome node count root path (.ok k)

section
variable {node : Vector Node 511} {count root : Nat}

theorem Recorded.congr {W W' : Bits → Prop} {k : Walk} (h : Recorded node root W k) (e : ∀ p, W' p ↔ W p) :
    Recorded node root W' k where
  visited n := by simp only [h.visited, e]
  seen b := by simp only [h.seen, e]

theorem Recorded.start : Recorded node root (WalkedBefore · []) Walk.start where
  visited n := by simp [Walk.start, not_walkedBefore_root]
  seen b := by simp [Walk.start, not_walkedBefore_root]

theorem Clean.start : Clean node count root (WalkedBefore · []) := fun p hp => absurd hp (not_walkedBefore_root p)

/-- No test fires at a path that leads nowhere, so only the node at the path counts. -/
theorem not_failsAt_of_followPath {path : Bits} {n : Nat} (hn : followPath node root path = some n)
    (h : ¬ FailsAt node count root path n) (m : Nat) : ¬ FailsAt node count root path m := by
  intro hm
  obtain rfl : n = m := Option.some.inj (hn.symm.trans hm.1)
  exact h hm

/-- The walk enters the left subtree of an internal node with the node recorded. -/
theorem Recorded.enter_left {path : Bits} {n : Nat} {k : Walk} (h : Recorded node root (WalkedBefore · path) k)
    (hn : followPath node root path = some n) (hi : (nodeAt node n).internal = true) :
    Recorded node root (WalkedBefore · (path ++ [false])) { k with visited := n :: k.visited } where
  visited m := by
    simp only [List.mem_cons, h.visited, walkedBefore_append_false]
    constructor
    · rintro (rfl | ⟨p, hp, hm⟩)
      · exact ⟨path, Or.inr rfl, hn⟩
      · exact ⟨p, Or.inl hp, hm⟩
    · rintro ⟨p, hp | rfl, hm⟩
      · exact Or.inr ⟨p, hp, hm⟩
      · exact Or.inl (Option.some.inj (hm.symm.trans hn))
  seen b := by
    simp only [h.seen, walkedBefore_append_false]
    refine exists_congr fun p => ⟨fun ⟨hp, hb⟩ => ⟨Or.inl hp, hb⟩, ?_⟩
    rintro ⟨hp | rfl, hb⟩
    · exact ⟨hp, hb⟩
    · rw [leafPath_iff_of_followPath hn, hi] at hb
      cases hb.1

theorem Clean.enter_left {path : Bits} {n : Nat} (h : Clean node count root (WalkedBefore · path))
    (hn : followPath node root path = some n) (hpass : ¬ FailsAt node count root path n) :
    Clean node count root (WalkedBefore · (path ++ [false])) := by
  intro p hp
  rcases walkedBefore_append_false.1 hp with hp | rfl
  · exact h p hp
  · exact not_failsAt_of_followPath hn hpass

/-- The subtree at a leaf is the leaf: of the paths through it only its own leads anywhere. -/
theorem walkedThrough_leaf {path p : Bits} {n m : Nat} (hn : followPath node root path = some n)
    (hi : (nodeAt node n).internal = false) (hm : followPath node root p = some m) :
    WalkedThrough p path ↔ WalkedBefore p path ∨ p = path :=
  or_congr_right ⟨eq_of_prefix_leaf hn hi hm, fun e => e ▸ List.prefix_rfl⟩

/-- A leaf with a new symbol is recorded as the walk passes it. -/
theorem Recorded.pass_leaf {path : Bits} {n : Nat} {k : Walk} (h : Recorded node root (WalkedBefore · path) k)
    (hn : followPath node root path = some n) (hi : (nodeAt node n).internal = false) (leaves : Nat)
    (code : Vector Code 256) :
    Recorded node root (WalkedThrough · path)
      { visited := n :: k.visited, seen := (nodeAt node n).sym :: k.seen, leaves := leaves, code := code } where
  visited m := by
    simp only [List.mem_cons, h.visited]
    constructor
    · rintro (rfl | ⟨p, hp, hm⟩)
      · exact ⟨path, Or.inr List.prefix_rfl, hn⟩
      · exact ⟨p, Or.inl hp, hm⟩
    · rintro ⟨p, hp, hm⟩
      rcases (walkedThrough_leaf hn hi hm).1 hp with hp | rfl
      · exact Or.inr ⟨p, hp, hm⟩
      · exact Or.inl (Option.some.inj (hm.symm.trans hn))
  seen b := by
    simp only [List.mem_cons, h.seen]
    constructor
    · rintro (rfl | ⟨p, hp, hb⟩)
      · exact ⟨path, Or.inr List.prefix_rfl, .of_followPath hn hi⟩
      · exact ⟨p, Or.inl hp, hb⟩
    · rintro ⟨p, hp, hb⟩
      obtain ⟨m, hm, -⟩ := id hb
      rcases (walkedThrough_leaf hn hi hm).1 hp with hp | rfl
      · exact Or.inr ⟨p, hp, hb⟩
      · exact Or.inl ((leafPath_iff_of_followPath hn).1 hb).2.symm

theorem Clean.pass_leaf {path : Bits} {n : Nat} (h : Clean node count root (WalkedBefore · path))
    (hn : followPath node root path = some n) (hi : (nodeAt node n).internal = false)
    (hpass : ¬ FailsAt node count root path n) : Clean node count root (WalkedThrough · path) := by
  intro p hp m hm
  rcases (walkedThrough_leaf hn hi hm.1).1 hp with hp | rfl
  · exact h p hp m hm
  · exact not_failsAt_of_followPath hn hpass m hm

/-- The walk of the subtree at a path, entered with everything before it recorded and no test fired there, fails at the first
failing test or passes the whole subtree (`42_code_table.md` R131, R132). -/
theorem walkTree_outcome {room n : Nat} {path : Bits} {k : Walk} (hroom : path.length + room = 256)
    (hn : followPath node root path = some n) (hrec : Recorded node root (WalkedBefore · path) k)
    (hclean : Clean node count root (WalkedBefore · path)) :
    WalkOutcome node count root path (walkTree node count room n path k) := by
  induction room generalizing n path k with
  | zero => exact .failed n ⟨path, ⟨hn, by omega⟩, fun p m hp => hclean p hp m⟩
  | succ room ih =>
    rw [walkTree]
    by_cases hin : n ≥ count
    · rw [if_pos hin]
      exact .failed n ⟨path, ⟨hn, by omega⟩, fun p m hp => hclean p hp m⟩
    by_cases hvis : n ∈ k.visited
    · rw [if_neg hin, if_pos hvis]
      exact .failed n ⟨path, ⟨hn, Or.inr (Or.inl ((hrec.visited n).1 hvis))⟩, fun p m hp => hclean p hp m⟩
    rw [if_neg hin, if_neg hvis]
    have hdepth : ¬ 255 < path.length := by omega
    rw [hrec.visited] at hvis
    cases hi : (nodeAt node n).internal with
    | true =>
      have hpass : ¬ FailsAt node count root path n := by
        simp only [FailsAt, hi, hdepth, hvis, hin]
        simp
      have hleft := ih (by simp; omega) (followPath_append_singleton.2 ⟨n, hn, hi, rfl⟩) (hrec.enter_left hn hi)
        (hclean.enter_left hn hpass)
      simp only [Node.child, Bool.false_eq_true, if_false] at hleft
      simp only [hi, if_true]
      generalize walkTree node count room (nodeAt node n).left.toNat (path ++ [false]) _ = e at hleft ⊢
      cases hleft with
      | failed m hm => exact .failed m hm
      | done k1 hrec1 hclean1 =>
        have hright := ih (n := (nodeAt node n).right.toNat) (path := path ++ [true]) (by simp; omega)
          (followPath_append_singleton.2 ⟨n, hn, hi, rfl⟩) (hrec1.congr fun _ => walkedBefore_append_true)
          (fun p hp => hclean1 p (walkedBefore_append_true.1 hp))
        dsimp only
        generalize walkTree node count room (nodeAt node n).right.toNat (path ++ [true]) k1 = e at hright ⊢
        cases hright with
        | failed m hm => exact .failed m hm
        | done k2 hrec2 hclean2 =>
          exact .done k2 (hrec2.congr fun _ => walkedThrough_append_true.symm)
            (fun p hp => hclean2 p (walkedThrough_append_true.2 hp))
    | false =>
      simp only [hi, Bool.false_eq_true, if_false, Walk.leaf]
      by_cases hs : (nodeAt node n).sym ∈ k.seen
      · rw [if_pos hs]
        exact .failed n ⟨path, ⟨hn, Or.inr (Or.inr (Or.inr ⟨hi, (hrec.seen _).1 hs⟩))⟩, fun p m hp => hclean p hp m⟩
      · rw [if_neg hs]
        rw [hrec.seen] at hs
        have hpass : ¬ FailsAt node count root path n := by
          simp only [FailsAt, hdepth, hvis, hin, hs]
          simp
        exact .done _ (hrec.pass_leaf hn hi _ _) (hclean.pass_leaf hn hi hpass)

/-! ### Valid trees (`42_code_table.md` R132) -/

/-- A tree is valid exactly when no test fires anywhere. -/
theorem validTree_iff_clean (hcount : count ≤ 511) :
    ValidTree node count root ↔ ∀ q m, ¬ FailsAt node count root q m := by
  constructor
  · rintro ⟨-, hinside, honce, hsyms, hdepth⟩ q m ⟨hm, h | ⟨p, hpq, hp⟩ | h | ⟨hi, p, hpq, hp⟩⟩
    · exact absurd (hinside q m hm) (by omega)
    · rw [honce p q m hp hm] at hpq
      exact walkedBefore_irrefl q hpq
    · exact absurd (hdepth q m hm) (by omega)
    · rw [hsyms p q _ hp (.of_followPath hm hi)] at hpq
      exact walkedBefore_irrefl q hpq
  · intro h
    refine ⟨hcount, fun p n hp => ?_, fun p q n hp hq => ?_, fun p q b hp hq => ?_, fun p n hp => ?_⟩
    · by_contra hlt
      exact h p n ⟨hp, by omega⟩
    · by_contra hne
      rcases walkedBefore_total hne with hw | hw
      · exact h q n ⟨hq, Or.inr (Or.inl ⟨p, hw, hp⟩)⟩
      · exact h p n ⟨hp, Or.inr (Or.inl ⟨q, hw, hq⟩)⟩
    · by_contra hne
      obtain ⟨n, hn, hni, hnb⟩ := id hp
      obtain ⟨m, hm, hmi, hmb⟩ := id hq
      rcases walkedBefore_total hne with hw | hw
      · exact h q m ⟨hm, Or.inr (Or.inr (Or.inr ⟨hmi, p, hw, hmb ▸ hp⟩))⟩
      · exact h p n ⟨hn, Or.inr (Or.inr (Or.inr ⟨hni, q, hw, hnb ▸ hq⟩))⟩
    · by_contra hlt
      exact h p n ⟨hp, by omega⟩

/-- The first failing test fires at one node only. -/
theorem FirstFailure.unique {n m : Nat} (hn : FirstFailure node count root n) (hm : FirstFailure node count root m) :
    n = m := by
  obtain ⟨p, hp, hpfirst⟩ := hn
  obtain ⟨q, hq, hqfirst⟩ := hm
  by_cases hpq : p = q
  · subst hpq
    exact Option.some.inj (hp.1.symm.trans hq.1)
  · rcases walkedBefore_total hpq with hw | hw
    · exact absurd hp (hqfirst p n hw)
    · exact absurd hq (hpfirst q m hw)

theorem FirstFailure.not_validTree {n : Nat} (h : FirstFailure node count root n) : ¬ ValidTree node count root := by
  intro hv
  obtain ⟨q, hq, -⟩ := h
  exact (validTree_iff_clean hv.bounded).1 hv q n hq

end

/-! ### The whole walk (`42_code_table.md` R130) -/

section
variable {node : Vector Node 511} {count : BitVec 10} {root : BitVec 9} {k : Walk}

theorem deriveCodes_of_count_le (h : count.toNat ≤ 511) :
    deriveCodes node count root = walkTree node count.toNat 256 root.toNat [] Walk.start :=
  if_neg (Nat.not_lt.2 h)

theorem deriveCodes_of_count_gt (h : 511 < count.toNat) : deriveCodes node count root = .error count.toNat := if_pos h

theorem deriveCodes_outcome (h : count.toNat ≤ 511) :
    WalkOutcome node count.toNat root.toNat [] (deriveCodes node count root) := by
  rw [deriveCodes_of_count_le h]
  exact walkTree_outcome rfl rfl .start .start

theorem count_le_of_deriveCodes (h : deriveCodes node count root = .ok k) : count.toNat ≤ 511 := by
  by_contra hgt
  rw [deriveCodes_of_count_gt (by omega)] at h
  cases h

theorem validTree_of_deriveCodes (h : deriveCodes node count root = .ok k) :
    ValidTree node count.toNat root.toNat := by
  have hcount := count_le_of_deriveCodes h
  have hout := deriveCodes_outcome (node := node) (root := root) hcount
  rw [h] at hout
  cases hout with
  | done _ _ hclean => exact (validTree_iff_clean hcount).2 fun q m => hclean q (walkedThrough_root q) m

/-- CGEN's walk ends without fail on every valid tree. -/
theorem deriveCodes_of_validTree (h : ValidTree node count.toNat root.toNat) : ∃ k, deriveCodes node count root = .ok k := by
  have hout := deriveCodes_outcome (node := node) (root := root) h.bounded
  cases hd : deriveCodes node count root with
  | ok k => exact ⟨k, rfl⟩
  | error m =>
    rw [hd] at hout
    cases hout with
    | failed _ hm => exact absurd h hm.not_validTree

/-- A failing walk on at most 511 nodes fails at the first failing test. -/
theorem firstFailure_of_deriveCodes {m : Nat} (hcount : count.toNat ≤ 511) (h : deriveCodes node count root = .error m) :
    FirstFailure node count.toNat root.toNat m := by
  have hout := deriveCodes_outcome (node := node) (root := root) hcount
  rw [h] at hout
  cases hout with
  | failed _ hm => exact hm

theorem deriveCodes_of_firstFailure {m : Nat} (hcount : count.toNat ≤ 511)
    (h : FirstFailure node count.toNat root.toNat m) : deriveCodes node count root = .error m := by
  cases hd : deriveCodes node count root with
  | ok k => exact absurd (validTree_of_deriveCodes hd) h.not_validTree
  | error n => rw [(firstFailure_of_deriveCodes hcount hd).unique h]

theorem deriveCodes_of_not_validTree (h : ¬ ValidTree node count.toNat root.toNat) :
    ∃ m, deriveCodes node count root = .error m := by
  cases hd : deriveCodes node count root with
  | ok k => exact absurd (validTree_of_deriveCodes hd) h
  | error m => exact ⟨m, rfl⟩

/-! ### The number of leaves (`42_code_table.md` R130, R133) -/

/-- The walk counts each symbol it has seen once. -/
theorem walkTree_seen {node : Vector Node 511} {count room n : Nat} {path : Bits} {k k' : Walk}
    (h : walkTree node count room n path k = .ok k') (hnodup : k.seen.Nodup) (hlen : k.seen.length = k.leaves) :
    k'.seen.Nodup ∧ k'.seen.length = k'.leaves := by
  induction room generalizing n path k k' with
  | zero => cases h
  | succ room ih =>
    obtain ⟨_, e, -, -, ⟨-, k1, hleft, hright⟩ | ⟨-, hs, rfl⟩⟩ := walkTree_ok h
    · cases e
      obtain ⟨hnodup1, hlen1⟩ := ih hleft hnodup hlen
      exact ih hright hnodup1 hlen1
    · exact ⟨List.nodup_cons.2 ⟨hs, hnodup⟩, congrArg (· + 1) hlen⟩

/-- The leaves are as many as any list that holds each reached leaf's symbol once. -/
theorem leaves_eq_length (h : deriveCodes node count root = .ok k) {l : List Byte} (hnodup : l.Nodup)
    (hmem : ∀ b, b ∈ l ↔ ∃ p, LeafPath node root.toNat p b) : k.leaves = l.length := by
  obtain ⟨hseen, hlen⟩ := walkTree_seen (walkTree_of_deriveCodes h) List.nodup_nil rfl
  have hiff := (walkedSubtree_of_walkTree (walkTree_of_deriveCodes h)).seen_iff
  have hperm : l.Perm k.seen := (List.perm_ext_iff_of_nodup hnodup hseen).2 fun b => by
    rw [hmem, hiff]
    simp [Walk.start]
  rw [← hlen, hperm.length_eq]

/-- The bytes with a property, in ascending order. -/
def bytesWith (P : Byte → Bool) : List Byte := ((List.range 256).filter fun b => P (BitVec.ofNat 8 b)).map (BitVec.ofNat 8)

theorem nodup_bytesWith (P : Byte → Bool) : (bytesWith P).Nodup := by
  refine (List.nodup_range.filter _).map_on fun x hx y hy e => ?_
  have hx : x < 256 := List.mem_range.1 (List.mem_of_mem_filter hx)
  have hy : y < 256 := List.mem_range.1 (List.mem_of_mem_filter hy)
  have := congrArg BitVec.toNat e
  simp only [BitVec.toNat_ofNat] at this
  omega

@[simp] theorem mem_bytesWith (P : Byte → Bool) (b : Byte) : b ∈ bytesWith P ↔ P b = true := by
  simp only [bytesWith, List.mem_map, List.mem_filter, List.mem_range]
  constructor
  · rintro ⟨n, ⟨-, hP⟩, rfl⟩
    exact hP
  · intro hP
    exact ⟨b.toNat, ⟨b.isLt, by simpa using hP⟩, by simp⟩

theorem leaves_eq_countP (h : deriveCodes node count root = .ok k) :
    k.leaves = (List.range 256).countP fun b => codeAt k.code (BitVec.ofNat 8 b) ≠ [] := by
  have hlen := leaves_eq_length h (nodup_bytesWith fun b => decide (codeAt k.code b ≠ [])) fun b => by
    rw [mem_bytesWith, decide_eq_true_iff, (tableOfTree_of_deriveCodes h).codeAt_ne_nil_iff]
  rw [hlen, bytesWith, List.length_map, ← List.countP_eq_length_filter]

theorem leaves_le (h : deriveCodes node count root = .ok k) : k.leaves ≤ 256 := by
  rw [leaves_eq_countP h]
  exact List.countP_le_length.trans (by simp)

end

/-! ### CGEN (`42_code_table.md` R130 to R136) -/

theorem runCgen_hostSide (s : State) : HostSideKept s (runCgen s) := by
  cases hd : deriveCodes s.node s.nodeCount s.root with
  | ok k => rw [runCgen_ok hd]; constructor <;> rfl
  | error p => rw [runCgen_error hd]; constructor <;> rfl

/-- What CGEN leaves alone, with or without error. -/
theorem runCgen_keeps (s : State) :
    (runCgen s).freq = s.freq ∧ (runCgen s).node = s.node ∧ (runCgen s).nodeCount = s.nodeCount ∧
      (runCgen s).root = s.root ∧ (runCgen s).dmem = s.dmem := by
  cases hd : deriveCodes s.node s.nodeCount s.root with
  | ok k => rw [runCgen_ok hd]; exact ⟨rfl, rfl, rfl, rfl, rfl⟩
  | error p => rw [runCgen_error hd]; exact ⟨rfl, rfl, rfl, rfl, rfl⟩

theorem runCgen_completedErr {s : State} {p : Nat} (h : deriveCodes s.node s.nodeCount s.root = .error p) :
    CompletedErr (runCgen s) .badTree p := by
  rw [runCgen_error h]
  exact State.raise_completedErr _ _ _

theorem runCgen_completedOk {s : State} {k : Walk} (h : deriveCodes s.node s.nodeCount s.root = .ok k) :
    CompletedOk (runCgen s) 0 0 := by
  rw [runCgen_ok h]
  exact State.finish_completedOk _ _ _

/-- A root outside the tree is the first failure. -/
theorem firstFailure_root {node : Vector Node 511} {count root : Nat} (h : count ≤ root) :
    FirstFailure node count root root :=
  ⟨[], ⟨rfl, Or.inl h⟩, fun p _ hp => absurd hp (not_walkedBefore_root p)⟩

/-- Settles O37: the walk ends without fail exactly on the valid trees, and the symbols it has seen are the coded ones. -/
theorem cgenDerivesTheTableOfAValidTree : Obligations.CgenDerivesTheTableOfAValidTree := by
  intro s
  obtain ⟨hfreq, hnode, hcount, hroot, hdmem⟩ := runCgen_keeps s
  refine ⟨_, exec_cgen s, hfreq, hnode, hcount, hroot, hdmem, runCgen_hostSide s, fun hv => ?_, fun hv => ?_, fun h => ?_,
    fun hle h => ?_⟩
  · obtain ⟨k, hk⟩ := deriveCodes_of_validTree hv
    have hleaves := leaves_le hk
    refine ⟨runCgen_completedOk hk, ?_⟩
    rw [runCgen_ok hk]
    refine ⟨rfl, rfl, tableOfTree_of_deriveCodes hk, ?_⟩
    exact (Nat.mod_eq_of_lt (by omega)).trans (leaves_eq_countP hk)
  · obtain ⟨p, hp⟩ := deriveCodes_of_not_validTree hv
    exact ⟨p, runCgen_completedErr hp⟩
  · exact runCgen_completedErr (deriveCodes_of_count_gt h)
  · exact runCgen_completedErr (deriveCodes_of_firstFailure hle (firstFailure_root h))

/-- Settles O60: the walk fails at the first failing test, and there is only one such node. -/
theorem badTreePositionIsTheFirstFailure : Obligations.BadTreePositionIsTheFirstFailure := by
  intro s hcount
  refine ⟨fun hv => ?_, fun n hn => ⟨_, exec_cgen s, runCgen_completedErr (deriveCodes_of_firstFailure hcount hn)⟩⟩
  obtain ⟨n, hn⟩ := deriveCodes_of_not_validTree hv
  exact ⟨_, n, exec_cgen s, firstFailure_of_deriveCodes hcount hn, runCgen_completedErr hn⟩

/-- Settles O40: from a single leaf no path goes on, so no test fires and the table holds its symbol alone. -/
theorem singleLeafGetsTheCodeZero : Obligations.SingleLeafGetsTheCodeZero := by
  intro s hcount hroot hi
  have hpath : ∀ p n, followPath s.node s.root.toNat p = some n → p = [] ∧ n = s.root.toNat := by
    intro p n hp
    obtain rfl := eq_of_prefix_leaf (p := []) rfl hi hp List.nil_prefix
    exact ⟨rfl, (Option.some.inj hp).symm⟩
  have hv : ValidTree s.node s.nodeCount.toNat s.root.toNat := by
    refine ⟨hcount, fun p n hp => (hpath p n hp).2 ▸ hroot, fun p q n hp hq => ?_, fun p q b hp hq => ?_, fun p n hp => ?_⟩
    · rw [(hpath p n hp).1, (hpath q n hq).1]
    · rw [((leafPath_of_leaf hi).1 hp).1, ((leafPath_of_leaf hi).1 hq).1]
    · simp [(hpath p n hp).1]
  obtain ⟨k, hk⟩ := deriveCodes_of_validTree hv
  have htable := tableOfTree_of_deriveCodes hk
  have hleaves : k.leaves = 1 := leaves_eq_length hk (List.nodup_singleton (nodeAt s.node s.root.toNat).sym) fun b => by
    simp [leafPath_of_leaf hi, eq_comm]
  refine ⟨_, exec_cgen s, runCgen_completedOk hk, ?_, fun b => ?_⟩
  · rw [runCgen_ok hk, hleaves]
    rfl
  · rw [runCgen_ok hk]
    change codeAt k.code b = _
    split
    · next hb => exact htable.leaf [] b ((leafPath_of_leaf hi).2 ⟨rfl, hb.symm⟩)
    · next hb => exact htable.absent b fun p hp => hb ((leafPath_of_leaf hi).1 hp).2.symm

end Sys2Proof.Machine
end

section
/-! SUPPORT. BUILD (`41_tree_builder.md`): the present symbols and their running total (R120), the greedy order of the merges
(R121, R122), and that the tree it writes is a valid one (R124, `42_code_table.md` R132). -/

namespace Sys2Proof.Machine

/-! ### The present symbols (`41_tree_builder.md` R120) -/

/-- Every symbol with its count, in ascending order. -/
def symbolCounts (f : Vector Word 256) : List (Byte × Word) :=
  (List.range 256).map fun j => (BitVec.ofNat 8 j, freqAt f (BitVec.ofNat 8 j))

theorem present_eq_filter (f : Vector Word 256) : present f = (symbolCounts f).filter fun p => p.2 ≠ 0 := by
  have hzip : f.toList.zipIdx.map (fun p => (BitVec.ofNat 8 p.2, p.1)) = symbolCounts f := by
    refine List.ext_getElem (by simp [symbolCounts]) fun i _ hi => ?_
    have hi : i < 256 := by simpa [symbolCounts] using hi
    simp [symbolCounts, freqAt, Nat.mod_eq_of_lt hi]
  rw [← hzip, List.filter_map]
  rfl

theorem mem_symbolCounts {f : Vector Word 256} {b : Byte} {w : Word} : (b, w) ∈ symbolCounts f ↔ freqAt f b = w := by
  simp only [symbolCounts, List.mem_map, List.mem_range, Prod.mk.injEq]
  constructor
  · rintro ⟨j, -, rfl, rfl⟩
    rfl
  · rintro rfl
    exact ⟨b.toNat, b.isLt, by simp, by simp⟩

/-- The present symbols are those with a nonzero count. -/
theorem mem_present {f : Vector Word 256} {b : Byte} {w : Word} : (b, w) ∈ present f ↔ freqAt f b = w ∧ w ≠ 0#32 := by
  rw [present_eq_filter, List.mem_filter, mem_symbolCounts, decide_eq_true_iff]
  rfl

theorem pairwise_symbolCounts (f : Vector Word 256) :
    (symbolCounts f).Pairwise fun p q => p.1.toNat < q.1.toNat := by
  rw [symbolCounts, List.pairwise_map]
  refine List.pairwise_lt_range.imp_of_mem fun {i j} hi hj hij => ?_
  rw [List.mem_range] at hi hj
  simpa [Nat.mod_eq_of_lt hi, Nat.mod_eq_of_lt hj] using hij

theorem pairwise_present (f : Vector Word 256) : (present f).Pairwise fun p q => p.1.toNat < q.1.toNat := by
  rw [present_eq_filter]
  exact (pairwise_symbolCounts f).filter _

theorem nodup_present_symbols (f : Vector Word 256) : ((present f).map Prod.fst).Nodup := by
  rw [List.Nodup, List.pairwise_map]
  refine (pairwise_present f).imp fun h e => ?_
  rw [e] at h
  exact Nat.lt_irrefl _ h

theorem present_eq_nil {f : Vector Word 256} (h : ∀ b, freqAt f b = 0#32) : present f = [] :=
  List.eq_nil_iff_forall_not_mem.2 fun p hp => (mem_present.1 hp).2 ((mem_present.1 hp).1.symm.trans (h p.1))

theorem present_ne_nil {f : Vector Word 256} {b : Byte} (h : freqAt f b ≠ 0#32) : present f ≠ [] :=
  List.ne_nil_of_mem (mem_present.2 ⟨rfl, h⟩)

/-! ### The running total (`41_tree_builder.md` R120) -/

theorem countSum_cons (p : Byte × Word) (ps : List (Byte × Word)) : countSum (p :: ps) = p.2.toNat + countSum ps := by
  simp [countSum]

/-- Leading symbols whose total fits pass the check. -/
theorem sumOverflow_append {ps : List (Byte × Word)} (qs : List (Byte × Word)) {acc : Nat}
    (h : acc + countSum ps ≤ 0xFFFFFFFF) : sumOverflow (ps ++ qs) acc = sumOverflow qs (acc + countSum ps) := by
  induction ps generalizing acc with
  | nil => rfl
  | cons p ps ih =>
    rw [countSum_cons] at h ⊢
    rw [List.cons_append, sumOverflow, if_neg (by omega), ih (by omega), Nat.add_assoc]

theorem sumOverflow_eq_none {ps : List (Byte × Word)} (h : countSum ps ≤ 0xFFFFFFFF) : sumOverflow ps 0 = none := by
  rw [← List.append_nil ps, sumOverflow_append [] (by rwa [Nat.zero_add]), sumOverflow]

/-- A zero count never makes the total overflow. -/
theorem sumOverflow_filter (ps : List (Byte × Word)) {acc : Nat} (h : acc ≤ 0xFFFFFFFF) :
    sumOverflow (ps.filter fun p => p.2 ≠ 0) acc = sumOverflow ps acc := by
  induction ps generalizing acc with
  | nil => rfl
  | cons p ps ih =>
    by_cases hp : p.2 = 0
    · have hzero : p.2.toNat = 0 := by rw [hp]; rfl
      rw [List.filter_cons_of_neg (by simpa using hp), sumOverflow, hzero, Nat.add_zero, if_neg (by omega), ih h]
    · rw [List.filter_cons_of_pos (by simpa using hp), sumOverflow, sumOverflow]
      split
      · rfl
      · exact ih (by omega)

theorem countSum_take_symbolCounts (f : Vector Word 256) {n : Nat} (h : n ≤ 256) :
    countSum ((symbolCounts f).take n) = freqSumBelow f n := by
  rw [symbolCounts, ← List.map_take, List.take_range, Nat.min_eq_left h, countSum, freqSumBelow, List.map_map]
  rfl

theorem freqSumBelow_succ (f : Vector Word 256) (b : Byte) :
    freqSumBelow f (b.toNat + 1) = freqSumBelow f b.toNat + (freqAt f b).toNat := by
  simp [freqSumBelow, List.range_succ]

/-- SUM_OVF names the symbol at which the running total first passes 2^32 - 1. -/
theorem sumOverflow_present {f : Vector Word 256} {b : Byte} (hlt : freqSumBelow f b.toNat ≤ 0xFFFFFFFF)
    (hgt : 0xFFFFFFFF < freqSumBelow f (b.toNat + 1)) : sumOverflow (present f) 0 = some b := by
  have hb : b.toNat < (symbolCounts f).length := by simpa [symbolCounts] using b.isLt
  have hget : (symbolCounts f)[b.toNat] = (b, freqAt f b) := by simp [symbolCounts]
  have hprefix := countSum_take_symbolCounts f b.isLt.le
  rw [freqSumBelow_succ] at hgt
  rw [present_eq_filter, sumOverflow_filter _ (by decide), ← List.take_append_drop b.toNat (symbolCounts f),
    sumOverflow_append _ (by omega), List.drop_eq_getElem_cons hb, hget, hprefix, sumOverflow, if_pos (by omega)]

/-! ### How BUILD completes with an error (`41_tree_builder.md` R120) -/

/-- Settles O31: either error is raised before anything is written. -/
theorem buildErrorsChangeNothing : Obligations.BuildErrorsChangeNothing := by
  intro s
  refine ⟨fun h => ⟨_, exec_build s, ?_⟩, fun b hgt hlt => ⟨_, exec_build s, ?_⟩⟩
  · rw [runBuild_emptyTable (present_eq_nil h)]
    exact ⟨State.raise_completedErr _ _ _, (HostSideKept.refl s).raise _ _, (TreeKept.refl s).raise _ _, rfl, rfl⟩
  · have hovf : sumOverflow (present s.freq) 0 = some b := sumOverflow_present (by omega) (by omega)
    rw [runBuild_sumOvf (by intro e; rw [e] at hovf; cases hovf) hovf]
    exact ⟨State.raise_completedErr _ _ _, (HostSideKept.refl s).raise _ _, (TreeKept.refl s).raise _ _, rfl, rfl⟩

/-! ### The tree that BUILD writes (`41_tree_builder.md` R123, R124) -/

/-- The arena holds the tree of the present symbols: a forest in which every entry but the last has an owner. -/
structure BuiltFrom (ps : List (Byte × Word)) (node : Vector Node 511) : Prop where
  pos : 0 < ps.length
  length_le : ps.length ≤ 256
  symbols : (ps.map Prod.fst).Nodup
  forest : Forest ps (nodeAt node) (2 * ps.length - 1)
  owner : ∀ c, c < 2 * ps.length - 2 →
    ∃ n, ps.length ≤ n ∧ n < 2 * ps.length - 1 ∧ (nodeAt node n).HasChild c

section
variable {s : State} (hne : present s.freq ≠ []) (hsum : countSum (present s.freq) < 2 ^ 32)
include hne hsum

theorem builtFrom_writeTree : BuiltFrom (present s.freq) (writeTree (present s.freq) s).node := by
  have hk := length_present_le s.freq
  have hm := merging_merge hne hk hsum
  have hlen := hm.single_length
  have hnd : ∀ n, n < 2 * (present s.freq).length - 1 →
      nodeAt (writeTree (present s.freq) s).node n = arenaEntry (merge (present s.freq)).1 n := by
    intro n hn
    exact nodeAt_overlay_arena s.node (hlen ▸ hn) (by omega)
  refine ⟨List.length_pos_iff.2 hne, hk, nodup_present_symbols s.freq, ?_, fun c hc => ?_⟩
  · exact hlen ▸ hm.forest.congr hm.leaves_le fun i hi => hnd i (by omega)
  · obtain ⟨n, hkn, hn, hchild⟩ := hm.exists_owner hc
    exact ⟨n, hkn, by omega, by rwa [hnd n (by omega)]⟩

theorem writeTree_nodeCount_toNat :
    (writeTree (present s.freq) s).nodeCount.toNat = 2 * (present s.freq).length - 1 := by
  have hk := length_present_le s.freq
  have hlen := (merging_merge hne hk hsum).single_length
  rw [writeTree_nodeCount, hlen, BitVec.toNat_ofNat, Nat.mod_eq_of_lt (by omega)]

theorem writeTree_root_toNat : (writeTree (present s.freq) s).root.toNat = 2 * (present s.freq).length - 2 := by
  have hk := length_present_le s.freq
  have hroot := (merging_merge hne hk hsum).single_root
  rw [writeTree_root, hroot, BitVec.toNat_ofNat, Nat.mod_eq_of_lt (by omega)]

/-- Entries past the tree are not written. -/
theorem writeTree_node_above {n : Nat} (hn : 2 * (present s.freq).length - 1 ≤ n) :
    nodeAt (writeTree (present s.freq) s).node n = nodeAt s.node n := by
  have hlen := (merging_merge hne (length_present_le s.freq) hsum).single_length
  exact nodeAt_overlay_above _ s.node n (hlen.trans_le hn)

end

theorem writeTree_symCount_toNat (s : State) :
    (writeTree (present s.freq) s).symCount.toNat = (present s.freq).length := by
  have hk := length_present_le s.freq
  exact Nat.mod_eq_of_lt (by omega)

theorem writeTree_hostSide (ps : List (Byte × Word)) (s : State) : HostSideKept s (writeTree ps s) := by
  constructor <;> rfl

/-- Settles O32: a table that is not empty passes both checks when its total fits, and the merge of k leaves makes k - 1
nodes. -/
theorem buildWritesOneTree : Obligations.BuildWritesOneTree := by
  refine ⟨fun f => ⟨fun b w => mem_present, pairwise_present f⟩, ?_⟩
  intro s k hpos htotal
  have hne : present s.freq ≠ [] := List.length_pos_iff.1 hpos
  have htotal : countSum (present s.freq) ≤ 2 ^ 32 - 1 := (countSum_present s.freq).trans_le htotal
  have hsum : countSum (present s.freq) < 2 ^ 32 := by omega
  refine ⟨_, exec_build s, ?_⟩
  rw [runBuild_ok hne (sumOverflow_eq_none (by omega))]
  exact ⟨State.finish_completedOk _ _ _, writeTree_nodeCount_toNat hne hsum, writeTree_root_toNat hne hsum,
    writeTree_symCount_toNat s, rfl, rfl, fun n => writeTree_node_above hne hsum, rfl, rfl, rfl,
    (writeTree_hostSide _ s).finish 0 0⟩

/-! ### Paths through a built tree (`41_tree_builder.md` R124, `42_code_table.md` R132) -/

theorem Node.hasChild_iff_child {x : Node} {c : Nat} : x.HasChild c ↔ ∃ b, x.child b = c := by
  simp [Node.HasChild, Node.child]

theorem MergedAt.child_injective {nd : Nat → Node} {n : Nat} (h : MergedAt nd n) {a b : Bool}
    (e : (nd n).child a = (nd n).child b) : a = b := by
  have hne : (nd n).left.toNat ≠ (nd n).right.toNat := fun e => h.left_ne_right (BitVec.eq_of_toNat_eq e)
  cases a <;> cases b
  · rfl
  · exact absurd e hne
  · exact absurd e.symm hne
  · rfl

section
variable {ps : List (Byte × Word)} {node : Vector Node 511} (h : BuiltFrom ps node)
include h

theorem BuiltFrom.leafAt {j : Nat} (hj : j < ps.length) : nodeAt node j = Node.leaf ps[j].1 ps[j].2 :=
  h.forest.leaf j _ _ (List.getElem?_eq_getElem hj)

theorem BuiltFrom.internal_iff {n : Nat} (hn : n < 2 * ps.length - 1) :
    (nodeAt node n).internal = true ↔ ps.length ≤ n := by
  constructor
  · intro hi
    by_contra hlt
    rw [h.leafAt (Nat.lt_of_not_le hlt)] at hi
    cases hi
  · exact fun hkn => (h.forest.merged n hkn hn).internal

/-- A path descends to smaller and smaller entries, so it is no longer than the distance from the root. -/
theorem BuiltFrom.add_length_le {p : Bits} {n : Nat} (hp : followPath node (2 * ps.length - 2) p = some n) :
    n + p.length ≤ 2 * ps.length - 2 := by
  induction p using List.reverseRecOn generalizing n with
  | nil => exact (Option.some.inj hp).ge
  | append_singleton p b ih =>
    obtain ⟨m, hm, hi, hchild⟩ := followPath_append_singleton.1 hp
    have hmlen := ih hm
    have hpos := h.pos
    have hmlt : m < 2 * ps.length - 1 := by omega
    have hlt := (h.forest.merged m ((h.internal_iff hmlt).1 hi) hmlt).child_lt (Node.hasChild_iff_child.2 ⟨b, hchild⟩)
    rw [List.length_append, List.length_singleton]
    omega

theorem BuiltFrom.reached_lt {p : Bits} {n : Nat} (hp : followPath node (2 * ps.length - 2) p = some n) :
    n < 2 * ps.length - 1 := by
  have hlen := h.add_length_le hp
  have hpos := h.pos
  omega

/-- The last step of a path starts from a merged node. -/
theorem BuiltFrom.last_step {p : Bits} {b : Bool} {n : Nat} (hp : followPath node (2 * ps.length - 2) (p ++ [b]) = some n) :
    ∃ m, followPath node (2 * ps.length - 2) p = some m ∧ ps.length ≤ m ∧ m < 2 * ps.length - 1 ∧
      (nodeAt node m).child b = n := by
  obtain ⟨m, hm, hi, hchild⟩ := followPath_append_singleton.1 hp
  have hlt := h.reached_lt hm
  exact ⟨m, hm, (h.internal_iff hlt).1 hi, hlt, hchild⟩

/-- The nodes above the last one are merged nodes, of which there are one fewer than symbols. -/
theorem BuiltFrom.length_lt {p : Bits} {n : Nat} (hp : followPath node (2 * ps.length - 2) p = some n) :
    p.length < ps.length := by
  induction p using List.reverseRecOn with
  | nil => exact h.pos
  | append_singleton p b _ =>
    obtain ⟨m, hm, hkm, -, -⟩ := h.last_step hp
    have hmlen := h.add_length_le hm
    have hpos := h.pos
    rw [List.length_append, List.length_singleton]
    omega

/-- Every entry has one owner, so one path leads to it. -/
theorem BuiltFrom.path_unique {p q : Bits} {n : Nat} (hp : followPath node (2 * ps.length - 2) p = some n)
    (hq : followPath node (2 * ps.length - 2) q = some n) : p = q := by
  induction p using List.reverseRecOn generalizing q n with
  | nil =>
    have hlen := h.add_length_le hq
    obtain rfl := Option.some.inj hp
    exact (List.length_eq_zero_iff.1 (by omega)).symm
  | append_singleton p a ih =>
    obtain ⟨m, hm, hkm, hmlt, hma⟩ := h.last_step hp
    cases q using List.reverseRecOn with
    | nil =>
      have hlen := h.add_length_le hp
      obtain rfl := Option.some.inj hq
      rw [List.length_append, List.length_singleton] at hlen
      omega
    | append_singleton q b =>
      obtain ⟨m', hm', hkm', hmlt', hmb⟩ := h.last_step hq
      obtain rfl := h.forest.owner_unique n m m' hkm hmlt hkm' hmlt' (Node.hasChild_iff_child.2 ⟨a, hma⟩)
        (Node.hasChild_iff_child.2 ⟨b, hmb⟩)
      rw [ih hm hm', (h.forest.merged m hkm hmlt).child_injective (hma.trans hmb.symm)]

/-- A path to a leaf leads to the entry of the leaf's symbol. -/
theorem BuiltFrom.leafPath_iff {p : Bits} {b : Byte} :
    LeafPath node (2 * ps.length - 2) p b ↔
      ∃ j, ∃ hj : j < ps.length, followPath node (2 * ps.length - 2) p = some j ∧ ps[j].1 = b := by
  constructor
  · rintro ⟨n, hn, hi, hb⟩
    have hlt : n < ps.length := by
      by_contra hge
      rw [(h.internal_iff (h.reached_lt hn)).2 (by omega)] at hi
      cases hi
    rw [h.leafAt hlt] at hb
    exact ⟨n, hlt, hn, hb⟩
  · rintro ⟨j, hj, hp, hb⟩
    exact ⟨j, hp, by rw [h.leafAt hj]; rfl, by rw [h.leafAt hj]; exact hb⟩

/-- The tree BUILD writes is valid (`42_code_table.md` R132). -/
theorem BuiltFrom.validTree : ValidTree node (2 * ps.length - 1) (2 * ps.length - 2) := by
  have hle := h.length_le
  refine ⟨by omega, fun p n hp => h.reached_lt hp, fun p q n => h.path_unique, fun p q b hp hq => ?_, fun p n hp => ?_⟩
  · obtain ⟨i, hi, hpi, hib⟩ := h.leafPath_iff.1 hp
    obtain ⟨j, hj, hqj, hjb⟩ := h.leafPath_iff.1 hq
    have hij : i = j := (h.symbols.getElem_inj_iff (hi := by simpa) (hj := by simpa)).1 (by simp [hib, hjb])
    subst hij
    exact h.path_unique hpi hqj
  · have := h.length_lt hp
    omega

/-- Every entry is reached: from the owner of an entry one more step leads to it. -/
theorem BuiltFrom.reached {n : Nat} (hn : n ≤ 2 * ps.length - 2) : ∃ p, followPath node (2 * ps.length - 2) p = some n := by
  induction hd : 2 * ps.length - 2 - n using Nat.strong_induction_on generalizing n with
  | _ d ih =>
    rcases Nat.eq_or_lt_of_le hn with rfl | hlt
    · exact ⟨[], rfl⟩
    · obtain ⟨m, hkm, hm, hchild⟩ := h.owner n hlt
      have hmerged := h.forest.merged m hkm hm
      have hnm := hmerged.child_lt hchild
      obtain ⟨p, hp⟩ := ih (2 * ps.length - 2 - m) (by omega) (by omega) rfl
      obtain ⟨b, hb⟩ := Node.hasChild_iff_child.1 hchild
      exact ⟨p ++ [b], followPath_append_singleton.2 ⟨m, hp, hmerged.internal, hb⟩⟩

/-- The symbols of the reached leaves are the present symbols. -/
theorem BuiltFrom.mem_symbols_iff {b : Byte} :
    b ∈ ps.map Prod.fst ↔ ∃ p, LeafPath node (2 * ps.length - 2) p b := by
  constructor
  · intro hb
    obtain ⟨j, hj, rfl⟩ := List.getElem_of_mem hb
    have hj' : j < ps.length := by simpa using hj
    obtain ⟨p, hp⟩ := h.reached (n := j) (by omega)
    exact ⟨p, h.leafPath_iff.2 ⟨j, hj', hp, by simp⟩⟩
  · rintro ⟨p, hp⟩
    obtain ⟨j, hj, -, rfl⟩ := h.leafPath_iff.1 hp
    exact List.mem_map_of_mem (List.getElem_mem hj)

end

section
variable {s : State} (hne : present s.freq ≠ []) (hsum : countSum (present s.freq) < 2 ^ 32)
include hne hsum

theorem validTree_writeTree :
    ValidTree (writeTree (present s.freq) s).node (writeTree (present s.freq) s).nodeCount.toNat
      (writeTree (present s.freq) s).root.toNat := by
  rw [writeTree_nodeCount_toNat hne hsum, writeTree_root_toNat hne hsum]
  exact (builtFrom_writeTree hne hsum).validTree

/-- CGEN's walk of a built tree ends without fail, its leaves are as many as the present symbols, and the coded symbols are
the present ones (`42_code_table.md` R130). -/
theorem deriveCodes_writeTree : ∃ k,
    deriveCodes (writeTree (present s.freq) s).node (writeTree (present s.freq) s).nodeCount
      (writeTree (present s.freq) s).root = .ok k ∧
    k.leaves = (present s.freq).length ∧ ∀ b, codeAt k.code b ≠ [] ↔ b ∈ (present s.freq).map Prod.fst := by
  have hbuilt := builtFrom_writeTree hne hsum
  obtain ⟨k, hk⟩ := deriveCodes_of_validTree (validTree_writeTree hne hsum)
  have hmem : ∀ b, b ∈ (present s.freq).map Prod.fst ↔
      ∃ p, LeafPath (writeTree (present s.freq) s).node (writeTree (present s.freq) s).root.toNat p b := by
    rw [writeTree_root_toNat hne hsum]
    exact fun b => hbuilt.mem_symbols_iff
  refine ⟨k, hk, ?_, fun b => ((tableOfTree_of_deriveCodes hk).codeAt_ne_nil_iff b).trans (hmem b).symm⟩
  rw [leaves_eq_length hk hbuilt.symbols hmem, List.length_map]

end

/-- Settles O36: a built tree is valid, and its reached leaves are the present symbols. -/
theorem cgenAcceptsEveryBuiltTree : Obligations.CgenAcceptsEveryBuiltTree := by
  intro s t hexec herr
  rw [exec_build] at hexec
  cases hexec
  obtain ⟨hne, hsum, hrun⟩ := runBuild_of_err_eq_false herr
  obtain ⟨k, hk, hleaves, -⟩ := deriveCodes_writeTree hne hsum
  rw [hrun]
  refine ⟨_, exec_cgen _, runCgen_completedOk hk, ?_⟩
  rw [runCgen_ok (s := (writeTree (present s.freq) s).finish 0 0) hk, hleaves]
  exact ⟨rfl, rfl, rfl⟩

/-! ### The order of the merges (`41_tree_builder.md` R121, R122) -/

/-- `key(p) ≤ key(q)`: frequency first, then node index. -/
def KeyLe (nd : Nat → Node) (p q : Nat) : Prop :=
  (nd p).freq.toNat < (nd q).freq.toNat ∨ ((nd p).freq = (nd q).freq ∧ p ≤ q)

/-- When node n was made, its left child had the least key of the nodes that were nobody's child, and its right child the
least key of the rest. -/
def GreedyAt (k : Nat) (nd : Nat → Node) (n : Nat) : Prop :=
  ∀ q, q < n → (∀ m, k ≤ m → m < n → ¬ (nd m).HasChild q) →
    KeyLe nd (nd n).left.toNat q ∧ (q ≠ (nd n).left.toNat → KeyLe nd (nd n).right.toNat q)

theorem keyLe_of_keyLess_eq_false {ar : List Node} {p q : Nat} (h : keyLess ar q p = false) : KeyLe (arenaEntry ar) p q := by
  rw [Bool.eq_false_iff, ne_eq, keyLess_iff, arenaFreq_eq, arenaFreq_eq] at h
  rcases Nat.lt_trichotomy (arenaEntry ar p).freq.toNat (arenaEntry ar q).freq.toNat with hlt | heq | hgt
  · exact Or.inl hlt
  · exact Or.inr ⟨BitVec.eq_of_toNat_eq heq, by omega⟩
  · omega

theorem KeyLe.congr {nd nd' : Nat → Node} {p q : Nat} (h : KeyLe nd p q) (hp : nd' p = nd p) (hq : nd' q = nd q) :
    KeyLe nd' p q := by
  unfold KeyLe
  rwa [hp, hq]

theorem GreedyAt.congr {k n : Nat} {nd nd' : Nat → Node} (h : GreedyAt k nd n) (hmerged : MergedAt nd n)
    (e : ∀ i, i ≤ n → nd' i = nd i) : GreedyAt k nd' n := by
  intro q hq hfree
  obtain ⟨hleft, hright⟩ := h q hq fun m hkm hm => by rw [← e m hm.le]; exact hfree m hkm hm
  rw [e n le_rfl]
  exact ⟨hleft.congr (e _ hmerged.left_lt.le) (e q hq.le), fun hne =>
    (hright hne).congr (e _ hmerged.right_lt.le) (e q hq.le)⟩

section
variable {ps : List (Byte × Word)} {ar : List Node} {q : List Nat} {x y : Nat}

/-- The merge of the least key of the collection and the least of the rest is greedy. -/
theorem Merging.greedyAt_merge (h : Merging ps ar q) (hk : ps.length ≤ 256) (hx : x ∈ q) (hy : y ∈ q.erase x)
    (hxleast : ∀ r ∈ q, keyLess ar r x = false) (hyleast : ∀ r ∈ q.erase x, keyLess ar r y = false) :
    GreedyAt ps.length (arenaEntry (ar ++ [mergedNode ar x y])) ar.length := by
  have hyq := List.mem_of_mem_erase hy
  have hlen := h.length_add
  have hxlt := h.lt_length hx
  have hylt := h.lt_length hyq
  have hl : (mergedNode ar x y).left.toNat = x := Nat.mod_eq_of_lt (by omega)
  have hr : (mergedNode ar x y).right.toNat = y := Nat.mod_eq_of_lt (by omega)
  intro c hc hfree
  have hcq : c ∈ q := (h.mem_iff c).2 ⟨hc, fun n hkn hn => by
    rw [← arenaEntry_append_left (mergedNode ar x y) hn]
    exact hfree n hkn hn⟩
  rw [arenaEntry_append_length, hl, hr]
  exact ⟨(keyLe_of_keyLess_eq_false (hxleast c hcq)).congr (arenaEntry_append_left _ hxlt) (arenaEntry_append_left _ hc),
    fun hne => (keyLe_of_keyLess_eq_false (hyleast c ((List.mem_erase_of_ne hne).2 hcq))).congr
      (arenaEntry_append_left _ hylt) (arenaEntry_append_left _ hc)⟩

/-- Every node that the merge loop makes is greedy. -/
theorem Merging.mergeLoop_greedy (hk : ps.length ≤ 256) (hsum : countSum ps < 2 ^ 32) {n : Nat} (h : Merging ps ar q)
    (hgreedy : ∀ m, ps.length ≤ m → m < ar.length → GreedyAt ps.length (arenaEntry ar) m) (hq : q.length = n + 1) :
    ∀ m, ps.length ≤ m → m < (mergeLoop n ar q).1.length →
      GreedyAt ps.length (arenaEntry (mergeLoop n ar q).1) m := by
  induction n generalizing ar q with
  | zero => exact hgreedy
  | succ n ih =>
    obtain ⟨x, y, hx, hy, hxleast, hyleast, hturn⟩ := mergeLoop_succ n ar (q := q) (by omega)
    have hcoll := length_collection hx hy ar.length
    rw [hturn]
    refine ih (h.merge_pair hx hy hk hsum) (fun m hkm hm => ?_) (by omega)
    rw [List.length_append, List.length_singleton] at hm
    rcases Nat.lt_succ_iff_lt_or_eq.1 hm with hm | rfl
    · exact (hgreedy m hkm hm).congr (h.forest.merged m hkm hm) fun i hi => arenaEntry_append_left _ (by omega)
    · exact h.greedyAt_merge hk hx hy hxleast hyleast

theorem merge_greedy (hne : ps ≠ []) (hk : ps.length ≤ 256) (hsum : countSum ps < 2 ^ 32) :
    ∀ m, ps.length ≤ m → m < (merge ps).1.length → GreedyAt ps.length (arenaEntry (merge ps).1) m := by
  have hpos : 0 < ps.length := List.length_pos_iff.2 hne
  refine (Merging.leaves hne).mergeLoop_greedy hk hsum (fun m hkm hm => ?_) (by rw [List.length_range]; omega)
  rw [List.length_map] at hm
  omega

end

/-- Settles O34: each turn of the merge takes the two least keys of the collection, which holds the nodes that are nobody's
child. -/
theorem buildMergesTheTwoLeastKeys : Obligations.BuildMergesTheTwoLeastKeys := by
  intro s t hexec herr k nd keyLe n hkn hn q hq hfree
  rw [exec_build] at hexec
  cases hexec
  obtain ⟨hne, hsum, hrun⟩ := runBuild_of_err_eq_false herr
  have hk : k ≤ 256 := length_present_le s.freq
  have hm := merging_merge hne hk hsum
  have hlen : (merge (present s.freq)).1.length = 2 * k - 1 := hm.single_length
  have hnd : ∀ i, i ≤ n → nd i = arenaEntry (merge (present s.freq)).1 i := by
    intro i hi
    change nodeAt (runBuild s).node i = _
    rw [hrun, State.finish_node, writeTree_node, nodeAt_overlay_arena s.node (by omega) (by omega)]
  have hgreedy : GreedyAt k nd n :=
    (merge_greedy hne hk hsum n hkn (hlen ▸ hn)).congr (hm.forest.merged n hkn (hlen ▸ hn)) hnd
  exact hgreedy q hq fun m hkm hm => not_or.2 (hfree m hkm hm)

end Sys2Proof.Machine
end

section
/-! SUPPORT. FCNT's counts and its overflow (`40_frequency.md` R111), and COMP: its stages never fail past the region check, and
what they leave (`44_encoder.md` R152, R153). -/

namespace Sys2Proof.Machine

/-! ### FCNT (`40_frequency.md` R111) -/

theorem withFreq_hostSide (s : State) (f : Vector Word 256) : HostSideKept s { s with freq := f } := by
  constructor <;> rfl

theorem withFreq_tree (s : State) (f : Vector Word 256) : TreeKept s { s with freq := f } := by
  constructor <;> rfl

theorem runFcnt_ok {o : Latched} {s : State} {f : Vector Word 256} (hreg : o.srcAddr.toNat + o.srcBytes ≤ s.dmemSize)
    (h : countBytes (s.source o o.srcBytes) 0 s.freq = .ok f) :
    runFcnt o s = State.finish 0 0 { s with freq := f } := by
  simp [runFcnt, countSource, badSrcRegion_eq_none.2 hreg, h]

theorem runFcnt_overflow {o : Latched} {s : State} {i : Nat} {f : Vector Word 256}
    (hreg : o.srcAddr.toNat + o.srcBytes ≤ s.dmemSize)
    (h : countBytes (s.source o o.srcBytes) 0 s.freq = .error (i, f)) :
    runFcnt o s = State.raise .freqOvf i { s with freq := f } := by
  simp [runFcnt, countSource, badSrcRegion_eq_none.2 hreg, h]

/-- Counting goes on from the table of the bytes before. -/
theorem countBytes_append {bs : List Byte} (cs : List Byte) {i : Nat} {f g : Vector Word 256}
    (h : countBytes bs i f = .ok g) : countBytes (bs ++ cs) i f = countBytes cs (i + bs.length) g := by
  induction bs generalizing i f with
  | nil => cases h; rfl
  | cons b bs ih =>
    rw [countBytes] at h
    split at h
    · cases h
    · next hb =>
      rw [List.cons_append, countBytes, if_neg hb, ih h, List.length_cons, Nat.add_assoc, Nat.add_comm 1]

/-- Settles O28: no counter is full before its last increment. -/
theorem fcntAddsTheByteCounts : Obligations.FcntAddsTheByteCounts := by
  intro s o src hreg hroom
  obtain ⟨f, hf, hcount⟩ := countBytes_ok src 0 s.freq hroom
  refine ⟨_, exec_fcnt s, ?_⟩
  rw [runFcnt_ok hreg hf]
  exact ⟨State.finish_completedOk _ _ _, hcount, (withFreq_hostSide s f).finish 0 0, (withFreq_tree s f).finish 0 0, rfl⟩

/-- Settles O29: the bytes before i are counted, and the counter of byte i is then full. -/
theorem fcntOverflowKeepsTheCountsBefore : Obligations.FcntOverflowKeepsTheCountsBefore := by
  rintro s i o src hreg - hroom ⟨b, hb, hfull⟩
  obtain ⟨f, hf, hcount⟩ := countBytes_ok (src.take i) 0 s.freq hroom
  obtain ⟨hi, hget⟩ := List.getElem?_eq_some_iff.1 hb
  have hfb : freqAt f b = 0xFFFFFFFF#32 := BitVec.eq_of_toNat_eq ((hcount b).trans hfull)
  have hsplit : src = src.take i ++ b :: src.drop (i + 1) := by
    rw [← hget, ← List.drop_eq_getElem_cons hi, List.take_append_drop]
  have herr : countBytes src 0 s.freq = .error (i, f) := by
    rw [hsplit, countBytes_append _ hf, countBytes, if_pos hfb, List.length_take, Nat.min_eq_left hi.le, Nat.zero_add]
  refine ⟨_, exec_fcnt s, ?_⟩
  rw [runFcnt_overflow hreg herr]
  exact ⟨State.raise_completedErr _ _ _, hcount, (withFreq_hostSide s f).raise _ _, (withFreq_tree s f).raise _ _, rfl⟩

/-! ### Sums over the symbols (`44_encoder.md` R153) -/

theorem mem_allBytes (b : Byte) : b ∈ (List.range 256).map (BitVec.ofNat 8) :=
  List.mem_map.2 ⟨b.toNat, List.mem_range.2 b.isLt, by simp⟩

theorem nodup_allBytes : ((List.range 256).map (BitVec.ofNat 8)).Nodup := by
  simpa [bytesWith] using nodup_bytesWith fun _ => true

/-- Summed over the symbols, the weight of each times its number of occurrences is the weight of the whole list. -/
theorem sum_count_mul (src : List Byte) (w : Byte → Nat) :
    ((List.range 256).map fun j => src.count (BitVec.ofNat 8 j) * w (BitVec.ofNat 8 j)).sum = (src.map w).sum := by
  calc ((List.range 256).map fun j => src.count (BitVec.ofNat 8 j) * w (BitVec.ofNat 8 j)).sum
      = (((List.range 256).map (BitVec.ofNat 8)).map fun b => src.count b * w b).sum := by rw [List.map_map]; rfl
    _ = ∑ b ∈ ((List.range 256).map (BitVec.ofNat 8)).toFinset, src.count b * w b :=
      (List.sum_toFinset _ nodup_allBytes).symm
    _ = ∑ b ∈ src.toFinset, src.count b * w b := by
      refine (Finset.sum_subset (fun b _ => List.mem_toFinset.2 (mem_allBytes b)) fun b _ hb => ?_).symm
      rw [List.mem_toFinset] at hb
      rw [List.count_eq_zero_of_not_mem hb, Nat.zero_mul]
    _ = (src.map w).sum := (Finset.sum_list_map_count src w).symm

/-- The total of the table of a source is its length. -/
theorem freqTotal_of_counts {f : Vector Word 256} {src : List Byte} (h : ∀ b, (freqAt f b).toNat = src.count b) :
    freqTotal f = src.length := by
  have := sum_count_mul src fun _ => 1
  simpa [freqTotal, freqSumBelow, h] using this

/-- The length bound of a code (`42_code_table.md` R134). -/
theorem codeAt_length_le_of_deriveCodes {node : Vector Node 511} {count : BitVec 10} {root : BitVec 9} {k : Walk}
    (h : deriveCodes node count root = .ok k) (b : Byte) : (codeAt k.code b).length ≤ 255 := by
  have htable := tableOfTree_of_deriveCodes h
  by_cases hb : codeAt k.code b = []
  · simp [hb]
  · obtain ⟨p, hp⟩ := (htable.codeAt_ne_nil_iff b).1 hb
    rw [htable.leaf p b hp]
    exact pathCode_length_le_of_deriveCodes h hp

/-! ### The stages of COMP (`44_encoder.md` R152) -/

@[simp] theorem State.source_length (o : Latched) (n : Nat) (s : State) : (s.source o n).length = n :=
  Memory.readBytes_length _ _ _

/-- What the stages of COMP leave: the table of the source, the tree BUILD makes of it, and the code table CGEN derives,
which has a code for every source byte. -/
structure CompStaged (o : Latched) (s t : State) : Prop extends PipelineTree t where
  counts : ∀ b, (freqAt t.freq b).toNat = (s.source o o.srcBytes).count b
  ctValid : t.status.ctValid = true
  tableSound : t.TableSound
  symCount : t.symCount = BitVec.ofNat 9 (present t.freq).length
  coded : ∀ b ∈ s.source o o.srcBytes, codeAt t.code b ≠ []
  hostSide : HostSideKept s t
  dmem : t.dmem = s.dmem

theorem countSource_cleared {o : Latched} {s : State} {f : Vector Word 256}
    (h : countBytes (s.source o o.srcBytes) 0 clearedFreq = .ok f) :
    countSource o (clearFreq s) = .ok { s with freq := f } := by
  have hsource : (clearFreq s).source o o.srcBytes = s.source o o.srcBytes := rfl
  rw [countSource, hsource, clearFreq_freq, h]
  rfl

theorem buildTree_of_sum {s : State} (hne : present s.freq ≠ []) (hsum : countSum (present s.freq) < 2 ^ 32) :
    buildTree s = .ok (writeTree (present s.freq) s) := by
  simp [buildTree, hne, sumOverflow_eq_none (ps := present s.freq) (by omega)]

theorem generateCodes_of_deriveCodes {s : State} {k : Walk} (h : deriveCodes s.node s.nodeCount s.root = .ok k) :
    generateCodes s =
      .ok (State.setValid true true { s with code := k.code, symCount := BitVec.ofNat 9 k.leaves }) := by
  rw [generateCodes, h]

/-- The stages of COMP end without error: a source inside DMEM is too short for an overflow, and BUILD's tree is valid. -/
theorem compStages_succeeds {o : Latched} {s : State} (hreg : o.srcAddr.toNat + o.srcBytes ≤ s.dmemSize)
    (hpos : 0 < o.srcBytes) : ∃ t, compStages o s = .ok t ∧ CompStaged o s t := by
  have hsize := s.dmemSize_bounds
  have hlen := s.source_length o o.srcBytes
  obtain ⟨f, hf, hcount⟩ := countBytes_ok (s.source o o.srcBytes) 0 clearedFreq fun b => by
    have := List.count_le_length (a := b) (l := s.source o o.srcBytes)
    rw [freqAt_clearedFreq, BitVec.toNat_zero]
    omega
  have hcount : ∀ b, (freqAt f b).toNat = (s.source o o.srcBytes).count b := by simpa using hcount
  have hmem : ∀ b, freqAt f b ≠ 0#32 ↔ b ∈ s.source o o.srcBytes := fun b => counter_ne_zero_iff (hcount b)
  have hne : present f ≠ [] := by
    obtain ⟨b, hb⟩ := List.exists_mem_of_length_pos (hlen.symm ▸ hpos)
    exact present_ne_nil ((hmem b).2 hb)
  have hsum : countSum (present f) < 2 ^ 32 := by
    rw [countSum_present, freqTotal_of_counts hcount]
    omega
  obtain ⟨k, hk, hleaves, hcoded⟩ := deriveCodes_writeTree (s := { s with freq := f }) hne hsum
  refine ⟨State.setValid true true { writeTree (present f) { s with freq := f } with
    code := k.code, symCount := BitVec.ofNat 9 k.leaves }, ?_, ?_⟩
  · rw [compStages, countSource_cleared hf]
    dsimp only
    rw [buildTree_of_sum hne hsum]
    exact generateCodes_of_deriveCodes hk
  · refine ⟨⟨rfl, hne, sumOverflow_eq_none (Nat.le_of_lt_succ hsum), ⟨{ s with freq := f }, rfl, rfl, rfl⟩, k, hk, rfl⟩,
      hcount, rfl, fun _ => ⟨k, hk, rfl, rfl⟩, congrArg (BitVec.ofNat 9) hleaves, fun b hb => (hcoded b).2 ?_, ?_, rfl⟩
    · exact List.mem_map_of_mem (mem_present.2 ⟨rfl, (hmem b).2 hb⟩)
    · constructor <;> rfl

section
variable {o : Latched} {s t : State} (h : CompStaged o s t)
include h

theorem CompStaged.validTree : ValidTree t.node t.nodeCount.toNat t.root.toNat := by
  obtain ⟨k, hk, -⟩ := h.derived
  exact validTree_of_deriveCodes hk

theorem CompStaged.code_length_le (b : Byte) : (codeAt t.code b).length ≤ 255 := by
  obtain ⟨k, hk, hcode⟩ := h.derived
  exact hcode ▸ codeAt_length_le_of_deriveCodes hk b

/-- BUILD of the same FREQ on any machine makes the same tree (`41_tree_builder.md` R127). -/
theorem CompStaged.eq_build {v : State} (hfreq : v.freq = t.freq) :
    t.nodeCount = (runBuild v).nodeCount ∧ t.root = (runBuild v).root ∧ t.symCount = (runBuild v).symCount ∧
      ∀ n, n < t.nodeCount.toNat → nodeAt t.node n = nodeAt (runBuild v).node n := by
  obtain ⟨s0, hnode, hcount, hroot⟩ := h.built
  have hrun : runBuild v = (writeTree (present t.freq) v).finish 0 0 :=
    hfreq ▸ runBuild_ok (hfreq ▸ h.present_ne_nil) (hfreq ▸ h.sum_fits)
  rw [hrun]
  refine ⟨hcount, hroot, h.symCount, fun n hn => ?_⟩
  rw [hcount, writeTree_nodeCount, BitVec.toNat_ofNat] at hn
  rw [hnode, State.finish_node, writeTree_node, writeTree_node]
  exact nodeAt_overlay_eq _ s0.node v.node (hn.trans_le (Nat.mod_le _ _))

end

/-! ### How COMP completes (`44_encoder.md` R152) -/

/-- The logical bits of the source under the state's code table (`44_encoder.md` R151). -/
def State.codedSource (o : Latched) (s : State) : Bits := (s.source o o.srcBytes).flatMap (codeAt s.code)

/-- With a code for every source byte the encoder delivers the packed codes. -/
theorem encodeSource_coded {o : Latched} {s : State} (h : ∀ b ∈ s.source o o.srcBytes, codeAt s.code b ≠ []) :
    encodeSource o s = s.deliver o (packBits (s.codedSource o) o.padMode) (s.codedSource o).length := by
  simp [encodeSource, encodeBytes_ok _ _ _ h, State.codedSource]

section
variable {o : Latched} {s : State}

theorem runComp_badRegion {p : Nat} (h : badRegion s.dmemSize o o.srcBytes = some p) :
    runComp o s = s.raise .badRegion p := by
  simp [runComp, h]

theorem runComp_emptyInput (hreg : RegionsOk s.dmemSize o o.srcBytes) (h0 : o.srcBytes = 0) (hpol : o.emptyPol = true) :
    runComp o s = s.raise .emptyInput 0 := by
  rw [runComp, badRegion_eq_none.2 hreg]
  simp [h0, hpol]

theorem runComp_empty (hreg : RegionsOk s.dmemSize o o.srcBytes) (h0 : o.srcBytes = 0) (hpol : o.emptyPol = false) :
    runComp o s = (clearForEmpty s).deliver o (packBits [] o.padMode) 0 := by
  rw [runComp, badRegion_eq_none.2 hreg]
  simp [h0, hpol]

/-- COMP of data delivers the packed codes of its source from the state its stages leave. -/
theorem runComp_data (hreg : RegionsOk s.dmemSize o o.srcBytes) (hpos : 0 < o.srcBytes) :
    ∃ t, CompStaged o s t ∧
      runComp o s = t.deliver o (packBits (t.codedSource o) o.padMode) (t.codedSource o).length := by
  obtain ⟨t, ht, hstaged⟩ := compStages_succeeds hreg.src hpos
  have hsource : t.source o o.srcBytes = s.source o o.srcBytes := by rw [State.source, hstaged.dmem, State.source]
  refine ⟨t, hstaged, ?_⟩
  rw [runComp, badRegion_eq_none.2 hreg, ← encodeSource_coded (hsource.symm ▸ hstaged.coded)]
  simp [Nat.ne_of_gt hpos, ht]

/-- Everything COMP can do. -/
theorem runComp_cases (o : Latched) (s : State) :
    (∃ p, badRegion s.dmemSize o o.srcBytes = some p ∧ runComp o s = s.raise .badRegion p) ∨
    (o.srcBytes = 0 ∧ runComp o s = s.raise .emptyInput 0) ∨
    (RegionsOk s.dmemSize o o.srcBytes ∧ o.srcBytes = 0 ∧
      runComp o s = (clearForEmpty s).deliver o (packBits [] o.padMode) 0) ∨
    (RegionsOk s.dmemSize o o.srcBytes ∧ 0 < o.srcBytes ∧ ∃ t, CompStaged o s t ∧
      runComp o s = t.deliver o (packBits (t.codedSource o) o.padMode) (t.codedSource o).length) := by
  cases hreg : badRegion s.dmemSize o o.srcBytes with
  | some p => exact Or.inl ⟨p, rfl, runComp_badRegion hreg⟩
  | none =>
    have hreg := badRegion_eq_none.1 hreg
    rcases Nat.eq_zero_or_pos o.srcBytes with h0 | hpos
    · cases hpol : o.emptyPol with
      | true => exact Or.inr (Or.inl ⟨h0, runComp_emptyInput hreg h0 hpol⟩)
      | false => exact Or.inr (Or.inr (Or.inl ⟨hreg, h0, runComp_empty hreg h0 hpol⟩))
    · exact Or.inr (Or.inr (Or.inr ⟨hreg, hpos, runComp_data hreg hpos⟩))

end

/-- The source is the same after the stages, which keep DMEM. -/
theorem CompStaged.codedSource {o : Latched} {s t : State} (h : CompStaged o s t) :
    t.codedSource o = (s.source o o.srcBytes).flatMap (codeAt t.code) := by
  rw [State.codedSource, State.source, h.dmem, State.source]

/-- Settles O50: the stages end without error, and what they leave stands when the output is delivered or does not fit. -/
theorem compRunsTheWholePipeline : Obligations.CompRunsTheWholePipeline := by
  intro s hw o src hreg hpos
  obtain ⟨t, hstaged, hrun⟩ := runComp_data hreg hpos
  have hbits : t.codedSource o = src.flatMap (codeAt t.code) := hstaged.codedSource
  obtain ⟨hnode, hcount, hroot, hsym, hcode, htv, hct⟩ :=
    State.deliver_tree o (packBits (t.codedSource o) o.padMode) (t.codedSource o).length t
  refine ⟨_, exec_comp s, ?_⟩
  rw [hrun, hnode, hcount, hroot, hsym, hcode, htv, hct, State.deliver_freq, ← hbits]
  refine ⟨hstaged.hostSide.trans (State.deliver_hostSide _ _ _ _), hstaged.counts, hstaged.valid, hstaged.ctValid,
    hstaged.validTree, hstaged.tableOfTree, fun v w hfreq hbuild => ?_, hstaged.coded, fun hfits => ?_, fun hovf => ?_⟩
  · rw [exec_build] at hbuild
    cases hbuild
    exact hstaged.eq_build hfreq
  · refine ⟨?_, State.readBytes_deliver (hstaged.dmem ▸ hw) hfits, fun x hx => ?_⟩
    · rw [State.deliver_fits hfits]
      exact State.finish_completedOk _ _ _
    · rw [State.deliver_keeps_outside hfits x hx, hstaged.dmem]
  · rw [State.deliver_overflows hovf]
    refine ⟨State.raiseData_completedErr _ _ _ _, fun x hx => ?_⟩
    rw [State.raiseData_keeps_outside _ _ _ _ x hx, hstaged.dmem]

/-- The codes of a source inside DMEM have fewer than 2^32 bits (`44_encoder.md` R153). -/
theorem CompStaged.codedSource_length_lt {o : Latched} {s t : State} (h : CompStaged o s t)
    (hreg : RegionsOk s.dmemSize o o.srcBytes) : (t.codedSource o).length < 2 ^ 32 := by
  have hsize := s.dmemSize_bounds
  have hsrc := hreg.src
  have hle : ((s.source o o.srcBytes).map fun b => (codeAt t.code b).length).sum ≤
      ((s.source o o.srcBytes).map fun b => (codeAt t.code b).length).length • 255 :=
    List.sum_le_card_nsmul _ _ fun n hn => by
      obtain ⟨b, -, rfl⟩ := List.mem_map.1 hn
      exact h.code_length_le b
  rw [List.length_map, State.source_length, smul_eq_mul] at hle
  rw [h.codedSource, List.length_flatMap]
  omega

/-- Settles O51: RES_BITS counts each symbol's code once for each occurrence, and RES_LEN is the packed size. -/
theorem compSizeLaws : Obligations.CompSizeLaws := by
  intro s t hpos hexec herr
  rw [exec_comp] at hexec
  cases hexec
  rcases runComp_cases s.operands s with ⟨p, -, hrun⟩ | ⟨-, hrun⟩ | ⟨-, h0, -⟩ | ⟨hreg, -, u, hstaged, hrun⟩
  · rw [hrun] at herr
    cases herr
  · rw [hrun] at herr
    cases herr
  · exact absurd h0 (Nat.ne_of_gt hpos)
  · rw [hrun] at herr ⊢
    have hfits := State.length_le_of_deliver_ok herr
    have hbits : (BitVec.ofNat 32 (u.codedSource s.operands).length).toNat = (u.codedSource s.operands).length :=
      Nat.mod_eq_of_lt (hstaged.codedSource_length_lt hreg)
    have hlen : (BitVec.ofNat 32 (packBits (u.codedSource s.operands) s.operands.padMode).length).toNat =
        (packBits (u.codedSource s.operands) s.operands.padMode).length :=
      Nat.mod_eq_of_lt (hfits.trans_lt s.operands.dstCap.isLt)
    rw [State.deliver_fits hfits, State.finish_resBits, State.finish_resLen, hbits, hlen]
    refine ⟨?_, packBits_length_of_mode _ _⟩
    rw [hstaged.codedSource, List.length_flatMap, ← sum_count_mul]
    simp only [← hstaged.counts]
    rfl

end Sys2Proof.Machine
end

section
/-! SUPPORT. PACK, UNPK, ENC and the empty-input policy: what a delivery and an error leave, the unpacker's checks
(`43_bit_packer.md` R142 to R144), and the order of ENC's errors (`44_encoder.md` R151). -/

namespace Sys2Proof.Machine

/-! ### What a completion leaves, all at once (`20_memory.md` R68, `60_exceptions.md` R171 to R173) -/

/-- Output that fits is all that a delivery changes. -/
theorem State.deliver_fits_spec {o : Latched} {out : List Byte} {n : Nat} {s : State} (hw : s.dmem.wf)
    (h : out.length ≤ o.dstCap.toNat) :
    CompletedOk (s.deliver o out n) out.length n ∧ (s.deliver o out n).dmem.readBytes o.dstAddr.toNat out.length = out ∧
      DmemKeptOutside o.dstAddr.toNat out.length s (s.deliver o out n) ∧ HostSideKept s (s.deliver o out n) ∧
      TreeKept s (s.deliver o out n) ∧ (s.deliver o out n).freq = s.freq := by
  refine ⟨?_, State.readBytes_deliver hw h, State.deliver_keeps_outside h, State.deliver_hostSide o out n s,
    State.deliver_tree o out n s, State.deliver_freq o out n s⟩
  rw [State.deliver_fits h]
  exact State.finish_completedOk _ _ _

/-- A data-phase error spoils the destination region and nothing else. -/
theorem State.raiseData_spec (o : Latched) (e : ErrCode) (p : Nat) (s : State) :
    CompletedErr (s.raiseData o e p) e p ∧ DmemKeptOutside o.dstAddr.toNat o.dstCap.toNat s (s.raiseData o e p) ∧
      HostSideKept s (s.raiseData o e p) ∧ TreeKept s (s.raiseData o e p) ∧ (s.raiseData o e p).freq = s.freq :=
  ⟨State.raiseData_completedErr o e p s, State.raiseData_keeps_outside o e p s, (HostSideKept.refl s).raiseData o e p,
    (TreeKept.refl s).raiseData o e p, rfl⟩

/-- Any other error changes nothing but the completion fields. -/
theorem State.raise_spec (e : ErrCode) (p : Nat) (s : State) :
    CompletedErr (s.raise e p) e p ∧ (s.raise e p).dmem = s.dmem ∧ HostSideKept s (s.raise e p) ∧ TreeKept s (s.raise e p) ∧
      (s.raise e p).freq = s.freq :=
  ⟨State.raise_completedErr e p s, rfl, (HostSideKept.refl s).raise e p, (TreeKept.refl s).raise e p, rfl⟩

/-- Output that does not fit raises OUT_OVF with its size. -/
theorem State.deliver_overflows_spec {o : Latched} {out : List Byte} {n : Nat} {s : State}
    (h : o.dstCap.toNat < out.length) :
    CompletedErr (s.deliver o out n) .outOvf out.length ∧
      DmemKeptOutside o.dstAddr.toNat o.dstCap.toNat s (s.deliver o out n) ∧ HostSideKept s (s.deliver o out n) ∧
      TreeKept s (s.deliver o out n) ∧ (s.deliver o out n).freq = s.freq := by
  rw [State.deliver_overflows h]
  exact State.raiseData_spec o .outOvf out.length s

/-! ### PACK (`43_bit_packer.md` R143) -/

theorem runPack_badRegion {o : Latched} {s : State} {p : Nat} (h : badRegion s.dmemSize o o.packSrcBytes = some p) :
    runPack o s = s.raise .badRegion p := by
  simp [runPack, h]

/-- Settles O42: PACK delivers the packed form of its input. -/
theorem packWritesThePaddedStream : Obligations.PackWritesThePaddedStream := by
  intro s hw o n out hreg hfits
  refine ⟨_, exec_pack s, ?_⟩
  rw [runPack_of_regionsOk hreg]
  exact State.deliver_fits_spec hw hfits

/-! ### The unpacker (`43_bit_packer.md` R142, R144) -/

/-- Whole bytes in front have their bits in front. -/
theorem bytesToBits_take (bs : List Byte) {c : Nat} (hc : c ≤ bs.length) :
    bytesToBits bs (8 * c) = (bs.take c).flatMap byteBits := by
  have hlen : ((bs.take c).flatMap byteBits).length = 8 * c := by
    rw [flatMap_byteBits_length, List.length_take, Nat.min_eq_left hc]
  conv_lhs => rw [bytesToBits, ← List.take_append_drop c bs, List.flatMap_append, ← hlen, List.take_left]

/-- The raw form of a bit sequence that zeros follow in its bytes is the bytes from the first on (`43_bit_packer.md` R144). -/
theorem rawBytes_take_bits {bs : List Byte} {len : Nat} (hlen : len ≤ 8 * bs.length)
    (hz : ∀ j, len ≤ j → j < 8 * bs.length → (bytesToBits bs (8 * bs.length)).getD j false = false) :
    rawBytes ((bytesToBits bs (8 * bs.length)).take len) = bs.take (ceil8 len) := by
  have hle := le_eight_ceil8 len
  have hc : ceil8 len ≤ bs.length := by unfold ceil8; omega
  have htotal : (bytesToBits bs (8 * bs.length)).length = 8 * bs.length := by
    rw [bytesToBits_length, Nat.min_self]
  have hzeros : ((bytesToBits bs (8 * bs.length)).drop len).take (8 * ceil8 len - len) = zeros (8 * ceil8 len - len) := by
    refine List.ext_getElem (by simp [htotal]; omega) fun i hi _ => ?_
    rw [List.length_take] at hi
    have hbit := hz (len + i) (by omega) (by omega)
    rw [List.getD_eq_getElem _ _ (by omega)] at hbit
    simp only [List.getElem_take, List.getElem_drop, zeros, List.getElem_replicate, hbit]
  have hwhole : (bytesToBits bs (8 * bs.length)).take (8 * ceil8 len) = (bs.take (ceil8 len)).flatMap byteBits := by
    rw [bytesToBits, List.take_take, Nat.min_eq_left (by omega), ← bytesToBits, bytesToBits_take bs hc]
  rw [rawBytes, List.length_take, htotal, Nat.min_eq_left hlen, ← hzeros, ← List.take_add, Nat.add_sub_cancel' hle, hwhole,
    bitsToBytes_flatMap_byteBits]

theorem runUnpk_badRegion {o : Latched} {s : State} {p : Nat} (h : badRegion s.dmemSize o o.srcBytes = some p) :
    runUnpk o s = s.raise .badRegion p := by
  simp [runUnpk, h]

theorem runUnpk_ok {o : Latched} {s : State} {bits : Bits} (hreg : RegionsOk s.dmemSize o o.srcBytes)
    (h : unpackBytes (s.source o o.srcBytes) = .ok bits) :
    runUnpk o s = s.deliver o (rawBytes bits) bits.length := by
  simp [runUnpk, badRegion_eq_none.2 hreg, h]

theorem runUnpk_malformed {o : Latched} {s : State} {p : Nat} (hreg : RegionsOk s.dmemSize o o.srcBytes)
    (h : unpackBytes (s.source o o.srcBytes) = .error p) : runUnpk o s = s.raiseData o .malformed p := by
  simp [runUnpk, badRegion_eq_none.2 hreg, h]

/-- Settles O43: the header says where the padding begins, and the raw form of the bits before it is the payload's front. -/
theorem unpkWritesTheLogicalBits : Obligations.UnpkWritesTheLogicalBits := by
  intro s hdr payload hw o len n hreg hsrc hhdr hpad hz hroom
  have htotal : (bytesToBits payload (8 * payload.length)).length = 8 * payload.length := by
    rw [bytesToBits_length, Nat.min_self]
  have hbits : unpackBytes (s.source o o.srcBytes) = .ok ((bytesToBits payload (8 * payload.length)).take len) := by
    rw [State.source, Latched.srcBytes, hsrc, unpackBytes_ok]
    refine ⟨hhdr, hpad, fun x hx => ?_, rfl⟩
    obtain ⟨i, hi, rfl⟩ := List.getElem_of_mem hx
    rw [List.length_drop, htotal] at hi
    rw [List.getElem_drop, ← hz (len + i) (Nat.le_add_right _ _) (by omega), List.getD_eq_getElem]
  have hlen : ((bytesToBits payload (8 * payload.length)).take len).length = len := by
    rw [List.length_take, htotal]
    omega
  have hraw : rawBytes ((bytesToBits payload (8 * payload.length)).take len) = payload.take n :=
    rawBytes_take_bits (Nat.sub_le _ _) hz
  have hn : (payload.take n).length = n := by
    rw [List.length_take]
    omega
  have hspec := State.deliver_fits_spec (o := o) (out := payload.take n) (n := len) hw (by rwa [hn])
  rw [hn] at hspec
  refine ⟨_, exec_unpk s, ?_⟩
  rw [runUnpk_ok hreg hbits, hraw, hlen]
  exact hspec

/-- Settles O49: an output longer than DST_CAP raises OUT_OVF with its size. -/
theorem outputOverflowReportsTheSize : Obligations.OutputOverflowReportsTheSize := by
  intro s o
  refine ⟨?_, fun bits hreg hbits hovf => ⟨_, exec_unpk s, ?_⟩⟩
  · intro n out hreg hovf
    refine ⟨_, exec_pack s, ?_⟩
    rw [runPack_of_regionsOk hreg]
    exact State.deliver_overflows_spec hovf
  · have hlen : (rawBytes bits).length = (bits.length + 7) / 8 := rawBytes_length bits
    rw [runUnpk_ok hreg hbits, ← hlen]
    exact State.deliver_overflows_spec (by rwa [hlen])

/-! ### Malformed streams (`43_bit_packer.md` R142, R146) -/

theorem unpackBytes_header_gt {hdr : Byte} {payload : List Byte} (h : 8 < hdr.toNat) :
    unpackBytes (hdr :: payload) = .error 0 := if_pos h

theorem unpackBytes_padding_gt {hdr : Byte} {payload : List Byte} (h : 8 * payload.length < hdr.toNat) :
    unpackBytes (hdr :: payload) = .error 0 := by
  rw [unpackBytes]
  simp only [gt_iff_lt, h, if_true, ite_self]

/-- The first 1 inside the padding is reported at its place in the payload. -/
theorem unpackBytes_padding_one {hdr : Byte} {payload : List Byte} {j : Nat} (hhdr : hdr.toNat ≤ 8)
    (hpad : hdr.toNat ≤ 8 * payload.length) (hlo : 8 * payload.length - hdr.toNat ≤ j) (hhi : j < 8 * payload.length)
    (hone : (bytesToBits payload (8 * payload.length)).getD j false = true)
    (hzero : ∀ m, 8 * payload.length - hdr.toNat ≤ m → m < j →
      (bytesToBits payload (8 * payload.length)).getD m false = false) :
    unpackBytes (hdr :: payload) = .error (8 + j) := by
  have htotal : (bytesToBits payload (8 * payload.length)).length = 8 * payload.length := by
    rw [bytesToBits_length, Nat.min_self]
  have hfind : ((bytesToBits payload (8 * payload.length)).drop (8 * payload.length - hdr.toNat)).findIdx? (fun x => x) =
      some (j - (8 * payload.length - hdr.toNat)) := by
    refine List.findIdx?_eq_some_iff_getElem.2 ⟨by rw [List.length_drop, htotal]; omega, ?_, fun m hm => ?_⟩
    · rw [List.getD_eq_getElem _ _ (by omega)] at hone
      simp only [List.getElem_drop, Nat.add_sub_cancel' hlo, hone]
    · rw [List.getElem_drop, ← List.getD_eq_getElem _ false, hzero _ (by omega) (by omega)]
      exact Bool.false_ne_true
  rw [unpackBytes]
  simp only [gt_iff_lt, if_neg (Nat.not_lt.2 hhdr), if_neg (Nat.not_lt.2 hpad), hfind]
  congr 1
  omega

theorem runDec_badRegion {o : Latched} {s : State} {p : Nat} (h : badRegion s.dmemSize o o.srcBytes = some p) :
    runDec o s = s.raise .badRegion p := by
  simp [runDec, h]

theorem runDec_malformed {o : Latched} {s : State} {p : Nat} (hreg : RegionsOk s.dmemSize o o.srcBytes)
    (h : unpackBytes (s.source o o.srcBytes) = .error p) : runDec o s = s.raiseData o .malformed p := by
  simp [runDec, badRegion_eq_none.2 hreg, h]

/-- Settles O44: UNPK and DEC raise what the unpacker reports, as a data-phase error. -/
theorem malformedStreamIsReported : Obligations.MalformedStreamIsReported := by
  intro s i p hi o src hreg hbad
  have hunpack : unpackBytes (s.source o o.srcBytes) = .error p := by
    change unpackBytes src = _
    rcases hbad with ⟨hsrc, rfl⟩ | ⟨hdr, payload, hsrc, ⟨h, rfl⟩ | ⟨h, rfl⟩ | ⟨hhdr, j, hlo, hhi, hpad, hone, hzero, rfl⟩⟩ <;>
      rw [hsrc]
    · rfl
    · exact unpackBytes_header_gt h
    · exact unpackBytes_padding_gt h
    · exact unpackBytes_padding_one hhdr hpad hlo hhi hone hzero
  rcases hi with rfl | rfl
  · refine ⟨_, exec_unpk s, ?_⟩
    rw [runUnpk_malformed hreg hunpack]
    exact State.raiseData_spec _ _ _ _
  · refine ⟨_, exec_dec s, ?_⟩
    rw [runDec_malformed hreg hunpack]
    exact State.raiseData_spec _ _ _ _

/-! ### ENC (`44_encoder.md` R151) -/

@[simp] theorem exec_enc (s : State) : exec .enc s = .next (runEnc s.operands s) := rfl

section
variable {o : Latched} {s : State}

theorem runEnc_badRegion {p : Nat} (h : badRegion s.dmemSize o o.srcBytes = some p) :
    runEnc o s = s.raise .badRegion p := by
  simp [runEnc, h]

theorem runEnc_emptyInput (hreg : RegionsOk s.dmemSize o o.srcBytes) (h0 : o.srcBytes = 0) (hpol : o.emptyPol = true) :
    runEnc o s = s.raise .emptyInput 0 := by
  rw [runEnc, badRegion_eq_none.2 hreg]
  simp [h0, hpol]

theorem runEnc_empty (hreg : RegionsOk s.dmemSize o o.srcBytes) (h0 : o.srcBytes = 0) (hpol : o.emptyPol = false) :
    runEnc o s = s.deliver o (packBits [] o.padMode) 0 := by
  rw [runEnc, badRegion_eq_none.2 hreg]
  simp [h0, hpol]

theorem runEnc_noTable (hreg : RegionsOk s.dmemSize o o.srcBytes) (hpos : 0 < o.srcBytes)
    (hct : s.status.ctValid = false) : runEnc o s = s.raise .noTable 0 := by
  rw [runEnc, badRegion_eq_none.2 hreg]
  simp [Nat.ne_of_gt hpos, hct]

theorem runEnc_data (hreg : RegionsOk s.dmemSize o o.srcBytes) (hpos : 0 < o.srcBytes)
    (hct : s.status.ctValid = true) : runEnc o s = encodeSource o s := by
  rw [runEnc, badRegion_eq_none.2 hreg]
  simp [Nat.ne_of_gt hpos, hct]

theorem encodeSource_noCode {j : Nat} {b : Byte} (hj : (s.source o o.srcBytes)[j]? = some b) (hb : codeAt s.code b = [])
    (h : ∀ c ∈ (s.source o o.srcBytes).take j, codeAt s.code c ≠ []) :
    encodeSource o s = s.raiseData o .noCode j := by
  simp [encodeSource, encodeBytes_noCode _ _ 0 j b hj hb h]

end

/-- Settles O46: with a code for every byte ENC delivers the packed codes. -/
theorem encWritesTheConcatenatedCodes : Obligations.EncWritesTheConcatenatedCodes := by
  intro s hw o src bits out hreg hpos hct hcodes hfits
  refine ⟨_, exec_enc s, ?_⟩
  rw [runEnc_data hreg hpos hct, encodeSource_coded hcodes]
  exact State.deliver_fits_spec hw hfits

/-- Settles O47: each test of ENC is made after the ones before it have passed. -/
theorem encErrorsInOrder : Obligations.EncErrorsInOrder := by
  intro s o src out hreg
  refine ⟨fun h0 hpol => ⟨_, exec_enc s, ?_⟩, fun hpos hct => ⟨_, exec_enc s, ?_⟩,
    fun j b hct hj hb hcodes => ⟨_, exec_enc s, ?_⟩, fun hpos hct hcodes hovf => ⟨_, exec_enc s, ?_⟩⟩
  · rw [runEnc_emptyInput hreg (congrArg BitVec.toNat h0) hpol]
    exact State.raise_spec _ _ _
  · rw [runEnc_noTable hreg hpos hct]
    exact State.raise_spec _ _ _
  · have hpos : 0 < o.srcBytes := by
      obtain ⟨hlt, -⟩ := List.getElem?_eq_some_iff.1 hj
      rw [Memory.readBytes_length] at hlt
      exact Nat.zero_lt_of_lt hlt
    rw [runEnc_data hreg hpos hct, encodeSource_noCode hj hb hcodes]
    exact State.raiseData_spec _ _ _ _
  · rw [runEnc_data hreg hpos hct, encodeSource_coded hcodes]
    exact State.deliver_overflows_spec hovf

/-! ### The empty input (`44_encoder.md` R150 to R152) -/

/-- The packed form of no bits in each mode. -/
theorem packBits_nil (mode : Bool) : packBits [] mode = if mode then [0x08#8, 0x00#8] else [0x00#8] := by
  cases mode <;> decide

theorem clearForEmpty_hostSide (s : State) : HostSideKept s (clearForEmpty s) := by constructor <;> rfl

/-- What COMP's empty path cleared, seen from a state that keeps it. -/
theorem clearForEmpty_cleared {s t : State} (htree : TreeKept (clearForEmpty s) t)
    (hfreq : t.freq = (clearForEmpty s).freq) :
    (∀ b : Byte, freqAt t.freq b = 0#32 ∧ codeAt t.code b = []) ∧ t.symCount = 0#9 ∧ t.status.treeValid = false ∧
      t.status.ctValid = false ∧ t.node = s.node ∧ t.nodeCount = s.nodeCount ∧ t.root = s.root := by
  obtain ⟨hnode, hcount, hroot, hsym, hcode, htv, hct⟩ := htree
  rw [hnode, hcount, hroot, hsym, hcode, htv, hct, hfreq]
  exact ⟨fun b => ⟨freqAt_clearedFreq b, codeAt_clearedCode b⟩, rfl, rfl, rfl, rfl, rfl, rfl⟩

/-- Settles O48: with no source the output is the packed form of no bits, which is delivered, does not fit, or is refused. -/
theorem emptyInputPolicy : Obligations.EmptyInputPolicy := by
  intro s hw o out hreg hlen
  have h0 : o.srcBytes = 0 := congrArg BitVec.toNat hlen
  have hreg : RegionsOk s.dmemSize o o.srcBytes := h0.symm ▸ hreg
  have hout : packBits [] o.padMode = out := packBits_nil o.padMode
  refine ⟨fun hpol hfits => ⟨⟨_, exec_enc s, ?_⟩, _, exec_comp s, ?_⟩,
    fun hpol hovf => ⟨⟨_, exec_enc s, ?_⟩, _, exec_comp s, ?_⟩, ?_⟩
  · rw [runEnc_empty hreg h0 hpol, hout]
    exact State.deliver_fits_spec hw hfits
  · rw [runComp_empty hreg h0 hpol, hout]
    obtain ⟨hok, hread, hkept, hhost, htree, hfreq⟩ :=
      State.deliver_fits_spec (o := o) (out := out) (n := 0) (s := clearForEmpty s) hw hfits
    exact ⟨hok, hread, hkept, (clearForEmpty_hostSide s).trans hhost, clearForEmpty_cleared htree hfreq⟩
  · rw [runEnc_empty hreg h0 hpol, hout]
    exact State.deliver_overflows_spec hovf
  · rw [runComp_empty hreg h0 hpol, hout]
    obtain ⟨herr, hkept, hhost, htree, hfreq⟩ :=
      State.deliver_overflows_spec (o := o) (out := out) (n := 0) (s := clearForEmpty s) hovf
    exact ⟨herr, hkept, (clearForEmpty_hostSide s).trans hhost, clearForEmpty_cleared htree hfreq⟩
  · rintro hpol i (rfl | rfl)
    · refine ⟨_, exec_enc s, ?_⟩
      rw [runEnc_emptyInput hreg h0 hpol]
      exact State.raise_spec _ _ _
    · refine ⟨_, exec_comp s, ?_⟩
      rw [runComp_emptyInput hreg h0 hpol]
      exact State.raise_spec _ _ _

end Sys2Proof.Machine
end

section
/-! SUPPORT. The walk of DEC (`45_decoder.md` R161 to R163): it ends without error exactly on the codes of some bytes, and
where each of its errors is raised. -/

namespace Sys2Proof.Machine

/-! ### One bit of the walk (`45_decoder.md` R161) -/

section
variable {node : Vector Node 511} {r n : Nat} {b : Bool}

@[simp] theorem walkFrom_nil_root (node : Vector Node 511) (r room i : Nat) : walkFrom node r r room i [] = .ok [] := by
  simp [walkFrom]

theorem walkFrom_nil_ne (room i : Nat) (h : n ≠ r) : walkFrom node r n room i [] = .error (.malformed, 8 + i) := by
  simp [walkFrom, h]

theorem walkFrom_cons_internal (room i : Nat) (bs : Bits)
    (h : (nodeAt node ((nodeAt node n).child b)).internal = true) :
    walkFrom node r n room i (b :: bs) = walkFrom node r ((nodeAt node n).child b) room (i + 1) bs := by
  rw [Node.child] at h ⊢
  rw [walkFrom.eq_def]
  simp [h]

theorem walkFrom_cons_leaf (room i : Nat) (bs : Bits)
    (h : (nodeAt node ((nodeAt node n).child b)).internal = false) :
    walkFrom node r n (room + 1) i (b :: bs) =
      emitByte (nodeAt node ((nodeAt node n).child b)).sym (walkFrom node r r room (i + 1) bs) := by
  rw [Node.child] at h ⊢
  rw [walkFrom.eq_def]
  simp [h]

theorem walkFrom_cons_full (i : Nat) (bs : Bits) (h : (nodeAt node ((nodeAt node n).child b)).internal = false) :
    walkFrom node r n 0 i (b :: bs) = .error (.outOvf, 8 + i) := by
  rw [Node.child] at h
  rw [walkFrom.eq_def]
  simp [h]

theorem leafPath_cons_child {p : Bits} {c : Byte} :
    LeafPath node n (b :: p) c ↔ (nodeAt node n).internal = true ∧ LeafPath node ((nodeAt node n).child b) p c :=
  leafPath_cons

end

/-! ### The walk that ends without error (`45_decoder.md` R162) -/

/-- Under an internal root the walk ends back at the root, so what it has read since the last symbol, and the rest, are codes
of the bytes it emits. -/
theorem walkFrom_decodes {node : Vector Node 511} {count r : Nat} {code : Vector Code 256} (hv : ValidTree node count r)
    (htable : TableOfTree node r code) (hr : (nodeAt node r).internal = true) {p : Bits} {n room i : Nat} {bits : Bits}
    {out : List Byte} (hp : followPath node r p = some n) (hi : (nodeAt node n).internal = true)
    (h : walkFrom node r n room i bits = .ok out) :
    (∀ b ∈ out, codeAt code b ≠ []) ∧ p ++ bits = out.flatMap (codeAt code) := by
  induction bits generalizing p n room i out with
  | nil =>
    by_cases hn : n = r
    · subst hn
      rw [walkFrom_nil_root] at h
      cases h
      obtain rfl := hv.once p [] n hp rfl
      simp
    · rw [walkFrom_nil_ne _ _ hn] at h
      cases h
  | cons b bs ih =>
    have hchild : followPath node r (p ++ [b]) = some ((nodeAt node n).child b) :=
      followPath_append_singleton.2 ⟨n, hp, hi, rfl⟩
    cases hm : (nodeAt node ((nodeAt node n).child b)).internal with
    | true =>
      rw [walkFrom_cons_internal _ _ _ hm] at h
      obtain ⟨hcodes, hbits⟩ := ih hchild hm h
      exact ⟨hcodes, by rw [← hbits, List.append_assoc, List.singleton_append]⟩
    | false =>
      have hleaf := LeafPath.of_followPath hchild hm
      have hcode := htable.leaf _ _ hleaf
      rw [hleaf.pathCode_eq hr] at hcode
      cases room with
      | zero =>
        rw [walkFrom_cons_full _ _ hm] at h
        cases h
      | succ room =>
        rw [walkFrom_cons_leaf _ _ _ hm] at h
        obtain ⟨rest, hrest, rfl⟩ := emitByte_ok.1 h
        obtain ⟨hcodes, hbits⟩ := ih (p := []) rfl hr hrest
        refine ⟨List.forall_mem_cons.2 ⟨by rw [hcode]; simp, hcodes⟩, ?_⟩
        rw [List.flatMap_cons, hcode, ← hbits, List.append_assoc, List.nil_append, List.singleton_append]

/-- Under a single leaf every bit is 0 and stands for the leaf's symbol (`45_decoder.md` R163). -/
theorem walkSingle_decodes {sym : Byte} {room i : Nat} {bits : Bits} {out : List Byte}
    (h : walkSingle sym room i bits = .ok out) : (∀ b ∈ out, b = sym) ∧ bits = out.flatMap fun _ => [false] := by
  induction bits generalizing room i out with
  | nil =>
    rw [walkSingle.eq_def] at h
    cases h
    simp
  | cons b bs ih =>
    rw [walkSingle.eq_def] at h
    dsimp only at h
    split at h
    · cases h
    · next hb =>
      split at h
      · cases h
      · obtain ⟨rest, hrest, rfl⟩ := emitByte_ok.1 h
        obtain ⟨hsyms, hbits⟩ := ih hrest
        exact ⟨List.forall_mem_cons.2 ⟨rfl, hsyms⟩, by simp [← hbits, hb]⟩

/-- The code of a single leaf's symbol is "0". -/
theorem TableOfTree.codeAt_single {node : Vector Node 511} {r : Nat} {code : Vector Code 256}
    (h : TableOfTree node r code) (hi : (nodeAt node r).internal = false) :
    codeAt code (nodeAt node r).sym = [false] :=
  h.leaf [] _ ((leafPath_of_leaf hi).2 ⟨rfl, rfl⟩)

/-- Under a single leaf no other symbol has a code. -/
theorem TableOfTree.eq_sym_of_single {node : Vector Node 511} {r : Nat} {code : Vector Code 256}
    (h : TableOfTree node r code) (hi : (nodeAt node r).internal = false) {b : Byte} (hb : codeAt code b ≠ []) :
    b = (nodeAt node r).sym := by
  obtain ⟨p, hp⟩ := (h.codeAt_ne_nil_iff b).1 hb
  exact ((leafPath_of_leaf hi).1 hp).2.symm

theorem walkDecode_internal {node : Vector Node 511} {r : Nat} (cap : Nat) (bits : Bits)
    (hi : (nodeAt node r).internal = true) : walkDecode node r cap bits = walkFrom node r r cap 0 bits := by
  simp [walkDecode, hi]

theorem walkDecode_single {node : Vector Node 511} {r : Nat} (cap : Nat) (bits : Bits)
    (hi : (nodeAt node r).internal = false) : walkDecode node r cap bits = walkSingle (nodeAt node r).sym cap 0 bits := by
  simp [walkDecode, hi]

/-- Settles O52: the walk takes each code to its byte, and the bits of a walk that ends at the root are codes. -/
theorem walkDecodesExactlyTheCodedStrings : Obligations.WalkDecodesExactlyTheCodedStrings := by
  intro node count root k cap bits out hk
  have htable := tableOfTree_of_deriveCodes hk
  constructor
  · intro h
    cases hi : (nodeAt node root.toNat).internal with
    | true =>
      rw [walkDecode_internal _ _ hi] at h
      exact ⟨walkFrom_length h, walkFrom_decodes (validTree_of_deriveCodes hk) htable hi (p := []) rfl hi h⟩
    | false =>
      rw [walkDecode_single _ _ hi] at h
      obtain ⟨hsyms, hbits⟩ := walkSingle_decodes h
      have hcodes : ∀ b ∈ out, codeAt k.code b = [false] := fun b hb => hsyms b hb ▸ htable.codeAt_single hi
      refine ⟨walkSingle_length h, fun b hb => by simp [hcodes b hb], ?_⟩
      rw [hbits]
      exact List.flatMap_congr fun b hb => (hcodes b hb).symm
  · rintro ⟨hroom, hcodes, rfl⟩
    exact htable.walkDecode_codes hcodes hroom

/-! ### DEC without error (`45_decoder.md` R160) -/

/-- Settles O53: DEC delivers the bytes whose codes the stream holds. -/
theorem decRecoversTheCodedBytes : Obligations.DecRecoversTheCodedBytes := by
  intro s k out hw o bits hreg hbits hvalid hk hcodes hroom
  have htree : out = [] ∨ s.status.treeValid = true ∧ TableOfTree s.node s.root.toNat k.code := by
    rcases hvalid with hnil | hvalid
    · exact Or.inl hnil
    · exact hk.symm.imp_right fun hk => ⟨hvalid, tableOfTree_of_deriveCodes hk⟩
  refine ⟨_, exec_dec s, ?_⟩
  rw [runDec_of_codes hreg hbits hcodes htree hroom]
  exact State.deliver_fits_spec hw hroom

/-! ### Where the walk stops with an error (`45_decoder.md` R161 to R163) -/

/-- After the codes of some bytes the walk is at the root again with less room, so it fails where the rest fails. -/
theorem TableOfTree.walkFrom_codes_error {node : Vector Node 511} {r : Nat} {code : Vector Code 256}
    (htable : TableOfTree node r code) (hi : (nodeAt node r).internal = true) {bs : List Byte} {room i : Nat} {rest : Bits}
    {e : ErrCode × Nat} (hb : ∀ b ∈ bs, codeAt code b ≠ [])
    (h : walkFrom node r r room (i + (bs.flatMap (codeAt code)).length) rest = .error e) :
    walkFrom node r r (bs.length + room) i (bs.flatMap (codeAt code) ++ rest) = .error e := by
  induction bs generalizing i with
  | nil => simpa using h
  | cons b bs ih =>
    obtain ⟨hhead, htail⟩ := List.forall_mem_cons.1 hb
    obtain ⟨p, hp⟩ := (htable.codeAt_ne_nil_iff b).1 hhead
    have hcode : codeAt code b = p := (htable.leaf p b hp).trans (hp.pathCode_eq hi)
    rw [List.flatMap_cons, List.length_append, hcode, ← Nat.add_assoc] at h
    rw [List.flatMap_cons, hcode, List.append_assoc, List.length_cons, Nat.add_right_comm, walkFrom_leafPath _ i _ hi hp,
      emitByte_error]
    exact ih htail h

/-- A walk that ends inside a code, and not at the root, is malformed there. -/
theorem walkFrom_cut {node : Vector Node 511} {r n room i : Nat} {p q : Bits} {b : Byte} (hp : LeafPath node n p b)
    (hq : q <+: p) (hne : q ≠ p) (hend : ∀ m, followPath node n q = some m → m ≠ r) :
    walkFrom node r n room i q = .error (.malformed, 8 + (i + q.length)) := by
  induction q generalizing n p i with
  | nil => exact walkFrom_nil_ne _ _ (hend n rfl)
  | cons c q ih =>
    obtain ⟨x, rfl⟩ := hq
    obtain ⟨hi, hp⟩ := leafPath_cons_child.1 hp
    have hne : q ≠ q ++ x := fun e => hne (congrArg _ e)
    have hm : (nodeAt node ((nodeAt node n).child c)).internal = true := by
      cases hm : (nodeAt node ((nodeAt node n).child c)).internal with
      | true => rfl
      | false =>
        obtain ⟨-, rfl⟩ := List.append_eq_nil_iff.1 ((leafPath_of_leaf hm).1 hp).1
        exact absurd (List.append_nil q).symm hne
    rw [walkFrom_cons_internal _ _ _ hm, ih hp (List.prefix_append q x) hne fun m hm' => hend m (by
      rw [followPath, if_pos hi]
      exact hm'), List.length_cons, Nat.add_assoc, Nat.add_comm 1]

/-- A symbol for which there is no room is reported at the last bit of its code. -/
theorem walkFrom_full {node : Vector Node 511} {r n i : Nat} {p : Bits} {b : Byte} (rest : Bits)
    (hi : (nodeAt node n).internal = true) (hp : LeafPath node n p b) :
    walkFrom node r n 0 i (p ++ rest) = .error (.outOvf, 8 + (i + p.length - 1)) := by
  induction p generalizing n i with
  | nil =>
    rw [(leafPath_nil.1 hp).1] at hi
    cases hi
  | cons c p ih =>
    obtain ⟨-, hp⟩ := leafPath_cons_child.1 hp
    cases hm : (nodeAt node ((nodeAt node n).child c)).internal with
    | true =>
      rw [List.cons_append, walkFrom_cons_internal _ _ _ hm, ih hm hp, List.length_cons]
      congr 3
      omega
    | false =>
      obtain ⟨rfl, -⟩ := (leafPath_of_leaf hm).1 hp
      exact walkFrom_cons_full _ _ hm

/-- Under a single leaf the walk takes one byte of room for each 0. -/
theorem walkSingle_zeros_error {sym : Byte} {room i : Nat} {rest : Bits} {e : ErrCode × Nat} (n : Nat)
    (h : walkSingle sym room (i + n) rest = .error e) :
    walkSingle sym (n + room) i (zeros n ++ rest) = .error e := by
  induction n generalizing i with
  | zero => simpa [zeros] using h
  | succ n ih =>
    rw [zeros, List.replicate_succ, List.cons_append, Nat.add_right_comm, walkSingle.eq_def]
    simp only [Bool.false_eq_true, if_false, emitByte_error]
    exact ih (by rwa [Nat.add_assoc, Nat.add_comm 1])

/-- Under a single leaf the codes of some bytes are zeros. -/
theorem TableOfTree.flatMap_codes_single {node : Vector Node 511} {r : Nat} {code : Vector Code 256}
    (htable : TableOfTree node r code) (hi : (nodeAt node r).internal = false) {bs : List Byte}
    (hb : ∀ b ∈ bs, codeAt code b ≠ []) : bs.flatMap (codeAt code) = zeros bs.length := by
  induction bs with
  | nil => rfl
  | cons b bs ih =>
    obtain ⟨hhead, htail⟩ := List.forall_mem_cons.1 hb
    rw [List.flatMap_cons, ih htail, htable.eq_sym_of_single hi hhead, htable.codeAt_single hi, zeros, zeros, List.length_cons,
      List.replicate_succ, List.singleton_append]

/-! ### DEC's errors past the header (`45_decoder.md` R160) -/

section
variable {o : Latched} {s : State} {bits : Bits}

theorem runDec_noTree (hreg : RegionsOk s.dmemSize o o.srcBytes) (h : unpackBytes (s.source o o.srcBytes) = .ok bits)
    (hne : bits ≠ []) (htv : s.status.treeValid = false) : runDec o s = s.raise .noTree 0 := by
  simp [runDec, badRegion_eq_none.2 hreg, h, hne, htv]

theorem runDec_walk_error {e : ErrCode} {p : Nat} (hreg : RegionsOk s.dmemSize o o.srcBytes)
    (h : unpackBytes (s.source o o.srcBytes) = .ok bits) (hne : bits ≠ []) (htv : s.status.treeValid = true)
    (hw : walkDecode s.node s.root.toNat o.dstCap.toNat bits = .error (e, p)) : runDec o s = s.raiseData o e p := by
  simp [runDec, badRegion_eq_none.2 hreg, h, hne, htv, hw]

end

section
variable {node : Vector Node 511} {count : BitVec 10} {root : BitVec 9} {k : Walk}
  (hk : deriveCodes node count root = .ok k)
include hk

/-- A stream that ends inside a code is malformed at its end. -/
theorem walkDecode_cut {out : List Byte} {rest : Bits} {b : Byte} {cap : Nat} (hcodes : ∀ c ∈ out, codeAt k.code c ≠ [])
    (hroom : out.length ≤ cap) (hne : rest ≠ []) (hpre : rest <+: codeAt k.code b) (hcut : rest ≠ codeAt k.code b) :
    walkDecode node root.toNat cap (out.flatMap (codeAt k.code) ++ rest) =
      .error (.malformed, 8 + (out.flatMap (codeAt k.code) ++ rest).length) := by
  have htable := tableOfTree_of_deriveCodes hk
  have hb : codeAt k.code b ≠ [] := fun e => hne (List.prefix_nil.1 (e ▸ hpre))
  obtain ⟨room, rfl⟩ := Nat.exists_eq_add_of_le hroom
  cases hi : (nodeAt node root.toNat).internal with
  | true =>
    obtain ⟨p, hp⟩ := (htable.codeAt_ne_nil_iff b).1 hb
    rw [htable.leaf p b hp, hp.pathCode_eq hi] at hpre hcut
    rw [walkDecode_internal _ _ hi]
    refine htable.walkFrom_codes_error hi hcodes ?_
    rw [walkFrom_cut hp hpre hcut fun m hm e => hne ((validTree_of_deriveCodes hk).once rest [] m hm (by rw [e]; rfl)),
      List.length_append, Nat.zero_add]
  | false =>
    rw [htable.eq_sym_of_single hi hb, htable.codeAt_single hi] at hpre hcut
    rcases List.prefix_cons_iff.1 hpre with h | ⟨x, h, hx⟩
    · exact absurd h hne
    · rw [List.prefix_nil.1 hx] at h
      exact absurd h hcut

/-- A symbol for which there is no room is reported at the bit that completes it. -/
theorem walkDecode_full {out : List Byte} {b : Byte} (rest : Bits) (hcodes : ∀ c ∈ out, codeAt k.code c ≠ [])
    (hb : codeAt k.code b ≠ []) :
    walkDecode node root.toNat out.length (out.flatMap (codeAt k.code) ++ codeAt k.code b ++ rest) =
      .error (.outOvf, 8 + ((out.flatMap (codeAt k.code) ++ codeAt k.code b).length - 1)) := by
  have htable := tableOfTree_of_deriveCodes hk
  rw [List.append_assoc]
  cases hi : (nodeAt node root.toNat).internal with
  | true =>
    obtain ⟨p, hp⟩ := (htable.codeAt_ne_nil_iff b).1 hb
    rw [walkDecode_internal _ _ hi]
    refine htable.walkFrom_codes_error hi (room := 0) hcodes ?_
    rw [htable.leaf p b hp, hp.pathCode_eq hi, walkFrom_full rest hi hp, List.length_append, Nat.zero_add]
  | false =>
    rw [walkDecode_single _ _ hi, htable.flatMap_codes_single hi hcodes, htable.eq_sym_of_single hi hb,
      htable.codeAt_single hi]
    exact walkSingle_zeros_error (room := 0) out.length (by simp [walkSingle])

end

/-- The first 1 under a single leaf is malformed. -/
theorem walkDecode_single_one {node : Vector Node 511} {r i cap : Nat} {bits : Bits}
    (hi : (nodeAt node r).internal = false) (hroom : i ≤ cap) (hone : bits[i]? = some true)
    (hzero : ∀ j, j < i → bits[j]? = some false) : walkDecode node r cap bits = .error (.malformed, 8 + i) := by
  obtain ⟨hlt, hget⟩ := List.getElem?_eq_some_iff.1 hone
  have hfront : bits.take i = zeros i := by
    refine List.ext_getElem (by simp; omega) fun j hj _ => ?_
    have hj : j < i := by simp at hj; omega
    have := (List.getElem?_eq_some_iff.1 (hzero j hj)).2
    simp [zeros, this]
  have hsplit : bits = zeros i ++ true :: bits.drop (i + 1) := by
    rw [← hfront, ← hget, ← List.drop_eq_getElem_cons hlt, List.take_append_drop]
  obtain ⟨room, rfl⟩ := Nat.exists_eq_add_of_le hroom
  rw [walkDecode_single _ _ hi, hsplit]
  exact walkSingle_zeros_error i (by rw [walkSingle.eq_def]; simp)

/-- Settles O54: DEC raises what the walk reports, as a data-phase error. -/
theorem decErrorsInBitOrder : Obligations.DecErrorsInBitOrder := by
  intro s k bits o hreg hbits hne
  refine ⟨fun htv => ⟨_, exec_dec s, ?_⟩, fun htv hk => ⟨?_, ?_, ?_⟩⟩
  · rw [runDec_noTree hreg hbits hne htv]
    obtain ⟨herr, hdmem, hhost, htree, -⟩ := State.raise_spec .noTree 0 s
    exact ⟨herr, hdmem, hhost, htree⟩
  · rintro out rest b hcodes hroom hrest hpre hcut rfl
    refine ⟨_, exec_dec s, ?_⟩
    rw [runDec_walk_error hreg hbits hne htv (walkDecode_cut hk hcodes hroom hrest hpre hcut)]
    exact State.raiseData_completedErr _ _ _ _
  · intro i hi hroom hone hzero
    refine ⟨_, exec_dec s, ?_⟩
    rw [runDec_walk_error hreg hbits hne htv (walkDecode_single_one hi hroom hone hzero)]
    exact State.raiseData_completedErr _ _ _ _
  · rintro out b rest hcodes hb hroom rfl
    refine ⟨_, exec_dec s, ?_⟩
    rw [runDec_walk_error hreg hbits hne htv (hroom ▸ walkDecode_full hk rest hcodes hb)]
    exact State.raiseData_completedErr _ _ _ _

/-! ### After BAD_TREE (`42_code_table.md` R136) -/

/-- Settles O38: the failing walk leaves no code and no valid tree, which ENC and DEC then ask for. -/
theorem badTreeClearsTheTable : Obligations.BadTreeClearsTheTable := by
  intro s t hexec herr
  rw [exec_cgen] at hexec
  cases hexec
  cases hd : deriveCodes s.node s.nodeCount s.root with
  | ok k =>
    rw [runCgen_ok hd] at herr
    cases herr
  | error p =>
    have hct : (runCgen s).status.ctValid = false := by rw [runCgen_error hd]; rfl
    have htv : (runCgen s).status.treeValid = false := by rw [runCgen_error hd]; rfl
    have hcode : (runCgen s).code = clearedCode := by rw [runCgen_error hd]; rfl
    have hsym : (runCgen s).symCount = s.symCount := by rw [runCgen_error hd]; rfl
    obtain ⟨-, hnode, hcount, hroot, -⟩ := runCgen_keeps s
    refine ⟨hcode ▸ codeAt_clearedCode, htv, hct, hsym, hnode, hcount, hroot, fun o hreg hpos => ⟨_, exec_enc _, ?_⟩,
      fun o bits hreg hbits hne => ⟨_, exec_dec _, ?_⟩⟩
    · rw [State.operands_withEngine, runEnc_noTable (s := { runCgen s with engine := some o }) hreg hpos hct]
      exact State.raise_completedErr _ _ _
    · rw [State.operands_withEngine, runDec_noTree (s := { runCgen s with engine := some o }) hreg hbits hne htv]
      exact State.raise_completedErr _ _ _

end Sys2Proof.Machine
end

section
/-! SUPPORT. What every command can do, said once: what its body leaves in the tables (`30_encoding.md` R91) and how it then
completes (`60_exceptions.md` R171 to R174). The statements about all commands follow. -/

namespace Sys2Proof.Machine

/-! ### How a command completes (`60_exceptions.md` R170 to R174) -/

/-- The errors a command can end in (`60_exceptions.md` R174). -/
def commandErrors : Instr → List ErrCode
  | .fclr => []
  | .fcnt => [.badRegion, .freqOvf]
  | .build => [.emptyTable, .sumOvf]
  | .cgen => [.badTree]
  | .enc => [.badRegion, .emptyInput, .noTable, .noCode, .outOvf]
  | .dec => [.badRegion, .malformed, .noTree, .outOvf]
  | .pack => [.badRegion, .outOvf]
  | .unpk => [.badRegion, .malformed, .outOvf]
  | .comp => [.badRegion, .emptyInput, .outOvf]

theorem ne_none_of_mem_commandErrors {i : Instr} {e : ErrCode} (h : e ∈ commandErrors i) : e ≠ .none := by
  rintro rfl
  cases i <;> revert h <;> decide

/-- How a command completes from the state its body left: without output, with output that fits in the destination region,
with an error, or with an error of the data phase. -/
inductive Completion (i : Instr) (o : Latched) (s : State) : State → Prop
  | finish (n b : Nat) : Completion i o s (s.finish n b)
  | write (out : List Byte) (n : Nat) : (writeSet i).dst = true → out.length ≤ o.dstCap.toNat →
      o.dstAddr.toNat + o.dstCap.toNat ≤ s.dmemSize →
      Completion i o s (State.finish out.length n { s with dmem := s.dmem.writeBytes o.dstAddr.toNat out })
  | raise (e : ErrCode) (p : Nat) : e ∈ commandErrors i → Completion i o s (s.raise e p)
  | raiseData (e : ErrCode) (p : Nat) : e ∈ commandErrors i → e.dataPhase = true → (writeSet i).dst = true →
      Completion i o s (s.raiseData o e p)

/-- A delivery writes output that fits, or raises OUT_OVF. -/
theorem Completion.deliver {i : Instr} {o : Latched} {s : State} (out : List Byte) (n : Nat)
    (hdst : (writeSet i).dst = true) (hovf : ErrCode.outOvf ∈ commandErrors i)
    (hreg : o.dstAddr.toNat + o.dstCap.toNat ≤ s.dmemSize) : Completion i o s (s.deliver o out n) := by
  rcases State.deliver_cases o out n s with ⟨hfits, h⟩ | ⟨-, h⟩ <;> rw [h]
  · exact .write out n hdst hfits hreg
  · exact .raiseData _ _ hovf rfl hdst

section
variable {i : Instr} {o : Latched} {s t : State} (h : Completion i o s t)
include h

theorem Completion.hostSide : HostSideKept s t := by
  cases h <;> constructor <;> rfl

theorem Completion.tree : TreeKept s t := by
  cases h <;> constructor <;> rfl

theorem Completion.freq : t.freq = s.freq := by
  cases h <;> rfl

/-- Every completion fills the completion fields, without error or with one of the command's errors. -/
theorem Completion.fields :
    (∃ n b, CompletedOk t n b) ∨ ∃ e p, e ∈ commandErrors i ∧ CompletedErr t e p := by
  cases h with
  | finish n b => exact Or.inl ⟨n, b, State.finish_completedOk n b s⟩
  | write out n => exact Or.inl ⟨out.length, n, State.finish_completedOk _ _ _⟩
  | raise e p he => exact Or.inr ⟨e, p, he, State.raise_completedErr e p s⟩
  | raiseData e p he => exact Or.inr ⟨e, p, he, State.raiseData_completedErr o e p s⟩

theorem Completion.engine : t.engine = Option.none := by
  cases h <;> rfl

/-- Only a command that lists its destination region writes DMEM. -/
theorem Completion.dmem_of_not_dst (hdst : (writeSet i).dst = false) : t.dmem = s.dmem := by
  cases h with
  | finish => rfl
  | write out n hd => rw [hd] at hdst; cases hdst
  | raise => rfl
  | raiseData e p he hp hd => rw [hd] at hdst; cases hdst

/-- An error outside the data phase leaves DMEM alone. -/
theorem Completion.dmem_of_error (hne : t.status.errcode ≠ .none) (hphase : t.status.errcode.dataPhase = false) :
    t.dmem = s.dmem := by
  cases h with
  | finish => exact absurd rfl hne
  | write => exact absurd rfl hne
  | raise => rfl
  | raiseData e p he hp => exact absurd (hphase.symm.trans hp) Bool.false_ne_true

/-- Outside the destination region every byte is kept. -/
theorem Completion.dmemOutside : DmemKeptOutside o.dstAddr.toNat o.dstCap.toNat s t := by
  intro x hx
  cases h with
  | finish => rfl
  | write out n _ hfits => exact Memory.read_writeBytes_outside _ _ _ (by omega)
  | raise => rfl
  | raiseData e p => exact State.raiseData_keeps_outside o e p s x hx

end

/-! ### What a command's body leaves in the tables (`30_encoding.md` R91) -/

/-- The state from which a command completes: the one it found, or one in which its body has written its tables. -/
inductive CommandBody : Instr → State → State → Prop
  | start (i : Instr) (s : State) : CommandBody i s s
  | clear (s : State) : CommandBody .fclr s (clearFreq s)
  | count (s : State) (f : Vector Word 256) : CommandBody .fcnt s { s with freq := f }
  | build (s : State) : present s.freq ≠ [] → countSum (present s.freq) < 2 ^ 32 →
      CommandBody .build s (writeTree (present s.freq) s)
  | derive (s : State) (k : Walk) : deriveCodes s.node s.nodeCount s.root = .ok k →
      CommandBody .cgen s (State.setValid true true { s with code := k.code, symCount := BitVec.ofNat 9 k.leaves })
  | badTree (s : State) : CommandBody .cgen s (State.setValid false false { s with code := clearedCode })
  | empty (s : State) : CommandBody .comp s (clearForEmpty s)
  | stages (s t : State) : CompStaged s.operands s t → CommandBody .comp s t

theorem CommandBody.hostSide {i : Instr} {s t : State} (h : CommandBody i s t) : HostSideKept s t := by
  cases h with
  | start => exact HostSideKept.refl s
  | clear => exact clearFreq_hostSide s
  | count _ f => exact withFreq_hostSide s f
  | build => exact writeTree_hostSide _ s
  | derive => constructor <;> rfl
  | badTree => constructor <;> rfl
  | empty => exact clearForEmpty_hostSide s
  | stages _ _ hstaged => exact hstaged.hostSide

theorem CommandBody.dmem {i : Instr} {s t : State} (h : CommandBody i s t) : t.dmem = s.dmem := by
  cases h with
  | stages _ _ hstaged => exact hstaged.dmem
  | _ => rfl

@[simp] theorem writeTree_freq (ps : List (Byte × Word)) (s : State) : (writeTree ps s).freq = s.freq := rfl

@[simp] theorem writeTree_code (ps : List (Byte × Word)) (s : State) : (writeTree ps s).code = s.code := rfl

/-! ### Each command (`30_encoding.md` R90) -/

theorem runFcnt_completion (o : Latched) (s : State) :
    ∃ u, CommandBody .fcnt s u ∧ Completion .fcnt o u (runFcnt o s) := by
  rcases runFcnt_cases o s with ⟨p, -, h⟩ | ⟨j, f, -, -, h⟩ | ⟨f, -, -, h⟩ <;> rw [h]
  · exact ⟨s, .start _ s, .raise _ _ (by decide)⟩
  · exact ⟨_, .count s f, .raise _ _ (by decide)⟩
  · exact ⟨_, .count s f, .finish 0 0⟩

theorem runBuild_completion (o : Latched) (s : State) :
    ∃ u, CommandBody .build s u ∧ Completion .build o u (runBuild s) := by
  by_cases hp : present s.freq = []
  · rw [runBuild_emptyTable hp]
    exact ⟨s, .start _ s, .raise _ _ (by decide)⟩
  cases ho : sumOverflow (present s.freq) 0 with
  | some b =>
    rw [runBuild_sumOvf hp ho]
    exact ⟨s, .start _ s, .raise _ _ (by decide)⟩
  | none =>
    have hsum := countSum_le_of_sumOverflow (by decide) ho
    rw [runBuild_ok hp ho]
    exact ⟨_, .build s hp (by omega), .finish 0 0⟩

theorem runCgen_completion (o : Latched) (s : State) :
    ∃ u, CommandBody .cgen s u ∧ Completion .cgen o u (runCgen s) := by
  cases hd : deriveCodes s.node s.nodeCount s.root with
  | ok k =>
    rw [runCgen_ok hd]
    exact ⟨_, .derive s k hd, .finish 0 0⟩
  | error p =>
    rw [runCgen_error hd]
    exact ⟨_, .badTree s, .raise _ _ (by decide)⟩

theorem encodeSource_completion {o : Latched} {s : State} (hreg : RegionsOk s.dmemSize o o.srcBytes) :
    Completion .enc o s (encodeSource o s) := by
  unfold encodeSource
  split
  · exact .raiseData _ _ (by decide) rfl rfl
  · exact .deliver _ _ rfl (by decide) hreg.dst

theorem runEnc_completion (o : Latched) (s : State) : Completion .enc o s (runEnc o s) := by
  unfold runEnc
  split
  · exact .raise _ _ (by decide)
  next hreg =>
  have hreg := badRegion_eq_none.1 hreg
  split
  · split
    · exact .raise _ _ (by decide)
    · exact .deliver _ _ rfl (by decide) hreg.dst
  split
  · exact .raise _ _ (by decide)
  · exact encodeSource_completion hreg

/-- The walk under a single leaf fails in two ways (`45_decoder.md` R163). -/
theorem walkSingle_error {sym : Byte} {room i p : Nat} {bits : Bits} {e : ErrCode}
    (h : walkSingle sym room i bits = .error (e, p)) : e = .malformed ∨ e = .outOvf := by
  induction bits generalizing room i with
  | nil => rw [walkSingle.eq_def] at h; cases h
  | cons b bs ih =>
    rw [walkSingle.eq_def] at h
    dsimp only at h
    split at h
    · cases h; exact Or.inl rfl
    split at h
    · cases h; exact Or.inr rfl
    · exact ih (emitByte_error.1 h)

/-- So does the walk under an internal root (`45_decoder.md` R161). -/
theorem walkFrom_error {node : Vector Node 511} {r n room i p : Nat} {bits : Bits} {e : ErrCode}
    (h : walkFrom node r n room i bits = .error (e, p)) : e = .malformed ∨ e = .outOvf := by
  induction bits generalizing n room i with
  | nil =>
    by_cases hn : n = r
    · rw [hn, walkFrom_nil_root] at h; cases h
    · rw [walkFrom_nil_ne _ _ hn] at h; cases h; exact Or.inl rfl
  | cons b bs ih =>
    cases hm : (nodeAt node ((nodeAt node n).child b)).internal with
    | true => exact ih (walkFrom_cons_internal room i bs hm ▸ h)
    | false =>
      cases room with
      | zero => rw [walkFrom_cons_full _ _ hm] at h; cases h; exact Or.inr rfl
      | succ room => exact ih (emitByte_error.1 (walkFrom_cons_leaf room i bs hm ▸ h))

theorem walkDecode_error {node : Vector Node 511} {r cap p : Nat} {bits : Bits} {e : ErrCode}
    (h : walkDecode node r cap bits = .error (e, p)) : e = .malformed ∨ e = .outOvf := by
  cases hi : (nodeAt node r).internal with
  | true => exact walkFrom_error (walkDecode_internal cap bits hi ▸ h)
  | false => exact walkSingle_error (walkDecode_single cap bits hi ▸ h)

theorem runDec_completion (o : Latched) (s : State) : Completion .dec o s (runDec o s) := by
  unfold runDec
  split
  · exact .raise _ _ (by decide)
  next hreg =>
  split
  · exact .raiseData _ _ (by decide) rfl rfl
  split
  · exact .finish 0 0
  split
  · exact .raise _ _ (by decide)
  split
  · next e p hw =>
    rcases walkDecode_error hw with rfl | rfl
    · exact .raiseData _ _ (by decide) rfl rfl
    · exact .raiseData _ _ (by decide) rfl rfl
  · exact .deliver _ _ rfl (by decide) (badRegion_eq_none.1 hreg).dst

theorem runPack_completion (o : Latched) (s : State) : Completion .pack o s (runPack o s) := by
  unfold runPack
  split
  · exact .raise _ _ (by decide)
  next hreg => exact .deliver _ _ rfl (by decide) (badRegion_eq_none.1 hreg).dst

theorem runUnpk_completion (o : Latched) (s : State) : Completion .unpk o s (runUnpk o s) := by
  unfold runUnpk
  split
  · exact .raise _ _ (by decide)
  next hreg =>
  split
  · exact .raiseData _ _ (by decide) rfl rfl
  · exact .deliver _ _ rfl (by decide) (badRegion_eq_none.1 hreg).dst

theorem CompStaged.dmemSize {o : Latched} {s t : State} (h : CompStaged o s t) : t.dmemSize = s.dmemSize :=
  congrArg (fun e : Fin 9 => 2 ^ (8 + e.val)) h.hostSide.dmemExp

theorem runComp_completion (s : State) :
    ∃ u, CommandBody .comp s u ∧ Completion .comp s.operands u (runComp s.operands s) := by
  rcases runComp_cases s.operands s with ⟨p, -, h⟩ | ⟨-, h⟩ | ⟨hreg, -, h⟩ | ⟨hreg, -, t, hstaged, h⟩ <;> rw [h]
  · exact ⟨s, .start _ s, .raise _ _ (by decide)⟩
  · exact ⟨s, .start _ s, .raise _ _ (by decide)⟩
  · exact ⟨_, .empty s, .deliver _ _ rfl (by decide) hreg.dst⟩
  · exact ⟨t, .stages s t hstaged, .deliver _ _ rfl (by decide) (hstaged.dmemSize ▸ hreg.dst)⟩

/-- Everything a command can do. -/
theorem exec_cases {i : Instr} {s t : State} (h : exec i s = .next t) :
    ∃ u, CommandBody i s u ∧ Completion i s.operands u t := by
  cases i <;> cases h
  case fclr => exact ⟨_, .clear s, .finish 0 0⟩
  case fcnt => exact runFcnt_completion s.operands s
  case build => exact runBuild_completion s.operands s
  case cgen => exact runCgen_completion s.operands s
  case enc => exact ⟨s, .start _ s, runEnc_completion s.operands s⟩
  case dec => exact ⟨s, .start _ s, runDec_completion s.operands s⟩
  case pack => exact ⟨s, .start _ s, runPack_completion s.operands s⟩
  case unpk => exact ⟨s, .start _ s, runUnpk_completion s.operands s⟩
  case comp => exact runComp_completion s

theorem exec_hostSide {i : Instr} {s t : State} (h : exec i s = .next t) : HostSideKept s t := by
  obtain ⟨u, hbody, hcomp⟩ := exec_cases h
  exact hbody.hostSide.trans hcomp.hostSide

/-! ### The statements about all commands -/

/-- Settles O7: every completion fills the completion fields, and neither it nor a command's body touches the host's side. -/
theorem everyCommandCompletes : Obligations.EveryCommandCompletes := by
  intro i s
  obtain ⟨t, h⟩ := exec_next i s
  obtain ⟨u, -, hcomp⟩ := exec_cases h
  refine ⟨t, h, exec_hostSide h, hcomp.fields.imp_right ?_⟩
  rintro ⟨e, p, he, hfields⟩
  exact ⟨e, p, ne_none_of_mem_commandErrors he, hfields⟩

/-- Settles O25: a command's body writes its tables, and its completion only the destination region. -/
theorem commandsWriteOnlyTheirWriteSet : Obligations.CommandsWriteOnlyTheirWriteSet := by
  intro i s t h
  obtain ⟨u, hbody, hcomp⟩ := exec_cases h
  obtain ⟨hnode, hcount, hroot, hsym, hcode, htv, hct⟩ := hcomp.tree
  refine ⟨exec_hostSide h, ?_, ?_, ?_, ?_, ?_, fun x hx => ?_⟩
  · rw [hcomp.freq]
    cases hbody <;> simp
  · rw [hnode, hcount, hroot]
    cases hbody <;> simp
  · rw [hcode]
    cases hbody <;> simp
  · rw [hsym, htv, hct]
    cases hbody <;> simp
  · intro hi
    rw [hcomp.dmem_of_not_dst (by rcases hi with rfl | rfl | rfl | rfl <;> rfl), hbody.dmem]
  · rw [hcomp.dmemOutside x hx, hbody.dmem]

theorem dataPhase_eq_false {e : ErrCode} (hnoCode : e ≠ .noCode) (hmalformed : e ≠ .malformed) (hovf : e ≠ .outOvf) :
    e.dataPhase = false := by
  cases e
  case noCode => exact absurd rfl hnoCode
  case malformed => exact absurd rfl hmalformed
  case outOvf => exact absurd rfl hovf
  all_goals rfl

/-- Settles O26: the error code of a completion is NONE or one of the command's. -/
theorem errorsAreThoseOfTheCommand : Obligations.ErrorsAreThoseOfTheCommand := by
  intro i s t h
  obtain ⟨u, hbody, hcomp⟩ := exec_cases h
  have hcode : t.status.errcode ∈ ErrCode.none :: commandErrors i := by
    rcases hcomp.fields with ⟨n, b, hok⟩ | ⟨e, p, he, herr⟩
    · rw [hok.errcode]
      exact List.mem_cons_self
    · rw [herr.errcode]
      exact List.mem_cons_of_mem _ he
  refine ⟨?_, fun hne hnoCode hmalformed hovf => ?_⟩
  · cases i
    case fclr => exact List.mem_singleton.1 hcode
    all_goals exact hcode
  · rw [hcomp.dmem_of_error hne (dataPhase_eq_false hnoCode hmalformed hovf), hbody.dmem]

/-- A command that reads regions ends in BAD_REGION when its check fails. -/
theorem exec_badRegion {i : Instr} {s : State} {p : Nat} (hi : i ∈ [Instr.enc, .dec, .pack, .unpk, .comp])
    (h : badRegion s.dmemSize s.operands (if i = .pack then s.operands.packSrcBytes else s.operands.srcBytes) = some p) :
    exec i s = .next (s.raise .badRegion p) := by
  simp only [List.mem_cons, List.not_mem_nil, or_false] at hi
  rcases hi with rfl | rfl | rfl | rfl | rfl
  · exact (exec_enc s).trans (congrArg _ (runEnc_badRegion h))
  · exact (exec_dec s).trans (congrArg _ (runDec_badRegion h))
  · exact (exec_pack s).trans (congrArg _ (runPack_badRegion h))
  · exact (exec_unpk s).trans (congrArg _ (runUnpk_badRegion h))
  · exact (exec_comp s).trans (congrArg _ (runComp_badRegion h))

theorem runFcnt_badRegion {o : Latched} {s : State} (h : o.srcAddr.toNat + o.srcBytes > s.dmemSize) :
    runFcnt o s = s.raise .badRegion 1 := by
  simp [runFcnt, badSrcRegion_eq_some.2 ⟨rfl, h⟩]

/-- Settles O24: the region check is the first thing a command does, and raises before anything is written. -/
theorem badRegionChangesNothing : Obligations.BadRegionChangesNothing := by
  intro s i hi o n src dst both p hp
  have hraise : exec i s = .next (s.raise .badRegion p) := by
    by_cases hfcnt : i = .fcnt
    · subst hfcnt
      obtain ⟨rfl, hsrc⟩ : p = 1 ∧ src := by simpa using hp
      exact (exec_fcnt s).trans (congrArg _ (runFcnt_badRegion hsrc))
    · refine exec_badRegion (by simpa [hfcnt] using hi) ?_
      have hn : (if i = .pack then s.operands.packSrcBytes else s.operands.srcBytes) = n := rfl
      rw [hn, badRegion_eq_some]
      rcases hp with ⟨rfl, h⟩ | ⟨rfl, -, h⟩ | ⟨rfl, -, h⟩
      · exact Or.inl ⟨rfl, h⟩
      · exact Or.inr (Or.inl ⟨rfl, h⟩)
      · exact Or.inr (Or.inr ⟨rfl, h⟩)
  obtain ⟨herr, hdmem, hhost, htree, hfreq⟩ := State.raise_spec .badRegion p s
  exact ⟨_, hraise, herr, hhost, htree, hfreq, hdmem⟩

/-- Settles O16: `irq` reads DONE, ERR and their two enables, which a completion, an acceptance and an acknowledge set. -/
theorem irqFollowsDoneAndErr : Obligations.IrqFollowsDoneAndErr := by
  refine ⟨fun s => by simp [State.irq], fun i s t h => ?_,
    fun s w => ⟨by simp [State.irq], by simp [State.irq, State.ackStatus]⟩, fun s => ⟨rfl, rfl⟩⟩
  obtain ⟨u, -, hcomp⟩ := exec_cases h
  have hdone : t.status.done = true := by
    rcases hcomp.fields with ⟨n, b, hok⟩ | ⟨e, p, -, herr⟩
    · exact hok.done
    · exact herr.done
  rw [State.irq, hdone, Bool.true_and, (exec_hostSide h).ctrl]

end Sys2Proof.Machine
end

section
/-! SUPPORT. What every event from outside can do, said once, and with it everything a step can do (`20_memory.md` R74). The
invariants that every step keeps follow, and what holds of every step. -/

namespace Sys2Proof.Machine

/-! ### Addresses (`20_memory.md` R61) -/

/-- Address bits 1:0 are dropped (`20_memory.md` R61). -/
theorem wordOffset_eq (a : BitVec 17) : wordOffset a = 4 * (a.toNat / 4) := by
  have hmask : a &&& 0x1FFFC#17 = (a >>> 2) <<< 2 := by
    apply BitVec.eq_of_getLsbD_eq
    intro i hi
    simp only [BitVec.getLsbD_and, BitVec.getLsbD_shiftLeft, BitVec.getLsbD_ushiftRight]
    interval_cases i <;> simp
  have hlt := a.isLt
  rw [wordOffset, hmask, BitVec.toNat_shiftLeft, BitVec.toNat_ushiftRight, Nat.shiftLeft_eq, Nat.shiftRight_eq_div_pow,
    Nat.mod_eq_of_lt (by omega)]
  omega

/-- A DMEM target is a whole word inside DMEM. -/
theorem State.target_dmem {s : State} {a : BitVec 17} {w : Nat} (h : s.target a = .dmem w) : w + 4 ≤ s.dmemSize := by
  obtain ⟨n, hn⟩ := s.four_dvd_dmemSize
  have hoff := wordOffset_eq a
  unfold State.target targetAt at h
  split at h
  · split at h <;> cases h
  split at h
  · cases h
  split at h
  · split at h <;> cases h
  split at h
  · cases h
  split at h
  · rw [Target.dmem.injEq] at h
    omega
  · cases h

/-! ### One event from outside (`20_memory.md` R74) -/

/-- The words whose write clears both validity bits: NODE, NODE_COUNT and ROOT (`10_state.md` R27). -/
def Loc.IsTree (l : Loc) : Prop :=
  (∃ i, l = .nodeCtl i) ∨ (∃ i, l = .nodeFreq i) ∨ l = .reg .nodeCount ∨ l = .reg .root

/-- What each event can do to the state from which it has been taken. -/
inductive HostEffect (s : State) : Input → State → Prop
  | nothing (e : Input) : HostEffect s e s
  | read (e : Input) (v : Word) : HostEffect s e { s with prdata := v }
  | readRefused (a : BitVec 17) : HostEffect s (.read a) { s.accessError with prdata := 0 }
  | refused (a : BitVec 17) (strb : BitVec 4) (d : Word) : HostEffect s (.write a strb d) s.accessError
  | overrun (a : BitVec 17) (d : Word) : HostEffect s (.write a 0xF#4 d) s.commandOverrun
  | accept (a : BitVec 17) (d : Word) : s.inReset = false → s.busy = false → HostEffect s (.write a 0xF#4 d) (s.accept d)
  | ack (a : BitVec 17) (d : Word) : HostEffect s (.write a 0xF#4 d) (s.ackStatus d)
  | registers (a : BitVec 17) (d : Word) (c : Ctrl) (srcAddr srcLen dstAddr dstCap : Word) (ctSel : BitVec 8) :
      HostEffect s (.write a 0xF#4 d)
        { s with ctrl := c, srcAddr := srcAddr, srcLen := srcLen, dstAddr := dstAddr, dstCap := dstCap, ctSel := ctSel }
  | freq (a : BitVec 17) (d : Word) (i : Fin 256) : s.busy = false →
      HostEffect s (.write a 0xF#4 d) { s with freq := s.freq.set i d }
  | tree (a : BitVec 17) (d : Word) (l : Loc) (node : Vector Node 511) (count : BitVec 10) (root : BitVec 9) :
      s.busy = false → s.target a = .loc l → l.IsTree →
      HostEffect s (.write a 0xF#4 d) (State.setValid false false { s with node := node, nodeCount := count, root := root })
  | dmem (a : BitVec 17) (strb : BitVec 4) (d : Word) (w : Nat) : s.busy = false → s.target a = .dmem w →
      HostEffect s (.write a strb d) { s with dmem := s.dmem.writeLanes w strb d }
  | softReset (a : BitVec 17) (d : Word) : s.target a = .loc (.reg .ctrl) → d.getLsbD 31 = true →
      HostEffect s (.write a 0xF#4 d) s.softReset
  | hardReset (level : Bool) : HostEffect s (.rstn level) { s.hardReset with inReset := !level }

section
variable {s : State} {a : BitVec 17}

theorem setRstn_effect (s : State) (level : Bool) : HostEffect s (.rstn level) (s.setRstn level) := by
  cases level with
  | false => exact .hardReset false
  | true =>
    rw [State.setRstn, if_pos rfl]
    split
    · exact .hardReset true
    · exact .nothing _

theorem hostRead_effect (s : State) (a : BitVec 17) : HostEffect s (.read a) (s.hostRead a) := by
  unfold State.hostRead
  dsimp only
  split
  · exact .readRefused a
  · exact .read _ _

/-- An accepted write to a register (`10_state.md` R22 to R38). -/
theorem writeReg_effect {r : Reg} (d : Word) (h0 : s.inReset = false) (ht : s.target a = .loc (.reg r))
    (hu : s.busy = false ∨ r.locked = false) : HostEffect s (.write a 0xF#4 d) (writeReg r d s) := by
  cases r with
  | ctrl =>
    rw [writeReg, State.writeCtrl]
    split
    · next h31 => exact .softReset a d ht h31
    · exact .registers a d (Ctrl.ofWord d) s.srcAddr s.srcLen s.dstAddr s.dstCap s.ctSel
  | status => exact .ack a d
  | cmd =>
    rw [writeReg, State.writeCmd]
    split
    · exact .overrun a d
    · next hb => exact .accept a d h0 (by simpa using hb)
  | srcAddr => exact .registers a d s.ctrl d s.srcLen s.dstAddr s.dstCap s.ctSel
  | srcLen => exact .registers a d s.ctrl s.srcAddr d s.dstAddr s.dstCap s.ctSel
  | dstAddr => exact .registers a d s.ctrl s.srcAddr s.srcLen d s.dstCap s.ctSel
  | dstCap => exact .registers a d s.ctrl s.srcAddr s.srcLen s.dstAddr d s.ctSel
  | ctSel => exact .registers a d s.ctrl s.srcAddr s.srcLen s.dstAddr s.dstCap (d.extractLsb' 0 8)
  | nodeCount =>
    exact .tree a d _ s.node (d.extractLsb' 0 10) s.root (hu.resolve_right (by decide)) ht (Or.inr (Or.inr (Or.inl rfl)))
  | root =>
    exact .tree a d _ s.node s.nodeCount (d.extractLsb' 0 9) (hu.resolve_right (by decide)) ht
      (Or.inr (Or.inr (Or.inr rfl)))
  | id => exact .nothing _
  | version => exact .nothing _
  | dmemsz => exact .nothing _
  | resLen => exact .nothing _
  | resBits => exact .nothing _
  | errPos => exact .nothing _
  | symCount => exact .nothing _
  | ctLen => exact .nothing _
  | ctBits => exact .nothing _

theorem writeLoc_effect {l : Loc} (d : Word) (h0 : s.inReset = false) (ht : s.target a = .loc l)
    (hu : s.busy = false ∨ l.locked = false) : HostEffect s (.write a 0xF#4 d) (writeLoc l d s) := by
  cases l with
  | reg r => exact writeReg_effect d h0 ht hu
  | freq i => exact .freq a d i (hu.resolve_right Bool.true_eq_false.mp)
  | nodeCtl i =>
    exact .tree a d _ _ s.nodeCount s.root (hu.resolve_right Bool.true_eq_false.mp) ht (Or.inl ⟨i, rfl⟩)
  | nodeFreq i =>
    exact .tree a d _ _ s.nodeCount s.root (hu.resolve_right Bool.true_eq_false.mp) ht (Or.inr (Or.inl ⟨i, rfl⟩))

theorem hostWrite_effect (strb : BitVec 4) (d : Word) (h0 : s.inReset = false) :
    HostEffect s (.write a strb d) (s.hostWrite a strb d) := by
  cases ht : s.target a with
  | reserved =>
    rw [State.hostWrite_reserved strb d ht]
    exact .nothing _
  | dmem w =>
    cases hb : s.busy with
    | true =>
      rw [State.hostWrite_locked strb d hb (by rw [ht]; rfl)]
      exact .refused a strb d
    | false =>
      rw [State.hostWrite_dmem strb d ht hb]
      exact .dmem a strb d w hb ht
  | loc l =>
    by_cases hs : strb = 0xF#4
    · subst hs
      rw [State.hostWrite_full d ht]
      split
      · exact .refused a _ d
      · next hu => exact writeLoc_effect d h0 ht (by simpa [or_iff_not_imp_left] using hu)
    · rw [State.hostWrite_partial d ht hs]
      exact .refused a strb d

/-- Everything an event from outside can do, in reset or out of it. -/
theorem applyInput_effect (s : State) (e : Input) : HostEffect s e (s.applyInput e) := by
  cases h0 : s.inReset with
  | true =>
    have heq : s.applyInput e = s.ignoredInput e := if_pos h0
    rw [heq]
    cases e with
    | read a => exact .read _ 0
    | write a strb d => exact .nothing _
    | engine => exact .nothing _
    | rstn level => exact setRstn_effect s level
  | false =>
    cases e with
    | read a => simpa [State.applyInput, h0] using hostRead_effect s a
    | write a strb d => simpa [State.applyInput, h0] using hostWrite_effect strb d h0
    | engine => simpa [State.applyInput, h0] using HostEffect.nothing (s := s) .engine
    | rstn level => simpa [State.applyInput, h0] using setRstn_effect s level

end

/-! ### One step (`20_memory.md` R74) -/

/-- Everything a step that is no completion can do. -/
theorem nextEvent_cases (s : State) :
    s.nextEvent = s.popInput ∨ ∃ e, s.inputs.head? = some e ∧ HostEffect s.popInput e s.nextEvent := by
  cases h : s.inputs with
  | nil =>
    left
    have htail : s.inputs.tail = s.inputs := by rw [h]; rfl
    rw [State.nextEvent, h, State.popInput, htail]
  | cons e rest =>
    right
    have hpop : s.popInput = { s with inputs := rest } := by rw [State.popInput, h]; rfl
    refine ⟨e, rfl, ?_⟩
    rw [hpop, State.nextEvent, h]
    exact applyInput_effect _ e

/-- What the taking of an event, every command, a bad command word and every event from outside keep, every step keeps. -/
theorem step_keeps {P : State → Prop} (hpop : ∀ s, P s → P s.popInput)
    (hexec : ∀ i s t, P s → exec i s = .next t → P t) (hbad : ∀ w s, P s → P (badCommand w s))
    (hhost : ∀ s e t, P s → HostEffect s e t → P t) {s t : State} (hs : P s) (h : step s = .next t) : P t := by
  rcases step_cases h with ⟨w, i, -, -, h⟩ | ⟨w, why, -, -, rfl⟩ | ⟨-, rfl⟩
  · exact hexec i _ t (hpop s hs) h
  · exact hbad w _ (hpop s hs)
  · rcases nextEvent_cases s with h | ⟨e, -, h⟩
    · exact h ▸ hpop s hs
    · exact hhost _ e _ (hpop s hs) h

/-! ### The invariant of the state (`10_state.md` R43, `60_exceptions.md` R171, R172) -/

/-- What the invariant says of the memories. -/
structure MemoriesInv (s : State) : Prop where
  dmemWf : s.dmem.wf
  dmemRange : ∀ c ∈ s.dmem, c.1 < s.dmemSize
  codeLen : ∀ b, (codeAt s.code b).length ≤ 255

theorem State.Inv.memories {s : State} (h : s.Inv) : MemoriesInv s := ⟨h.dmemWf, h.dmemRange, h.codeLen⟩

theorem codeAt_drawnCode_length_le (e : Nat) (b : Byte) : (codeAt (drawnCode e) b).length ≤ 255 := by
  rw [codeAt, drawnCode, Vector.getElem_ofFn]
  exact List.length_take_le _ _

section
variable {s : State} (h : MemoriesInv s)
include h

/-- Bytes inside DMEM may be written. -/
theorem MemoriesInv.writeBytes {a : Nat} {vs : List Byte} (ha : vs = [] ∨ a + vs.length ≤ s.dmemSize) :
    MemoriesInv { s with dmem := s.dmem.writeBytes a vs } where
  dmemWf := Memory.writeBytes_wf h.dmemWf a vs
  dmemRange c hc := by
    rcases ha with rfl | ha
    · exact h.dmemRange c hc
    rcases Memory.mem_writeBytes hc with hc | hc
    · exact Nat.lt_of_lt_of_le hc.2 ha
    · exact h.dmemRange c hc
  codeLen := h.codeLen

theorem MemoriesInv.drawDst (o : Latched) : MemoriesInv (s.drawDst o) := by
  obtain ⟨hwf, hrange, hlen⟩ := h.writeBytes (a := o.dstAddr.toNat)
    (vs := (List.range (min o.dstCap.toNat (s.dmemSize - o.dstAddr.toNat))).map
      fun i => Config.freeByte s.draws (o.dstAddr.toNat + i)) (by
    rcases Nat.lt_or_ge o.dstAddr.toNat s.dmemSize with hlt | hge
    · right
      rw [List.length_map, List.length_range]
      omega
    · left
      rw [Nat.sub_eq_zero_of_le hge, Nat.min_zero]
      rfl)
  exact ⟨hwf, hrange, hlen⟩

theorem MemoriesInv.finish (n b : Nat) (ht : s.status.ctValid = true → s.status.treeValid = true) :
    (s.finish n b).Inv :=
  ⟨h.dmemWf, h.dmemRange, h.codeLen, fun _ => rfl, nofun, nofun, fun hne => absurd rfl hne, fun _ _ => rfl, ht⟩

theorem MemoriesInv.raise {e : ErrCode} (p : Nat) (he : e ≠ .none)
    (ht : s.status.ctValid = true → s.status.treeValid = true) : (s.raise e p).Inv :=
  ⟨h.dmemWf, h.dmemRange, h.codeLen, fun _ => rfl, nofun, fun _ => he, fun _ => ⟨rfl, rfl⟩,
    fun _ hnone => absurd hnone he, ht⟩

theorem MemoriesInv.completion {i : Instr} {o : Latched} {t : State} (hcomp : Completion i o s t)
    (ht : s.status.ctValid = true → s.status.treeValid = true) : t.Inv := by
  cases hcomp with
  | finish n b => exact h.finish n b ht
  | write out n _ hfits hreg => exact (h.writeBytes (Or.inr (by omega))).finish _ _ ht
  | raise e p he => exact h.raise p (ne_none_of_mem_commandErrors he) ht
  | raiseData e p he => exact (h.drawDst o).raise p (ne_none_of_mem_commandErrors he) ht

theorem MemoriesInv.abandon : MemoriesInv s.abandon := by
  unfold State.abandon
  split
  · next l _ =>
    obtain ⟨hwf, hrange, -⟩ := h.drawDst l
    refine ⟨?_, ?_, fun b => ?_⟩
    · change Memory.wf (if _ then _ else _)
      split
      · exact hwf
      · exact h.dmemWf
    · change ∀ c ∈ (if (wordWriteSet l.word).dst = true then (s.drawDst l).dmem else s.dmem), c.1 < s.dmemSize
      split
      · exact hrange
      · exact h.dmemRange
    · change (codeAt (if _ then _ else _) b).length ≤ 255
      split
      · exact codeAt_drawnCode_length_le _ b
      · exact h.codeLen b
  · exact h

/-- The registers at their reset values meet the invariant, in reset or out of it. -/
theorem MemoriesInv.resetRegisters (prdata : Word) (inReset : Bool) :
    State.Inv { s.resetRegisters with prdata := prdata, inReset := inReset } :=
  ⟨h.dmemWf, h.dmemRange, h.codeLen, fun _ => rfl, nofun, nofun, fun hne => absurd rfl hne, fun _ _ => rfl, nofun⟩

end

theorem State.drawMemories_dmem (s : State) : s.drawMemories.dmem = Memory.drawBytes [] s.draws 0 s.dmemSize := by
  rw [State.drawMemories]

theorem State.drawMemories_dmemSize (s : State) : s.drawMemories.dmemSize = s.dmemSize := by
  simp only [State.drawMemories, State.dmemSize]

theorem State.drawMemories_code (s : State) : s.drawMemories.code = drawnCode s.draws := by
  rw [State.drawMemories]

theorem drawMemories_inv (s : State) : MemoriesInv s.drawMemories where
  dmemWf := by
    rw [s.drawMemories_dmem]
    exact Memory.drawBytes_wf ⟨List.Pairwise.nil, nofun⟩ _ _ _
  dmemRange c hc := by
    rw [s.drawMemories_dmem] at hc
    rw [s.drawMemories_dmemSize]
    rcases Memory.mem_drawBytes hc with hc | hc
    · omega
    · cases hc
  codeLen b := by
    rw [s.drawMemories_code]
    exact codeAt_drawnCode_length_le _ b

theorem hardReset_inv (s : State) (inReset : Bool) : State.Inv { s.hardReset with inReset := inReset } := by
  have h := (drawMemories_inv s).resetRegisters 0 inReset
  simp only [State.hardReset]
  exact h

theorem CommandBody.memories {i : Instr} {s t : State} (hbody : CommandBody i s t) (h : MemoriesInv s) :
    MemoriesInv t := by
  have hsize : t.dmemSize = s.dmemSize := congrArg (fun e : Fin 9 => 2 ^ (8 + e.val)) hbody.hostSide.dmemExp
  refine ⟨hbody.dmem ▸ h.dmemWf, hsize ▸ hbody.dmem ▸ h.dmemRange, fun b => ?_⟩
  cases hbody with
  | derive _ k hk => exact codeAt_length_le_of_deriveCodes hk b
  | badTree =>
    change (codeAt clearedCode b).length ≤ 255
    simp [codeAt_clearedCode]
  | empty => simp [codeAt_clearedCode]
  | stages _ _ hstaged => exact hstaged.code_length_le b
  | _ => exact h.codeLen b

theorem CommandBody.tableHasTree {i : Instr} {s t : State} (hbody : CommandBody i s t)
    (h : s.status.ctValid = true → s.status.treeValid = true) : t.status.ctValid = true → t.status.treeValid = true := by
  cases hbody with
  | build => exact fun _ => rfl
  | derive => exact fun _ => rfl
  | badTree => exact nofun
  | empty => exact nofun
  | stages _ _ hstaged => exact fun _ => hstaged.valid
  | _ => exact h

theorem HostEffect.inv {s t : State} {e : Input} (heffect : HostEffect s e t) (h : s.Inv) : t.Inv := by
  obtain ⟨hwf, hrange, hlen, hidle, hclear, herr, hres, hpos, htable⟩ := id h
  cases heffect with
  | nothing => exact h
  | read | readRefused | refused | overrun | registers | freq =>
    exact ⟨hwf, hrange, hlen, hidle, hclear, herr, hres, hpos, htable⟩
  | accept a d h0 =>
    exact ⟨hwf, hrange, hlen, fun hr => absurd (h0.symm.trans hr) Bool.false_ne_true, fun _ => ⟨rfl, rfl, rfl⟩, nofun,
      fun hne => absurd rfl hne, nofun, htable⟩
  | ack a d =>
    refine ⟨hwf, hrange, hlen, hidle, fun hb => ?_, fun he => herr (Bool.and_eq_true_iff.1 he).1, hres, hpos, htable⟩
    obtain ⟨hd, he, hc⟩ := hclear hb
    exact ⟨by simp [State.ackStatus, hd], by simp [State.ackStatus, he], hc⟩
  | tree => exact ⟨hwf, hrange, hlen, hidle, hclear, herr, hres, hpos, nofun⟩
  | dmem a strb d w _ ht =>
    refine ⟨Memory.writeLanes_wf hwf w strb d, fun c hc => ?_, hlen, hidle, hclear, herr, hres, hpos, htable⟩
    have hw := State.target_dmem ht
    rcases Memory.mem_writeLanes hc with hc | hc
    · exact Nat.lt_of_lt_of_le hc.2 hw
    · exact hrange c hc
  | softReset => exact h.memories.abandon.resetRegisters _ _
  | hardReset level => exact hardReset_inv s (!level)

/-- Settles O56: each command's body and completion, and each event from outside, keep the invariant. -/
theorem stepKeepsTheStateInvariant : Obligations.StepKeepsTheStateInvariant := by
  intro s t hs h
  refine step_keeps (P := State.Inv) (fun s hs => ?_) (fun i s t hs h => ?_) (fun w s hs => ?_)
    (fun s e t hs heffect => heffect.inv hs) hs h
  · obtain ⟨hwf, hrange, hlen, hidle, hclear, herr, hres, hpos, htable⟩ := hs
    exact ⟨hwf, hrange, hlen, hidle, hclear, herr, hres, hpos, htable⟩
  · obtain ⟨u, hbody, hcomp⟩ := exec_cases h
    exact (hbody.memories hs.memories).completion hcomp (hbody.tableHasTree hs.tableHasTree)
  · exact hs.memories.raise w.toNat (by decide) hs.tableHasTree

/-! ### The meaning of the validity bits (`10_state.md` R27) -/

theorem State.TableSound.of_kept {s t : State} (h : s.TableSound) (hkept : TreeKept s t) : t.TableSound := by
  obtain ⟨hnode, hcount, hroot, hsym, hcode, -, hct⟩ := hkept
  rwa [State.TableSound, hnode, hcount, hroot, hsym, hcode, hct]

theorem State.TreeSound.of_kept {s t : State} (h : s.TreeSound) (hkept : TreeKept s t) : t.TreeSound := by
  obtain ⟨hnode, hcount, hroot, -, -, htv, -⟩ := hkept
  rwa [State.TreeSound, hnode, hcount, hroot, htv]

/-- An event from outside keeps the tree and the code table with their validity bits, or clears both bits and is one of the
events of `10_state.md` R27 that do so. -/
theorem HostEffect.tree_cases {s t : State} {e : Input} (h : HostEffect s e t) :
    TreeKept s t ∨ t.status.treeValid = false ∧ t.status.ctValid = false ∧
      ((∃ a d l, e = .write a 0xF#4 d ∧ s.target a = .loc l ∧ (l.IsTree ∨ l = .reg .ctrl ∧ d.getLsbD 31 = true)) ∨
        ∃ level, e = .rstn level) := by
  cases h with
  | tree a d l _ _ _ _ ht hl => exact Or.inr ⟨rfl, rfl, Or.inl ⟨a, d, l, rfl, ht, Or.inl hl⟩⟩
  | softReset a d ht h31 => exact Or.inr ⟨rfl, rfl, Or.inl ⟨a, d, _, rfl, ht, Or.inr ⟨rfl, h31⟩⟩⟩
  | hardReset level => exact Or.inr ⟨rfl, rfl, Or.inr ⟨level, rfl⟩⟩
  | _ => left; constructor <;> rfl

/-- Settles O58: CGEN and the stages of COMP leave the derived table, and whatever else changes the tree or the table clears
CT_VALID. -/
theorem stepKeepsTheCodeTableSound : Obligations.StepKeepsTheCodeTableSound := by
  intro s t hs h
  refine step_keeps (P := State.TableSound) (fun s hs => hs) (fun i s t hs h => ?_) (fun w s hs => hs)
    (fun s e t hs heffect => ?_) hs h
  · obtain ⟨u, hbody, hcomp⟩ := exec_cases h
    refine State.TableSound.of_kept ?_ hcomp.tree
    cases hbody with
    | build => exact nofun
    | derive _ k hk => exact fun _ => ⟨k, hk, rfl, rfl⟩
    | badTree => exact nofun
    | empty => exact nofun
    | stages _ _ hstaged => exact hstaged.tableSound
    | _ => exact hs
  · rcases heffect.tree_cases with hkept | ⟨-, hct, -⟩
    · exact hs.of_kept hkept
    · exact fun hct' => absurd (hct.symm.trans hct') Bool.false_ne_true

/-- Settles O59: BUILD writes a valid tree, CGEN and the stages of COMP have checked theirs, and whatever else changes the tree
clears TREE_VALID. -/
theorem stepKeepsTheTreeSound : Obligations.StepKeepsTheTreeSound := by
  intro s t hs h
  refine step_keeps (P := State.TreeSound) (fun s hs => hs) (fun i s t hs h => ?_) (fun w s hs => hs)
    (fun s e t hs heffect => ?_) hs h
  · obtain ⟨u, hbody, hcomp⟩ := exec_cases h
    refine State.TreeSound.of_kept ?_ hcomp.tree
    cases hbody with
    | build _ hne hsum => exact fun _ => validTree_writeTree hne hsum
    | derive _ k hk => exact fun _ => validTree_of_deriveCodes hk
    | badTree => exact nofun
    | empty => exact nofun
    | stages _ _ hstaged => exact fun _ => hstaged.validTree
    | _ => exact hs
  · rcases heffect.tree_cases with hkept | ⟨htv, -⟩
    · exact hs.of_kept hkept
    · exact fun htv' => absurd (htv.symm.trans htv') Bool.false_ne_true

/-- Settles O57: after reset every memory is zero and both validity bits are 0. -/
theorem resetMeetsTheInvariants : Obligations.ResetMeetsTheInvariants := by
  have hmem : MemoriesInv State.reset :=
    ⟨⟨List.Pairwise.nil, nofun⟩, nofun, fun b => (congrArg List.length (codeAt_clearedCode b)).trans_le (Nat.zero_le _)⟩
  exact ⟨hmem.resetRegisters 0 false, nofun, nofun⟩

/-! ### Atomicity and liveness (`20_memory.md` R71, `70_reset_and_hazards.md` R200) -/

theorem exec_engine {i : Instr} {s t : State} (h : exec i s = .next t) : t.engine = Option.none := by
  obtain ⟨u, -, hcomp⟩ := exec_cases h
  exact hcomp.engine

/-- What an event from outside leaves of a running command's machine, if the command still runs. -/
theorem HostEffect.busy_frame {s t : State} {e : Input} (h : HostEffect s e t) (hs : s.busy = true) (ht : t.busy = true) :
    t.freq = s.freq ∧ t.dmem = s.dmem ∧ TreeKept s t ∧ ResultsKept s t ∧ t.engine = s.engine := by
  cases h with
  | accept _ _ _ hb | freq _ _ _ hb | tree _ _ _ _ _ _ hb | dmem _ _ _ _ hb => rw [hs] at hb; cases hb
  | softReset | hardReset => cases ht
  | _ => exact ⟨rfl, rfl, ⟨rfl, rfl, rfl, rfl, rfl, rfl, rfl⟩, ⟨rfl, rfl, rfl⟩, rfl⟩

/-- Settles O18: a completion leaves the engine idle, and no event from outside reaches a running command's memories. -/
theorem runningCommandShowsNoPartialEffect : Obligations.RunningCommandShowsNoPartialEffect := by
  intro s t h hs ht
  rcases step_cases h with ⟨w, i, -, -, h⟩ | ⟨w, why, -, -, rfl⟩ | ⟨-, rfl⟩
  · rw [State.busy, exec_engine h] at ht
    cases ht
  · cases ht
  · rcases nextEvent_cases s with h | ⟨e, -, h⟩
    · rw [h]
      exact ⟨rfl, rfl, ⟨rfl, rfl, rfl, rfl, rfl, rfl, rfl⟩, ⟨rfl, rfl, rfl⟩, rfl⟩
    · obtain ⟨hfreq, hdmem, ⟨hnode, hcount, hroot, hsym, hcode, htv, hct⟩, ⟨hlen, hbits, hpos⟩, hengine⟩ :=
        h.busy_frame hs ht
      exact ⟨hfreq, hdmem, ⟨hnode, hcount, hroot, hsym, hcode, htv, hct⟩, ⟨hlen, hbits, hpos⟩, hengine⟩

@[simp] theorem State.abandon_inputs (s : State) : s.abandon.inputs = s.inputs := by
  unfold State.abandon
  split <;> rfl

theorem State.hardReset_inputs (s : State) : s.hardReset.inputs = s.inputs := by
  rw [State.hardReset, State.resetRegisters, State.drawMemories]

theorem HostEffect.inputs {s t : State} {e : Input} (h : HostEffect s e t) : t.inputs = s.inputs := by
  cases h with
  | softReset => exact s.abandon_inputs
  | hardReset => simp only [State.hardReset_inputs]
  | _ => rfl

/-- A step takes one event off the list. -/
theorem step_inputs {s t : State} (h : step s = .next t) : t.inputs = s.inputs.tail := by
  rcases step_cases h with ⟨w, i, -, -, h⟩ | ⟨w, why, -, -, rfl⟩ | ⟨-, rfl⟩
  · exact (exec_hostSide h).inputs
  · rfl
  · rcases nextEvent_cases s with h | ⟨e, -, h⟩
    · rw [h]
      rfl
    · exact h.inputs

/-- The engine is idle while `rst_n` is low (`70_reset_and_hazards.md` R191). -/
def State.ResetIdle (s : State) : Prop := s.inReset = true → s.engine = Option.none

theorem HostEffect.resetIdle {s t : State} {e : Input} (h : HostEffect s e t) (hs : s.ResetIdle) : t.ResetIdle := by
  cases h with
  | accept _ _ h0 => exact fun hr => absurd (h0.symm.trans hr) Bool.false_ne_true
  | softReset | hardReset => exact fun _ => rfl
  | _ => exact hs

theorem step_resetIdle {s t : State} (hs : s.ResetIdle) (h : step s = .next t) : t.ResetIdle :=
  step_keeps (P := State.ResetIdle) (fun _ hs => hs) (fun _ _ _ _ h _ => exec_engine h) (fun _ _ _ _ => rfl)
    (fun _ _ _ hs heffect => heffect.resetIdle hs) hs h

/-- With no event left the running command completes (`70_reset_and_hazards.md` R200). -/
theorem step_of_no_input {s t : State} (hs : s.ResetIdle) (hin : s.inputs = []) (h : step s = .next t) :
    t.engine = Option.none := by
  rcases step_cases h with ⟨w, i, -, -, h⟩ | ⟨w, why, -, -, rfl⟩ | ⟨hdue, rfl⟩
  · exact exec_engine h
  · rfl
  · rw [State.nextEvent, hin]
    cases h0 : s.inReset with
    | true => exact hs h0
    | false => simpa [State.dueCommand, h0, hin, engineTurn] using hdue

/-- A run takes its steps one after the other. -/
theorem run_succ (n : Nat) {s t : State} (h : step s = .next t) :
    Sys2Proof.core.run (n + 1) s = Sys2Proof.core.run n t := by
  simp [Host.Core.run, Host.Check.core_step, h]

/-- Settles O19: each step takes one event, and the step after the last completes the command. -/
theorem engineIsIdleWhenEventsRunOut : Obligations.EngineIsIdleWhenEventsRunOut := by
  intro s
  induction hn : s.inputs.length generalizing s with
  | zero =>
    intro hs
    obtain ⟨t, ht⟩ := step_next s
    have hin : s.inputs = [] := List.length_eq_zero_iff.1 hn
    refine ⟨t, run_succ 0 ht, ?_, step_of_no_input hs hin ht⟩
    rw [step_inputs ht, hin]
    rfl
  | succ n ih =>
    intro hs
    obtain ⟨t, ht⟩ := step_next s
    obtain ⟨u, hrun, hu⟩ := ih t (by rw [step_inputs ht, List.length_tail, hn]; rfl) (step_resetIdle hs ht)
    exact ⟨u, (run_succ _ ht).trans hrun, hu⟩

/-! ### The events of the validity bits (`10_state.md` R27) -/

/-- After COMP without error, or with an output that did not fit, both bits say whether there was a source. -/
theorem runComp_valid {o : Latched} {s : State}
    (h : (runComp o s).status.errcode = .none ∨ (runComp o s).status.errcode = .outOvf) :
    (runComp o s).status.treeValid = decide (0 < o.srcLen.toNat) ∧
      (runComp o s).status.ctValid = decide (0 < o.srcLen.toNat) := by
  rcases runComp_cases o s with ⟨p, -, hrun⟩ | ⟨-, hrun⟩ | ⟨-, h0, hrun⟩ | ⟨-, hpos, t, hstaged, hrun⟩
  · rw [hrun] at h
    rcases h with h | h <;> cases h
  · rw [hrun] at h
    rcases h with h | h <;> cases h
  · have hkept := State.deliver_tree o (packBits [] o.padMode) 0 (clearForEmpty s)
    have h0 : ¬ 0 < o.srcLen.toNat := Nat.not_lt.2 (Nat.le_of_eq h0)
    rw [hrun, hkept.treeValid, hkept.ctValid, decide_eq_false h0]
    exact ⟨rfl, rfl⟩
  · have hkept := State.deliver_tree o (packBits (t.codedSource o) o.padMode) (t.codedSource o).length t
    have hpos : 0 < o.srcLen.toNat := hpos
    rw [hrun, hkept.treeValid, hkept.ctValid, decide_eq_true hpos]
    exact ⟨hstaged.valid, hstaged.ctValid⟩

/-- Only BUILD, CGEN and COMP write the validity bits. -/
theorem exec_valid {i : Instr} {s t : State} (h : exec i s = .next t) (hi : ¬ (i = .build ∨ i = .cgen ∨ i = .comp)) :
    t.status.treeValid = s.status.treeValid ∧ t.status.ctValid = s.status.ctValid := by
  obtain ⟨-, -, -, -, hvalid, -⟩ := commandsWriteOnlyTheirWriteSet i s t h
  simp only [not_or] at hi
  exact (hvalid hi.1 hi.2.1 hi.2.2).2

/-- A write to a word of the tree clears both bits and leaves FREQ, CODE and DMEM. -/
theorem writeLoc_tree {l : Loc} (d : Word) (s : State) (hl : l.IsTree) :
    (writeLoc l d s).status = { s.status with treeValid := false, ctValid := false } ∧
      (writeLoc l d s).freq = s.freq ∧ (writeLoc l d s).code = s.code ∧ (writeLoc l d s).dmem = s.dmem := by
  rcases hl with ⟨i, rfl⟩ | ⟨i, rfl⟩ | rfl | rfl <;> exact ⟨rfl, rfl, rfl, rfl⟩

/-- Settles O17: what each command and each event does to the two bits. -/
theorem validityFollowsItsEvents : Obligations.ValidityFollowsItsEvents := by
  refine ⟨fun s t h herr => ?_, fun s t h => ?_, fun s t h herr => ?_, fun s a d l rest h0 hb hin ht => ⟨fun hl => ?_, ?_⟩,
    fun s t h hne => ?_⟩
  · rw [exec_build] at h
    cases h
    obtain ⟨-, -, hrun⟩ := runBuild_of_err_eq_false herr
    rw [hrun]
    exact ⟨rfl, rfl⟩
  · rw [exec_cgen] at h
    cases h
    cases hd : deriveCodes s.node s.nodeCount s.root with
    | ok k =>
      rw [runCgen_ok hd]
      exact ⟨rfl, rfl⟩
    | error p =>
      rw [runCgen_error hd]
      exact ⟨rfl, rfl⟩
  · rw [exec_comp] at h
    cases h
    exact runComp_valid herr
  · refine ⟨_, step_write h0 hin, ?_⟩
    rw [State.hostWrite_accepted (s := { s with inputs := rest }) d ht (Or.inl hb)]
    exact writeLoc_tree d _ hl
  · rintro i rfl
    rw [step_write h0 hin, State.hostWrite_accepted (s := { s with inputs := rest }) d ht (Or.inl hb)]
    rfl
  · rcases step_cases h with ⟨w, i, hdue, hi, h⟩ | ⟨w, why, -, -, rfl⟩ | ⟨hdue, rfl⟩
    · left
      refine ⟨w, i, hdue, hi, ?_⟩
      by_contra hother
      obtain ⟨htv, hct⟩ := exec_valid h hother
      exact hne.elim (fun hne => hne htv) (fun hne => hne hct)
    · exact hne.elim (fun hne => absurd rfl hne) (fun hne => absurd rfl hne)
    · right
      rcases nextEvent_cases s with h | ⟨e, he, h⟩
      · rw [h] at hne
        exact hne.elim (fun hne => absurd rfl hne) (fun hne => absurd rfl hne)
      · rcases h.tree_cases with hkept | ⟨htv, hct, hevent⟩
        · exact hne.elim (fun hne => absurd hkept.treeValid hne) (fun hne => absurd hkept.ctValid hne)
        · refine ⟨htv, hct, hdue, hevent.imp ?_ ?_⟩
          · rintro ⟨a, d, l, rfl, ht, hl⟩
            exact ⟨a, d, l, he, ht, by simpa [Loc.IsTree, or_assoc] using hl⟩
          · rintro ⟨level, rfl⟩
            exact ⟨level, he⟩

end Sys2Proof.Machine
end

section
/-! SUPPORT. Command words and their completion (`30_encoding.md` R81, R92, `20_memory.md` R70 to R73), and the window map
(`20_memory.md` R61). -/

namespace Sys2Proof.Machine

/-! ### Command words (`30_encoding.md` R80, R81, R90, R92) -/

theorem opcodeInstr_eq_some {o : Byte} {i : Instr} : opcodeInstr o = some i ↔ o = i.opcode := by
  constructor
  · intro h
    unfold opcodeInstr at h
    split at h <;> cases h <;> exact BitVec.eq_of_toNat_eq ‹_›
  · rintro rfl
    exact opcodeInstr_opcode i

/-- The opcodes outside the map (`30_encoding.md` R92). -/
theorem opcodeInstr_eq_none {o : Byte} : opcodeInstr o = none ↔ o = 0#8 ∨ 0x0A ≤ o.toNat := by
  revert o
  decide

theorem decode_eq_cmd {w : Word} {i : Instr} : decode w = .cmd i ↔ w = encode i := by
  constructor
  · intro h
    unfold decode at h
    dsimp only at h
    split at h
    · cases h
    next hrsv =>
    split at h
    · next j hj =>
      cases h
      have hfields : FormatC.ofWord w = { opc := i.opcode, rsv := 0#24 } := by
        rw [← opcodeInstr_eq_some.1 hj, ← not_not.1 hrsv]
      rw [encode, ← hfields, FormatC.toWord_ofWord]
    · cases h
  · rintro rfl
    exact decode_encode i

theorem decode_eq_badCmd {w : Word} : (∃ why, decode w = .badCmd why) ↔
    w.extractLsb' 8 24 ≠ 0#24 ∨ w.extractLsb' 0 8 = 0#8 ∨ 0x0A ≤ (w.extractLsb' 0 8).toNat := by
  rw [← opcodeInstr_eq_none (o := w.extractLsb' 0 8), decode]
  change (∃ why, (if w.extractLsb' 8 24 ≠ 0#24 then _ else _) = _) ↔ _
  by_cases hrsv : w.extractLsb' 8 24 = 0#24
  · rw [if_neg (not_not.2 hrsv)]
    cases ho : opcodeInstr (w.extractLsb' 0 8) <;> simp [hrsv, FormatC.ofWord, ho]
  · simp [hrsv]

/-- Settles O2: the two fields of a word decide, RSV before the opcode. -/
theorem everyWordIsACommandOrBadCmd : Obligations.EveryWordIsACommandOrBadCmd :=
  fun _ => ⟨fun _ => decode_eq_cmd, decode_eq_badCmd⟩

/-- A bus word is its four lanes (`20_memory.md` R65). -/
theorem wordOfLanes_laneOf (w : Word) : wordOfLanes (laneOf w 0) (laneOf w 1) (laneOf w 2) (laneOf w 3) = w := by
  apply BitVec.eq_of_getLsbD_eq
  intro i hi
  simp only [wordOfLanes, laneOf, BitVec.getLsbD_append, BitVec.getLsbD_extractLsb']
  interval_cases i <;> rfl

theorem tableWord_toNat (w : Word) : tableWord 32 w.toNat = w := by
  rw [tableWord, Nat.mod_eq_of_lt w.isLt, BitVec.ofNat_toNat, BitVec.setWidth_eq]

theorem decodeBytes_lanesOf (w : Word) : decodeBytes (lanesOf w) = some (decode w, []) := by
  rw [lanesOf, decodeBytes, wordOfLanes_laneOf]

/-- Settles O3: the decoder undoes the encoder, and four bytes in lane order are the word. -/
theorem decodeOfEncodeIsTheCommand : Obligations.DecodeOfEncodeIsTheCommand := by
  intro i
  refine ⟨decode_encode i, ?_⟩
  rw [decodeTableWord, tableWord_toNat, decodeBytes_lanesOf, decode_encode]

/-! ### The completion of a latched word (`20_memory.md` R71, `60_exceptions.md` R175) -/

theorem engineTurn_of_head? {l : List Input} (h : l.head? = Option.none ∨ l.head? = some .engine) :
    engineTurn l = true := by
  cases l with
  | nil => rfl
  | cons e rest =>
    rcases h with h | h
    · cases h
    · cases h
      rfl

section
variable {s : State} {l : Latched} (h0 : s.inReset = false) (hl : s.engine = some l)
  (hin : s.inputs.head? = Option.none ∨ s.inputs.head? = some .engine)
include h0 hl hin

theorem State.dueCommand_of_turn : s.dueCommand = some l.word :=
  State.dueCommand_eq_some.2 ⟨h0, engineTurn_of_head? hin, l, hl, rfl⟩

theorem step_command {i : Instr} (hi : decode l.word = .cmd i) : step s = exec i s.popInput := by
  rw [step, State.dueCommand_of_turn h0 hl hin]
  simp only [hi]

theorem step_badCommand {why : BadWord} (hbad : decode l.word = .badCmd why) :
    step s = .next (badCommand l.word s.popInput) := by
  rw [step, State.dueCommand_of_turn h0 hl hin]
  simp only [hbad]

end

/-- Settles O4: the due command is the latched one. -/
theorem stepRunsTheDecodedCommand : Obligations.StepRunsTheDecodedCommand :=
  fun _ _ _ h0 hl hin hi => step_command h0 hl hin hi

/-- Settles O5: a word that is no command raises BAD_CMD, with the word as its position. -/
theorem badCommandReportsTheWord : Obligations.BadCommandReportsTheWord := by
  intro s l h0 hl hin hw
  obtain ⟨why, hbad⟩ := decode_eq_badCmd.2 hw
  obtain ⟨herr, hdmem, hhost, -, hfreq⟩ := State.raise_spec .badCmd l.word.toNat s.popInput
  have htree : TreeKept s s.popInput := by constructor <;> rfl
  refine ⟨_, step_badCommand h0 hl hin hbad, herr, ?_, hhost, htree.raise .badCmd l.word.toNat, hfreq, hdmem⟩
  exact (BitVec.ofNat_toNat 32 l.word).trans (BitVec.setWidth_eq _)

/-! ### The window map (`20_memory.md` R61) -/

theorem wordOffset_ofNat {n : Nat} (h4 : n % 4 = 0) (hn : n < 131072) : wordOffset (BitVec.ofNat 17 n) = n := by
  rw [wordOffset_eq, BitVec.toNat_ofNat]
  omega

theorem wordOffset_append (a : BitVec 15) (low : BitVec 2) : wordOffset (a ++ low) = wordOffset (a ++ 0#2) := by
  have hmask : (a ++ low : BitVec 17) &&& 0x1FFFC#17 = (a ++ 0#2 : BitVec 17) &&& 0x1FFFC#17 := by
    apply BitVec.eq_of_getLsbD_eq
    intro i hi
    simp only [BitVec.getLsbD_and, BitVec.getLsbD_append]
    interval_cases i <;> simp
  exact congrArg BitVec.toNat hmask

theorem Reg.ofIndex_off (r : Reg) : Reg.ofIndex (r.off / 4) = some r := by
  cases r with
  | ctBits w => revert w; decide
  | _ => rfl

theorem Reg.off_lt (r : Reg) : r.off < 0x400 := by
  cases r with
  | ctBits w => simp only [Reg.off]; omega
  | _ => simp [Reg.off]

theorem Reg.off_mod (r : Reg) : r.off % 4 = 0 := by
  cases r with
  | ctBits w => simp only [Reg.off]; omega
  | _ => rfl

theorem Loc.off_lt (l : Loc) : l.off < 131072 := by
  cases l with
  | reg r => exact r.off_lt.trans (by decide)
  | _ => simp only [Loc.off]; omega

theorem Loc.off_mod (l : Loc) : l.off % 4 = 0 := by
  cases l with
  | reg r => exact r.off_mod
  | _ => simp only [Loc.off]; omega

section
variable {size off : Nat}

theorem targetAt_reg {r : Reg} (h : off < 0x400) (hr : Reg.ofIndex (off / 4) = some r) :
    targetAt size off = .loc (.reg r) := by
  rw [targetAt, if_pos h, hr]

theorem targetAt_freq (hlo : 0x400 ≤ off) (hhi : off < 0x800) :
    targetAt size off = .loc (.freq ⟨(off - 0x400) / 4, by omega⟩) := by
  rw [targetAt, if_neg (by omega), dif_pos hhi]

theorem targetAt_nodeCtl (hlo : 0x800 ≤ off) (hhi : off < 0x17F8) (h8 : (off - 0x800) % 8 = 0) :
    targetAt size off = .loc (.nodeCtl ⟨(off - 0x800) / 8, by omega⟩) := by
  rw [targetAt, if_neg (by omega), dif_neg (by omega), dif_pos hhi, if_pos h8]

theorem targetAt_nodeFreq (hlo : 0x800 ≤ off) (hhi : off < 0x17F8) (h8 : (off - 0x800) % 8 ≠ 0) :
    targetAt size off = .loc (.nodeFreq ⟨(off - 0x800) / 8, by omega⟩) := by
  rw [targetAt, if_neg (by omega), dif_neg (by omega), dif_pos hhi, if_neg h8]

theorem targetAt_dmem (hlo : 0x10000 ≤ off) (hhi : off < 0x10000 + size) :
    targetAt size off = .dmem (off - 0x10000) := by
  rw [targetAt, if_neg (by omega), dif_neg (by omega), dif_neg (by omega), if_neg (by omega), if_pos hhi]

end

theorem targetAt_off (size : Nat) (l : Loc) : targetAt size l.off = .loc l := by
  cases l with
  | reg r => exact targetAt_reg r.off_lt r.ofIndex_off
  | freq i =>
    change targetAt size (0x400 + 4 * i.val) = _
    rw [targetAt_freq (by omega) (by omega), Target.loc.injEq, Loc.freq.injEq, Fin.ext_iff]
    dsimp only
    omega
  | nodeCtl i =>
    change targetAt size (0x800 + 8 * i.val) = _
    rw [targetAt_nodeCtl (by omega) (by omega) (by omega), Target.loc.injEq, Loc.nodeCtl.injEq, Fin.ext_iff]
    dsimp only
    omega
  | nodeFreq i =>
    change targetAt size (0x804 + 8 * i.val) = _
    rw [targetAt_nodeFreq (by omega) (by omega) (by omega), Target.loc.injEq, Loc.nodeFreq.injEq, Fin.ext_iff]
    dsimp only
    omega

/-- Every location is found at its window offset. -/
theorem State.target_off (s : State) (l : Loc) : s.target (BitVec.ofNat 17 l.off) = .loc l := by
  rw [State.target, wordOffset_ofNat l.off_mod l.off_lt, targetAt_off]

theorem State.target_dmem_off {s : State} {a : Nat} (h : 4 * a < s.dmemSize) :
    s.target (BitVec.ofNat 17 (0x10000 + 4 * a)) = .dmem (4 * a) := by
  have hsize := s.dmemSize_bounds
  rw [State.target, wordOffset_ofNat (by omega) (by omega), targetAt_dmem (by omega) (by omega), Nat.add_sub_cancel_left]

/-- The target of an address whose word offset is that of a location. -/
theorem State.target_of_masked (s : State) {a : BitVec 17} {l : Loc} (h : a &&& 0x1FFFC#17 = BitVec.ofNat 17 l.off) :
    s.target a = .loc l := by
  rw [State.target, wordOffset_of_masked l.off_lt h, targetAt_off]

/-- Settles O8: the location at an offset is the one whose offset it is. -/
theorem windowMapFindsEveryLocation : Obligations.WindowMapFindsEveryLocation := by
  intro s
  have hreg : ∀ r : Reg, s.target (BitVec.ofNat 17 r.off) = .loc (.reg r) := fun r => s.target_off (.reg r)
  refine ⟨⟨hreg .id, hreg .version, hreg .dmemsz, hreg .ctrl, hreg .status, hreg .cmd, hreg .srcAddr, hreg .srcLen,
    hreg .dstAddr, hreg .dstCap, hreg .resLen, hreg .resBits, hreg .errPos, hreg .nodeCount, hreg .root, hreg .symCount,
    hreg .ctSel, hreg .ctLen⟩, fun w => hreg (.ctBits w), fun i => s.target_off (.freq i),
    fun i => ⟨s.target_off (.nodeCtl i), s.target_off (.nodeFreq i)⟩, s.target_off, fun a => s.target_dmem_off,
    fun a low => ?_⟩
  rw [State.target, wordOffset_append, State.target]

/-- Settles O6: the address selects CMD, whose write is accepted when idle and dropped when busy. -/
theorem cmdWriteIsAcceptedOrDropped : Obligations.CmdWriteIsAcceptedOrDropped := by
  intro s a w rest h0 hin ha
  have hstep : step s = .next (State.writeCmd w { s with inputs := rest }) :=
    (step_write h0 hin).trans
      (congrArg _ (State.hostWrite_accepted w (State.target_of_masked _ (l := .reg .cmd) ha) (Or.inr rfl)))
  refine ⟨fun hidle => ?_, fun hbusy => ?_⟩
  · rw [hstep, State.writeCmd, if_neg (by simp [State.busy, hidle])]
    rfl
  · rw [hstep, State.writeCmd, if_pos (by simpa [State.busy, Option.isSome_iff_ne_none] using hbusy)]
    rfl

/-! ### Refused accesses (`20_memory.md` R64, R72) -/

/-- Settles O11: the strobes are looked at before the lock and the register. -/
theorem partialRegisterWriteIsRefused : Obligations.PartialRegisterWriteIsRefused := by
  intro s l a strb d rest h0 hin ht hs
  exact (step_write h0 hin).trans (congrArg _ (State.hostWrite_partial (s := { s with inputs := rest }) d ht hs))

/-- The locked targets (`20_memory.md` R72). -/
theorem Target.locked_iff (t : Target) : t.locked = true ↔
    (∃ a, t = .dmem a) ∨ (∃ i, t = .loc (.freq i)) ∨ (∃ i, t = .loc (.nodeCtl i)) ∨ (∃ i, t = .loc (.nodeFreq i)) ∨
    t = .loc (.reg .nodeCount) ∨ t = .loc (.reg .root) ∨ t = .loc (.reg .ctLen) ∨ (∃ w, t = .loc (.reg (.ctBits w))) := by
  cases t with
  | dmem a => simp [Target.locked]
  | reserved => simp [Target.locked]
  | loc l =>
    cases l with
    | reg r => cases r <;> simp [Target.locked, Loc.locked, Reg.locked]
    | _ => simp [Target.locked, Loc.locked]

theorem State.hostRead_locked {s : State} {a : BitVec 17} (hb : s.busy = true) (hl : (s.target a).locked = true) :
    s.hostRead a = { s.accessError with prdata := 0 } := by
  simp [State.hostRead, hb, hl]

theorem State.hostRead_unlocked {s : State} {a : BitVec 17} (h : s.busy = false ∨ (s.target a).locked = false) :
    s.hostRead a = { s with prdata := readTarget (s.target a) s } := by
  have hneg : ¬ (s.busy && (s.target a).locked) = true := by rcases h with h | h <;> simp [h]
  exact if_neg hneg

/-- What a read returns does not depend on the events to come. -/
theorem readTarget_inputs (t : Target) (s : State) (rest : List Input) :
    readTarget t { s with inputs := rest } = readTarget t s := by
  cases t with
  | loc l =>
    cases l with
    | reg r => cases r <;> rfl
    | _ => rfl
  | _ => rfl

/-- Settles O10: while busy a locked target is refused, and any other read only returns its word. -/
theorem lockedTargetsRefuseAccess : Obligations.LockedTargetsRefuseAccess := by
  refine ⟨Target.locked_iff, fun s a rest h0 hin => ⟨fun hb hl => ?_, fun hu => ?_⟩,
    fun s a strb d rest h0 hin hb hl => ?_⟩
  · exact (step_read h0 hin).trans (congrArg _ (State.hostRead_locked (s := { s with inputs := rest }) hb hl))
  · rw [step_read h0 hin, State.hostRead_unlocked (s := { s with inputs := rest }) hu, State.target_inputs,
      readTarget_inputs]
  · exact (step_write h0 hin).trans (congrArg _ (State.hostWrite_locked (s := { s with inputs := rest }) strb d hb hl))

/-! ### DMEM words (`20_memory.md` R64, R65) -/

/-- Byte a of DMEM is in lane 0. -/
theorem laneOf_readWord (m : Memory) (a : Nat) {i : Nat} (hi : i < 4) : laneOf (m.readWord a) i = m.read (a + i) := by
  obtain ⟨h0, h1, h2, h3⟩ := laneOf_wordOfLanes (m.read a) (m.read (a + 1)) (m.read (a + 2)) (m.read (a + 3))
  rw [Memory.readWord]
  interval_cases i
  · exact h0
  · exact h1
  · exact h2
  · exact h3

/-- Settles O12: lane i of the bus word is the byte at offset a + i, in a write and in a read. -/
theorem dmemWordAccessIsLittleEndian : Obligations.DmemWordAccessIsLittleEndian := by
  intro s a w rest h0 hb hw ht
  refine ⟨fun strb d hin => ⟨_, step_write h0 hin, ?_⟩, fun hin => ⟨_, step_read h0 hin, ?_⟩⟩
  · rw [State.hostWrite_dmem (s := { s with inputs := rest }) strb d ht hb]
    refine ⟨fun i hi => ?_, fun x hx => ?_, rfl⟩
    · rw [Memory.read_writeLanes hw, Nat.add_sub_cancel_left]
      simp [hi, laneOf]
    · exact (Memory.read_writeLanes hw w strb d x).trans (if_neg (by omega))
  · rw [State.hostRead_unlocked (s := { s with inputs := rest }) (Or.inl hb), State.target_inputs, ht]
    exact ⟨fun i hi => laneOf_readWord s.dmem w hi, rfl⟩

end Sys2Proof.Machine
end

section
/-! SUPPORT. The words of the packed registers (`10_state.md` R25 to R41): their fields as the host writes and reads them, and
the code-table port (R38). -/

namespace Sys2Proof.Machine

/-! ### Packed words (`10_state.md` R25, R26, R35 to R41) -/

theorem Ctrl.toWord_ofWord (d : Word) : (Ctrl.ofWord d).toWord = d &&& 0x0000000F#32 := by
  apply BitVec.eq_of_getLsbD_eq
  intro i hi
  simp only [Ctrl.toWord, Ctrl.ofWord, BitVec.getLsbD_append, BitVec.getLsbD_and]
  interval_cases i <;> simp

theorem Node.ctl_ofWords (d f : Word) : (Node.ofWords d f).ctl = d &&& 0x83FFFFFF#32 := by
  apply BitVec.eq_of_getLsbD_eq
  intro i hi
  simp only [Node.ctl, Node.ofWords, BitVec.getLsbD_append, BitVec.getLsbD_and, BitVec.getLsbD_extractLsb']
  interval_cases i <;> simp

theorem setWidth_extractLsb'_ten (d : Word) : BitVec.setWidth 32 (d.extractLsb' 0 10) = d &&& 0x000003FF#32 := by
  apply BitVec.eq_of_getLsbD_eq
  intro i hi
  simp only [BitVec.getLsbD_setWidth, BitVec.getLsbD_and, BitVec.getLsbD_extractLsb']
  interval_cases i <;> simp

theorem setWidth_extractLsb'_nine (d : Word) : BitVec.setWidth 32 (d.extractLsb' 0 9) = d &&& 0x000001FF#32 := by
  apply BitVec.eq_of_getLsbD_eq
  intro i hi
  simp only [BitVec.getLsbD_setWidth, BitVec.getLsbD_and, BitVec.getLsbD_extractLsb']
  interval_cases i <;> simp

theorem setWidth_extractLsb'_eight (d : Word) : BitVec.setWidth 32 (d.extractLsb' 0 8) = d &&& 0x000000FF#32 := by
  apply BitVec.eq_of_getLsbD_eq
  intro i hi
  simp only [BitVec.getLsbD_setWidth, BitVec.getLsbD_and, BitVec.getLsbD_extractLsb']
  interval_cases i <;> simp

/-- The acknowledge clears in the STATUS word the W1C bits written as 1. -/
theorem State.statusReg_ackStatus (s : State) (d : Word) :
    (s.ackStatus d).statusReg = s.statusReg &&& ~~~(d &&& 0x03000006#32) := by
  apply BitVec.eq_of_getLsbD_eq
  intro i hi
  simp only [State.statusReg, State.ackStatus, statusWord, State.busy, BitVec.getLsbD_append, BitVec.getLsbD_and,
    BitVec.getLsbD_not]
  interval_cases i <;> simp

/-- The fields of the STATUS word. -/
theorem statusWord_fields (busy : Bool) (t : Status) :
    (statusWord busy t).getLsbD 0 = busy ∧ (statusWord busy t).getLsbD 1 = t.done ∧ (statusWord busy t).getLsbD 2 = t.err ∧
      (statusWord busy t).extractLsb' 8 4 = t.errcode.toBits ∧ (statusWord busy t).getLsbD 16 = t.treeValid ∧
      (statusWord busy t).getLsbD 17 = t.ctValid ∧ (statusWord busy t).getLsbD 24 = t.accErr ∧
      (statusWord busy t).getLsbD 25 = t.cmdOvr := by
  refine ⟨?_, ?_, ?_, ?_, ?_, ?_, ?_, ?_⟩
  case refine_4 =>
    apply BitVec.eq_of_getLsbD_eq
    intro i hi
    simp only [BitVec.getLsbD_extractLsb', statusWord, BitVec.getLsbD_append]
    interval_cases i <;> simp
  all_goals
    simp only [statusWord, BitVec.getLsbD_append]
    simp

/-- The reserved bits of STATUS read 0. -/
theorem statusWord_reserved (busy : Bool) (t : Status) : statusWord busy t &&& 0xFCFCF0F8#32 = 0#32 := by
  apply BitVec.eq_of_getLsbD_eq
  intro i hi
  simp only [statusWord, BitVec.getLsbD_append, BitVec.getLsbD_and]
  interval_cases i <;> simp

/-! ### The step of an accepted write (`20_memory.md` R64, R72) -/

theorem step_write_accepted {s : State} {a : BitVec 17} {d : Word} {l : Loc} {rest : List Input} (h0 : s.inReset = false)
    (hin : s.inputs = .write a 0xF#4 d :: rest) (ht : s.target a = .loc l) (hu : s.busy = false ∨ l.locked = false) :
    step s = .next (writeLoc l d { s with inputs := rest }) :=
  (step_write h0 hin).trans (congrArg _ (State.hostWrite_accepted (s := { s with inputs := rest }) d ht hu))

/-- Settles O14: the acknowledge writes nothing but the four W1C bits. -/
theorem statusWriteClearsTheBitsWritten : Obligations.StatusWriteClearsTheBitsWritten := by
  intro s a d rest h0 hin ha
  have ht : s.target a = .loc (.reg .status) := s.target_of_masked ha
  obtain ⟨hbusy, hdone, herr, hcode, htv, hct, hacc, hovr⟩ := statusWord_fields s.busy s.status
  exact ⟨_, step_write_accepted h0 hin ht (Or.inr rfl), rfl, State.statusReg_ackStatus { s with inputs := rest } d,
    ⟨hbusy, hdone, herr, hcode, htv, hct, hacc, hovr, statusWord_reserved s.busy s.status⟩,
    rfl, rfl, rfl, rfl, rfl, rfl, rfl, rfl, rfl, rfl, rfl, rfl, rfl⟩

theorem State.writeCtrl_stores {s : State} {d : Word} (h31 : d.getLsbD 31 = false) :
    s.writeCtrl d = { s with ctrl := Ctrl.ofWord d } := by
  rw [State.writeCtrl, h31, if_neg Bool.false_ne_true]

theorem readLoc_freq_set (s : State) (i j : Fin 256) (d : Word) :
    readLoc (.freq j) { s with freq := s.freq.set i d } = if i = j then d else readLoc (.freq j) s := by
  simp [readLoc, Vector.getElem_set, Fin.ext_iff]

/-- An arena entry after another or the same entry is set. -/
theorem node_set_getElem (node : Vector Node 511) (i j : Fin 511) (x : Node) :
    (node.set i x)[j] = if i = j then x else node[j] := by
  simp [Vector.getElem_set, Fin.ext_iff]

/-- Settles O13: for each location, the word read back from what the write stored. -/
theorem writtenWordsReadBackTheirFields : Obligations.WrittenWordsReadBackTheirFields := by
  intro s a d l rest h0 hin ht hu
  refine ⟨_, step_write_accepted h0 hin ht hu, ?_⟩
  cases l with
  | reg r =>
    cases r with
    | ctrl =>
      refine fun h31 => ?_
      have hstored : writeLoc (.reg .ctrl) d { s with inputs := rest } =
          { s with inputs := rest, ctrl := Ctrl.ofWord d } := State.writeCtrl_stores h31
      rw [hstored]
      exact ⟨Ctrl.toWord_ofWord d, rfl⟩
    | nodeCount => exact ⟨setWidth_extractLsb'_ten d, rfl⟩
    | root => exact ⟨setWidth_extractLsb'_nine d, rfl⟩
    | ctSel => exact ⟨setWidth_extractLsb'_eight d, rfl⟩
    | status | cmd => rfl
    | _ => exact ⟨rfl, rfl⟩
  | freq i =>
    refine ⟨?_, rfl, fun j hj => ?_⟩
    · exact (readLoc_freq_set _ i i d).trans (if_pos rfl)
    · exact (readLoc_freq_set _ i j d).trans (if_neg (Ne.symm hj))
  | nodeCtl i =>
    have hget := fun j => node_set_getElem s.node i j (Node.ofWords d s.node[i].freq)
    refine ⟨?_, rfl, fun j hj => ?_, fun j => ?_⟩
    · exact (congrArg Node.ctl ((hget i).trans (if_pos rfl))).trans (Node.ctl_ofWords d _)
    · exact congrArg Node.ctl ((hget j).trans (if_neg (Ne.symm hj)))
    · refine (congrArg Node.freq (hget j)).trans ?_
      split
      · next h => rw [h]; rfl
      · rfl
  | nodeFreq i =>
    have hget := fun j => node_set_getElem s.node i j { s.node[i] with freq := d }
    refine ⟨?_, rfl, fun j hj => ?_, fun j => ?_⟩
    · exact congrArg Node.freq ((hget i).trans (if_pos rfl))
    · exact congrArg Node.freq ((hget j).trans (if_neg (Ne.symm hj)))
    · refine (congrArg Node.ctl (hget j)).trans ?_
      split
      · next h => rw [h]; rfl
      · rfl

/-! ### The code-table port (`10_state.md` R38) -/

theorem bitsToNat_append_singleton (b : Bits) (x : Bool) : bitsToNat (b ++ [x]) = 2 * bitsToNat b + x.toNat := by
  simp [bitsToNat]

/-- Bit i of the number is the i-th bit of the string from its end. -/
theorem testBit_bitsToNat (b : Bits) (i : Nat) : (bitsToNat b).testBit i = b.reverse.getD i false := by
  induction b using List.reverseRecOn generalizing i with
  | nil => simp [bitsToNat]
  | append_singleton b x ih =>
    rw [bitsToNat_append_singleton, List.reverse_append, List.reverse_singleton, List.singleton_append]
    cases i with
    | zero => cases x <;> simp [Nat.testBit_zero]
    | succ i =>
      have hhalf : (2 * bitsToNat b + x.toNat) / 2 = bitsToNat b := by
        have := Bool.toNat_le x
        omega
      rw [Nat.testBit_succ, hhalf, ih, List.getD_cons_succ]

/-- Bit 31 - t of the word is bit t of the string, 0 past its end. -/
theorem getLsbD_wordOfBits (b : Bits) {t : Nat} (ht : t < 32) : (wordOfBits b).getLsbD (31 - t) = b.getD t false := by
  have hlen : ((b ++ zeros 32).take 32).length = 32 := by simp
  have hbit : ((b ++ zeros 32).take 32).getD t false = b.getD t false := by
    rw [List.getD_eq_getElem?_getD, List.getElem?_take_of_lt ht]
    by_cases htb : t < b.length
    · rw [List.getElem?_append_left htb, List.getD_eq_getElem?_getD]
    · rw [List.getElem?_append_right (by omega), zeros, List.getElem?_replicate, if_pos (by omega),
        List.getD_eq_default _ _ (by omega), Option.getD_some]
  rw [wordOfBits, BitVec.getLsbD_ofNat, testBit_bitsToNat, decide_eq_true (by omega), Bool.true_and, ← hbit,
    List.getD_eq_getElem _ _ (by rw [List.length_reverse]; omega), List.getD_eq_getElem _ _ (by omega), List.getElem_reverse]
  simp only [hlen, show 32 - 1 - (31 - t) = t by omega]

/-- Settles O15: CT_LEN holds a length below 256, and CT_BITSw the bits from 32w on. -/
theorem codePortShowsTheSelectedCode : Obligations.CodePortShowsTheSelectedCode := by
  intro s hlen
  refine ⟨?_, fun w t ht => ?_⟩
  · simp only [readReg, ctLenWord, BitVec.toNat_setWidth, BitVec.toNat_ofNat]
    omega
  · rw [readReg, ctBitsWord, getLsbD_wordOfBits _ ht, List.getD_eq_getElem?_getD, List.getElem?_drop,
      ← List.getD_eq_getElem?_getD]

end Sys2Proof.Machine
end

section
/-! SUPPORT. Soft and hard reset (`70_reset_and_hazards.md` R190 to R193): what the registers and the memories hold after. -/

namespace Sys2Proof.Machine

/-- Settles O20: the reset values, register by register. -/
theorem resetRegistersReadTheirValues : Obligations.ResetRegistersReadTheirValues :=
  ⟨rfl, rfl, rfl, rfl, rfl, rfl, rfl, rfl, rfl, rfl, rfl, rfl, rfl, rfl, rfl, rfl, rfl, rfl⟩

/-- After a reset the registers are those of `State.reset`. -/
theorem State.resetRegisters_eq (s : State) :
    s.resetRegisters =
      { State.reset with
        dmemExp := s.dmemExp, freq := s.freq, node := s.node, code := s.code, dmem := s.dmem, inReset := s.inReset,
        prdata := s.prdata, inputs := s.inputs, draws := s.draws } := rfl

/-- The step of a CTRL write with SRST set (`70_reset_and_hazards.md` R192). -/
theorem step_softReset {s : State} {a : BitVec 17} {d : Word} {rest : List Input} (h0 : s.inReset = false)
    (hin : s.inputs = .write a 0xF#4 d :: rest) (ha : a &&& 0x1FFFC#17 = 0x0C#17) (h31 : d.getLsbD 31 = true) :
    step s = .next (State.softReset { s with inputs := rest }) := by
  have ht : s.target a = .loc (.reg .ctrl) := s.target_of_masked ha
  rw [step_write_accepted h0 hin ht (Or.inr rfl), writeLoc, writeReg, State.writeCtrl, if_pos h31]

/-- Settles O21: with no command to abandon a soft reset only resets the registers. -/
theorem idleSoftResetKeepsTheMemories : Obligations.IdleSoftResetKeepsTheMemories := by
  intro s a d rest h0 hidle hin ha h31
  have habandon : State.abandon { s with inputs := rest } = { s with inputs := rest } := by
    simp [State.abandon, hidle]
  rw [step_softReset h0 hin ha h31, State.softReset, habandon, State.resetRegisters_eq]
  dsimp only
  rw [h0]
  rfl

/-! ### An abandoned command (`70_reset_and_hazards.md` R193) -/

theorem State.abandon_of_latched {s : State} {l : Latched} (h : s.engine = some l) :
    s.abandon = s.drawWriteSet (wordWriteSet l.word) l := by
  rw [State.abandon, h]

/-- A memory is in no write set when no command the word names has it in its own. -/
theorem wordWriteSet_eq_false (memory : WriteSet → Bool) {w : Word}
    (hnone : memory { freq := false, node := false, code := false, dst := false } = false)
    (h : ∀ i, decode w = .cmd i → memory (writeSet i) = false) : memory (wordWriteSet w) = false := by
  unfold wordWriteSet
  split
  · next i hi => exact h i hi
  · exact hnone

theorem wordWriteSet_freq {w : Word} (hfclr : decode w ≠ .cmd .fclr) (hfcnt : decode w ≠ .cmd .fcnt)
    (hcomp : decode w ≠ .cmd .comp) : (wordWriteSet w).freq = false :=
  wordWriteSet_eq_false WriteSet.freq rfl fun i hi => by
    cases i with
    | fclr => exact absurd hi hfclr
    | fcnt => exact absurd hi hfcnt
    | comp => exact absurd hi hcomp
    | _ => rfl

theorem wordWriteSet_node {w : Word} (hbuild : decode w ≠ .cmd .build) (hcomp : decode w ≠ .cmd .comp) :
    (wordWriteSet w).node = false :=
  wordWriteSet_eq_false WriteSet.node rfl fun i hi => by
    cases i with
    | build => exact absurd hi hbuild
    | comp => exact absurd hi hcomp
    | _ => rfl

theorem wordWriteSet_code {w : Word} (hcgen : decode w ≠ .cmd .cgen) (hcomp : decode w ≠ .cmd .comp) :
    (wordWriteSet w).code = false :=
  wordWriteSet_eq_false WriteSet.code rfl fun i hi => by
    cases i with
    | cgen => exact absurd hi hcgen
    | comp => exact absurd hi hcomp
    | _ => rfl

theorem wordWriteSet_dst {w : Word} (henc : decode w ≠ .cmd .enc) (hdec : decode w ≠ .cmd .dec)
    (hpack : decode w ≠ .cmd .pack) (hunpk : decode w ≠ .cmd .unpk) (hcomp : decode w ≠ .cmd .comp) :
    (wordWriteSet w).dst = false :=
  wordWriteSet_eq_false WriteSet.dst rfl fun i hi => by
    cases i with
    | enc => exact absurd hi henc
    | dec => exact absurd hi hdec
    | pack => exact absurd hi hpack
    | unpk => exact absurd hi hunpk
    | comp => exact absurd hi hcomp
    | _ => rfl

section
variable (ws : WriteSet) (o : Latched) (s : State)

/-- The draws stay in the destination region. -/
theorem State.drawWriteSet_keeps_outside :
    DmemKeptOutside o.dstAddr.toNat o.dstCap.toNat s (s.drawWriteSet ws o) := by
  intro x hx
  cases hd : ws.dst with
  | false => simp [State.drawWriteSet, hd]
  | true =>
    have hdraw : (s.drawWriteSet ws o).dmem = (s.drawDst o).dmem := by simp [State.drawWriteSet, hd]
    rw [hdraw]
    exact Memory.read_drawBytes_outside _ _ _ _ (by omega)

/-- Drawing a write set keeps each memory outside it. -/
theorem State.drawWriteSet_frame :
    (ws.freq = false → (s.drawWriteSet ws o).freq = s.freq) ∧ (ws.node = false → (s.drawWriteSet ws o).node = s.node) ∧
      (ws.code = false → (s.drawWriteSet ws o).code = s.code) ∧ (ws.dst = false → (s.drawWriteSet ws o).dmem = s.dmem) ∧
      (s.drawWriteSet ws o).inputs = s.inputs ∧
      DmemKeptOutside o.dstAddr.toNat o.dstCap.toNat s (s.drawWriteSet ws o) :=
  ⟨fun h => by simp [State.drawWriteSet, h], fun h => by simp [State.drawWriteSet, h],
    fun h => by simp [State.drawWriteSet, h], fun h => by simp [State.drawWriteSet, h], rfl,
    s.drawWriteSet_keeps_outside ws o⟩

end

/-- Settles O22: the abandoned command's write set is drawn, and the registers are reset. -/
theorem abandonedCommandSpoilsOnlyItsWriteSet : Obligations.AbandonedCommandSpoilsOnlyItsWriteSet := by
  intro s a d l rest h0 hl hin ha h31
  refine ⟨_, step_softReset h0 hin ha h31, ?_⟩
  rw [State.softReset, State.abandon_of_latched (s := { s with inputs := rest }) hl]
  obtain ⟨hfreq, hnode, hcode, hdst, hinputs, houtside⟩ :=
    State.drawWriteSet_frame (wordWriteSet l.word) l { s with inputs := rest }
  refine ⟨rfl, rfl, rfl, hinputs,
    rfl, rfl, rfl, rfl, rfl, rfl, rfl, rfl, rfl, rfl, rfl,
    fun hfclr hfcnt hcomp => ?_, fun hbuild hcomp => ?_, fun hcgen hcomp => ?_,
    houtside, fun henc hdec hpack hunpk hcomp => ?_⟩
  · exact hfreq (wordWriteSet_freq hfclr hfcnt hcomp)
  · exact hnode (wordWriteSet_node hbuild hcomp)
  · exact hcode (wordWriteSet_code hcgen hcomp)
  · exact hdst (wordWriteSet_dst henc hdec hpack hunpk hcomp)

/-! ### Hard reset (`70_reset_and_hazards.md` R190, R191) -/

/-- While `rst_n` is low no command is due, and an event is ignored unless it changes the pin. -/
theorem step_ignored {s : State} {e : Input} {rest : List Input} (h0 : s.inReset = true) (hin : s.inputs = e :: rest) :
    step s = .next (State.ignoredInput e { s with inputs := rest }) := by
  have hdue : s.dueCommand = Option.none := by simp [State.dueCommand, h0]
  rw [step, hdue]
  simp [State.nextEvent, hin, State.applyInput, h0]

theorem State.hardReset_engine (s : State) : s.hardReset.engine = Option.none := by
  rw [State.hardReset, State.resetRegisters]

/-- The assertion of the pin, whether or not a command runs. -/
theorem step_assert {s : State} {rest : List Input} (hin : s.inputs = .rstn false :: rest) :
    ∃ t, step s = .next t ∧ t.inReset = true ∧ t.engine = Option.none ∧ t.inputs = rest := by
  refine ⟨_, step_rstn hin, rfl, ?_, ?_⟩
  · simp only [State.setRstn, Bool.false_eq_true, if_false, State.hardReset_engine]
  · simp only [State.setRstn, Bool.false_eq_true, if_false, State.hardReset_inputs]

/-- A hard reset leaves the registers of `State.reset` and the parameter. -/
theorem State.hardReset_eq (s : State) :
    s.hardReset =
      { State.reset with
        dmemExp := s.dmemExp, freq := s.hardReset.freq, node := s.hardReset.node, code := s.hardReset.code,
        dmem := s.hardReset.dmem, inReset := s.inReset, inputs := s.inputs, draws := s.hardReset.draws } := by
  simp only [State.hardReset, State.resetRegisters, State.drawMemories]
  rfl

/-- Settles O23: in reset the host is ignored, and either edge of the pin resets the registers. -/
theorem hardResetIgnoresTheHostThenResets : Obligations.HardResetIgnoresTheHostThenResets := by
  refine ⟨fun s rest _ _ hin => step_assert hin, fun s l rest _ _ hin => step_assert hin, fun s a rest h0 hin => ?_,
    fun s a strb d rest h0 hin => ?_, fun s rest h0 hin => ⟨_, step_rstn hin, ?_⟩⟩
  · exact step_ignored h0 hin
  · exact step_ignored h0 hin
  · rw [State.setRstn, if_pos rfl, if_pos h0, State.hardReset_eq]
    rfl

end Sys2Proof.Machine
end
